-- ==== Sys2Proof/Word.lean ====
section
/-! DEFINITION. The word types: bytes, and the carrier of the reference number system. -/

namespace Sys2Proof

/-- One byte of the sample stream or of a frame (00_scope R9, 30_encoding R71). -/
abbrev Byte := BitVec 8

/-- The carrier `V` of the reference instantiation of NUM: an IEEE 754 binary64 datum in its 64-bit interchange
format (00_scope R12, 10_state: "64 bits in the reference instantiation"). -/
abbrev F64 := BitVec 64

end Sys2Proof
end

