-- ==== Sys2Proof/Syntax.lean ====
section
/-! DEFINITION. The syntax: the four coded formats of spec/opcode_table.json, their code words, and one constructor of
`Instr` per row of the table. -/

namespace Sys2Proof

/-- The formats of the rows of the opcode table (30_encoding R70, R90). -/
inductive Format where
  /-- the command word at the input port, 10 bits (R71) -/
  | port
  /-- one I/Q sample pair, 16 bits (R73) -/
  | pair
  /-- the two classified half-bits of one Manchester bit, 2 bits (R76) -/
  | sym
  /-- the slot label of an internal operation, 5 bits (R83) -/
  | stage
  deriving DecidableEq, Repr

/-- The width of a format's code word in bits (30_encoding R70). -/
def Format.width : Format → Nat
  | .port  => 10
  | .pair  => 16
  | .sym   => 2
  | .stage => 5

/-- A code word of one of the four formats. -/
inductive Code where
  | port  (cw : BitVec 10)
  | pair  (p : BitVec 16)
  | sym   (c : BitVec 2)
  | stage (slot : BitVec 5)
  deriving DecidableEq, Repr

/-- The format of a code word. -/
def Code.format : Code → Format
  | .port _  => .port
  | .pair _  => .pair
  | .sym _   => .sym
  | .stage _ => .stage

/-- The bits of a code word, bit 0 the least significant (00_scope R9). -/
def Code.toNat : Code → Nat
  | .port cw    => cw.toNat
  | .pair p     => p.toNat
  | .sym c      => c.toNat
  | .stage slot => slot.toNat

/-- The operations of the block, one constructor per row of spec/opcode_table.json. The port commands carry their data
byte even where they ignore it: any value is legal (30_encoding R71), so it is part of the word. -/
inductive Instr where
  -- PORT (30_encoding R72)
  | nop   (din : Byte)
  | byte  (din : Byte)
  | eos   (din : Byte)
  | reset (din : Byte)
  -- PAIR (30_encoding R73)
  | sample (i q : Byte)
  -- SYM (30_encoding R76)
  | symHL
  | symLH
  | symLL
  | symHH
  -- STAGE (30_encoding R83)
  | center
  | lpfI
  | lpfQ
  | mag
  | disc
  | lpfD
  | prev
  | ringPush
  | thrUpd
  | skipTick
  | thrDiv
  | corr
  | decInit
  | manBit
  | byteAcc
  | crcUpd
  | lenChk
  | rssi
  | tstamp
  | emit
  | skipSet
  deriving DecidableEq, Repr

/-- The format of an operation's row in the opcode table. -/
def Instr.format : Instr → Format
  | .nop _ | .byte _ | .eos _ | .reset _ => .port
  | .sample _ _ => .pair
  | .symHL | .symLH | .symLL | .symHH => .sym
  | .center | .lpfI | .lpfQ | .mag | .disc | .lpfD | .prev | .ringPush | .thrUpd | .skipTick | .thrDiv | .corr
  | .decInit | .manBit | .byteAcc | .crcUpd | .lenChk | .rssi | .tstamp | .emit | .skipSet => .stage

end Sys2Proof
end

