-- ==== Sys2Proof/Decode.lean ====
section
/-! DEFINITION. Decoding, total on every code word and on any bytes, rejecting by name; the encoder; and the host's
reading of an opcode-table word. Nothing at the port is illegal (30_encoding R81): the only words that name no
operation are the STAGE labels 0 and 22 to 31. -/

namespace Sys2Proof

/-- Why a word or a byte string names no operation. -/
inductive DecodeError where
  /-- a STAGE label outside 1 to 21 (30_encoding R83, 93 U20) -/
  | noSuchSlot (slot : BitVec 5)
  /-- a bit above the format's width is set in the byte container -/
  | strayBits (f : Format)
  /-- not the number of bytes that contain one word of the format -/
  | wrongLength (f : Format)
  deriving DecidableEq, Repr

/-- The port decoder: `cmd` is `CW[9:8]`, `din` is `CW[7:0]` (30_encoding R71, R72). -/
def decodePort (cw : BitVec 10) : Instr :=
  let din : Byte := cw.extractLsb' 0 8
  match (cw.extractLsb' 8 2).toNat with
  | 0 => .nop din
  | 1 => .byte din
  | 2 => .eos din
  | _ => .reset din

/-- A sample pair: `I` is `PAIR[15:8]`, `Q` is `PAIR[7:0]` (30_encoding R73). -/
def decodePair (p : BitVec 16) : Instr := .sample (p.extractLsb' 8 8) (p.extractLsb' 0 8)

/-- A symbol pair: `m1` is bit 1, `m2` is bit 0 (30_encoding R76). -/
def decodeSym (c : BitVec 2) : Instr :=
  match c.toNat with
  | 0 => .symLL
  | 1 => .symLH
  | 2 => .symHL
  | _ => .symHH

/-- A stage label (30_encoding R83). -/
def decodeStage (slot : BitVec 5) : Except DecodeError Instr :=
  match slot.toNat with
  | 1  => .ok .center
  | 2  => .ok .lpfI
  | 3  => .ok .lpfQ
  | 4  => .ok .mag
  | 5  => .ok .disc
  | 6  => .ok .lpfD
  | 7  => .ok .prev
  | 8  => .ok .ringPush
  | 9  => .ok .thrUpd
  | 10 => .ok .skipTick
  | 11 => .ok .thrDiv
  | 12 => .ok .corr
  | 13 => .ok .decInit
  | 14 => .ok .manBit
  | 15 => .ok .byteAcc
  | 16 => .ok .crcUpd
  | 17 => .ok .lenChk
  | 18 => .ok .rssi
  | 19 => .ok .tstamp
  | 20 => .ok .emit
  | 21 => .ok .skipSet
  | _  => .error (.noSuchSlot slot)

/-- The decoder: a code word to the operation it names. -/
def decode : Code → Except DecodeError Instr
  | .port cw    => .ok (decodePort cw)
  | .pair p     => .ok (decodePair p)
  | .sym c      => .ok (decodeSym c)
  | .stage slot => decodeStage slot

/-- The encoder, written from the same tables: a PORT word is `cmd` above `din`, a PAIR word `I` above `Q`. -/
def encode : Instr → Code
  | .nop din    => .port (0b00#2 ++ din)
  | .byte din   => .port (0b01#2 ++ din)
  | .eos din    => .port (0b10#2 ++ din)
  | .reset din  => .port (0b11#2 ++ din)
  | .sample i q => .pair (i ++ q)
  | .symHL      => .sym 0b10#2
  | .symLH      => .sym 0b01#2
  | .symLL      => .sym 0b00#2
  | .symHH      => .sym 0b11#2
  | .center     => .stage 1#5
  | .lpfI       => .stage 2#5
  | .lpfQ       => .stage 3#5
  | .mag        => .stage 4#5
  | .disc       => .stage 5#5
  | .lpfD       => .stage 6#5
  | .prev       => .stage 7#5
  | .ringPush   => .stage 8#5
  | .thrUpd     => .stage 9#5
  | .skipTick   => .stage 10#5
  | .thrDiv     => .stage 11#5
  | .corr       => .stage 12#5
  | .decInit    => .stage 13#5
  | .manBit     => .stage 14#5
  | .byteAcc    => .stage 15#5
  | .crcUpd     => .stage 16#5
  | .lenChk     => .stage 17#5
  | .rssi       => .stage 18#5
  | .tstamp     => .stage 19#5
  | .emit       => .stage 20#5
  | .skipSet    => .stage 21#5

/-! ### Words in bytes

A code word of the table in whole bytes: bit 0 is the least significant bit of the first byte. The block itself has no
byte-addressed memory (20_memory R50); this is the container the opcode table's numbering gives (log 12). -/

/-- How many bytes contain one word of a format. -/
def Format.bytes : Format → Nat
  | .port | .pair => 2
  | .sym | .stage => 1

/-- The number a byte string stands for, first byte least significant. -/
def bytesToNat : List Byte → Nat
  | [] => 0
  | b :: bs => b.toNat + 256 * bytesToNat bs

/-- The first `k` bytes of a number, least significant first. -/
def natToBytes : Nat → Nat → List Byte
  | 0, _ => []
  | k + 1, w => BitVec.ofNat 8 w :: natToBytes k (w / 256)

/-- The code word of a format whose bits are a number. -/
def codeOfNat (f : Format) (w : Nat) : Except DecodeError Code :=
  if w < 2 ^ f.width then
    .ok (match f with
      | .port  => .port (BitVec.ofNat 10 w)
      | .pair  => .pair (BitVec.ofNat 16 w)
      | .sym   => .sym (BitVec.ofNat 2 w)
      | .stage => .stage (BitVec.ofNat 5 w))
  else .error (.strayBits f)

/-- The code word in a byte string. -/
def codeOfBytes (f : Format) (bs : List Byte) : Except DecodeError Code :=
  if bs.length = f.bytes then codeOfNat f (bytesToNat bs) else .error (.wrongLength f)

/-- The decoder over bytes, total on any byte string. -/
def decodeBytes (f : Format) (bs : List Byte) : Except DecodeError Instr := (codeOfBytes f bs).bind decode

/-- An operation's word in bytes. -/
def encodeBytes (i : Instr) : List Byte := natToBytes i.format.bytes (encode i).toNat

/-- The format of an opcode-table word, from the number of bits and the word itself. A row's own width names its
format. In whole bytes two formats share a container: a 16-bit word is a PORT word if its bits 15:10 are 0, else a PAIR;
an 8-bit word is a SYM code if its bits 7:2 are 0, else a STAGE label (log 12). -/
def tableFormat (nbits w : Nat) : Option Format :=
  match nbits with
  | 10 => some .port
  | 16 => some (if w < 2 ^ 10 then .port else .pair)
  | 2  => some .sym
  | 5  => some .stage
  | 8  => some (if w < 2 ^ 2 then .sym else .stage)
  | _  => none

/-- The code word of an opcode-table word. -/
def tableCode (nbits w : Nat) : Option Code :=
  match tableFormat nbits w with
  | none => none
  | some f => (codeOfBytes f (natToBytes f.bytes w)).toOption

/-- The instruction the decoder reads from an opcode-table word: the word laid out in bytes, then decoded. -/
def decodeTableWord (nbits w : Nat) : Option Instr :=
  match tableFormat nbits w with
  | none => none
  | some f => (decodeBytes f (natToBytes f.bytes w)).toOption

end Sys2Proof
end

