-- ==== Sys2Proof/Config.lean ====
section
/-! DEFINITION. What a configuration is made of: the number system NUM (00_scope R12), the build-time parameters
(00_scope R6) with the profiles P0 and T1, and the values the spec leaves free. -/

namespace Sys2Proof

/-- The configuration record NUM of 00_scope R12: a carrier `V` and total functions over it. -/
structure Num (V : Type) where
  /-- the value of an integer -/
  ofInt : Int → V
  /-- `lit m k` is the value of the decimal literal `m · 10^(-k)` -/
  lit   : Int → Nat → V
  add   : V → V → V
  sub   : V → V → V
  mul   : V → V → V
  div   : V → V → V
  sqrt  : V → V
  /-- left open by the spec beyond "depends on its operand alone" (92 O2) -/
  log10 : V → V
  /-- strict greater-than -/
  gt    : V → V → Bool
  /-- strict less-than -/
  lt    : V → V → Bool

/-- `zero = ofInt(0)` (00_scope R12). -/
def Num.zero {V : Type} (n : Num V) : V := n.ofInt 0

/-- The feed-forward coefficients `B[0..4]` of a filter (40 R101). -/
structure FwdCoef (V : Type) where
  c0 : V
  c1 : V
  c2 : V
  c3 : V
  c4 : V
  deriving DecidableEq, Repr

/-- The feedback coefficients `A[1..4]` of a filter (40 R101). -/
structure BackCoef (V : Type) where
  c1 : V
  c2 : V
  c3 : V
  c4 : V
  deriving DecidableEq, Repr

/-- A parameter set: the rows of the table of 00_scope R6, under the table's own names. `HI_POS` and `LO_POS` are
derived from `preamble` and `manOneIsHl` (30_encoding R78, Machine/Operands.lean). -/
structure Params (V : Type) where
  /-- `N`, the capacity of each ring -/
  n : Nat
  /-- `LOGN` -/
  logN : Nat
  /-- `SPH`, samples per half-bit -/
  sph : Nat
  /-- `SPB`, samples per bit -/
  spb : Nat
  preBits : Nat
  preSyms : Nat
  /-- `PREAMBLE[0..9]`, index 0 first on air -/
  preamble : List Bool
  manOneIsHl : Bool
  symOfs : Nat
  maxBytes : Nat
  minBytes : Nat
  /-- `W`, the threshold window in samples -/
  w : Nat
  bias : Nat
  eps : V
  discGain : V
  iqB : FwdCoef V
  iqA : BackCoef V
  fmB : FwdCoef V
  fmA : BackCoef V
  crcPoly : BitVec 16
  crcInit : BitVec 16
  kCal : V
  rssiOfs : Nat
  tSampleNs : Nat
  latencyUs : Nat
  skipInit : Nat
  deriving DecidableEq, Repr

/-- The NUM operations of the reference instantiation whose IEEE result can be a NaN. -/
inductive NumOp where
  | add
  | sub
  | mul
  | div
  | sqrt
  deriving DecidableEq, Repr

/-- FREE VALUE (log 4). `log10` of the reference NUM, but for the operand zero (Machine/Float64.lean): "a configuration function of which the model assumes only that it
depends on its operand alone" (00_scope R12, 92 O2). -/
opaque Config.log10 : F64 → F64

/-- FREE VALUE (log 5). The sign and the payload of the quiet NaN an operation generates or propagates; neither the
spec nor IEEE 754 fixes them. A one-operand operation repeats its operand. -/
opaque Config.nanBits : NumOp → F64 → F64 → BitVec 52

/-- FREE VALUE (log 11). What a read of an entry of `BUF` that does not exist gives, as a function of the index, the
buffer and the CRC register. No schedule of 46 R177 reads one (20_memory R54). -/
opaque Config.strayByte : Nat → List Byte → BitVec 16 → Byte

/-- The default conditioner coefficients `IQ_B` (40 R103). -/
def Config.iqB {V : Type} (n : Num V) : FwdCoef V :=
  ⟨n.lit 10209480791203138 18, n.lit 4083792316481255 17, n.lit 61256884747218826 18,
   n.lit 4083792316481255 17, n.lit 10209480791203138 18⟩

/-- The default conditioner coefficients `IQ_A` (40 R103). -/
def Config.iqA {V : Type} (n : Num V) : BackCoef V :=
  ⟨n.lit (-1968427786938518) 15, n.lit 17358607092088862 16, n.lit (-7244708295073625) 16,
   n.lit 12038959989624448 17⟩

/-- The default post-filter coefficients `FM_B` (41 R114). -/
def Config.fmB {V : Type} (n : Num V) : FwdCoef V :=
  ⟨n.lit 9334986129548443 19, n.lit 3733994451819377 18, n.lit 5600991677729065 18,
   n.lit 3733994451819377 18, n.lit 9334986129548443 19⟩

/-- The default post-filter coefficients `FM_A` (41 R114). -/
def Config.fmA {V : Type} (n : Num V) : BackCoef V :=
  ⟨n.lit (-2976844333696732) 15, n.lit 3422309529377639 15, n.lit (-17861066002180392) 16,
   n.lit 3555773823444098 16⟩

/-- Profile P0, the default parameter set (00_scope R6, column P0). -/
def Config.p0 {V : Type} (n : Num V) : Params V where
  n := 8192
  logN := 13
  sph := 16
  spb := 32
  preBits := 10
  preSyms := 20
  preamble := [true, true, true, true, false, true, false, true, false, true]
  manOneIsHl := true
  symOfs := 0
  maxBytes := 29
  minBytes := 3
  w := 1088
  bias := 128
  eps := n.div (n.ofInt 1) (n.ofInt (2 ^ 40))
  discGain := n.ofInt 1
  iqB := Config.iqB n
  iqA := Config.iqA n
  fmB := Config.fmB n
  fmA := Config.fmA n
  crcPoly := 0x1021#16
  crcInit := 0xFFFF#16
  kCal := n.ofInt 1
  rssiOfs := 0
  tSampleNs := 625
  latencyUs := 5120
  skipInit := 8192

/-- Profile T1, the small profile of the spec's hand-checkable vectors, "test only" (00_scope R6, column T1). -/
def Config.t1 {V : Type} (n : Num V) : Params V :=
  { Config.p0 n with
    n := 128, logN := 7, sph := 1, spb := 2, maxBytes := 4, w := 68, tSampleNs := 10000, latencyUs := 1280,
    skipInit := 128 }

end Sys2Proof
end

