-- ==== Sys2Proof/WellFormed.lean ====
section
/-! DEFINITION. Well-formedness: which code words name an operation (30_encoding R72, R73, R76, R83), and which
parameter sets are a configuration of the block (00_scope R7). Every term of `Instr` is well formed by its type: each
operand is a bit vector of exactly its field's width, and every value of every operand is legal (30_encoding R81). -/

namespace Sys2Proof

/-- A code word is well formed when an operation of the table stands for it: every PORT, PAIR and SYM word, and the
STAGE labels 1 to 21 (30_encoding R81, R83; 93 U20). -/
def Code.wf : Code → Bool
  | .port _ | .pair _ | .sym _ => true
  | .stage slot => decide (1 ≤ slot.toNat) && decide (slot.toNat ≤ 21)

namespace Params

variable {V : Type} (num : Num V) (p : Params V)

/-- R7 (a): the capacity is the power of two that LOGN names. -/
def capacityIsPow2 : Bool := decide (p.n = 2 ^ p.logN) && decide (1 ≤ p.logN)

/-- R7 (b): the ring is longer than the longest frame and the RSSI offset. -/
def ringHoldsLongestFrame : Bool := decide ((p.preBits + 8 * p.maxBytes) * p.spb + p.rssiOfs < p.n)

/-- R7 (c), with the formula for W of R6. -/
def windowFits : Bool := decide (1 ≤ p.w) && decide (p.w ≤ p.n) && decide (p.w = (p.preBits + 8 * p.minBytes) * p.spb)

/-- R7 (d): the warm-up fills the ring. -/
def warmUpFillsRing : Bool := decide (p.n - 1 ≤ p.skipInit)

/-- R7 (e), with the bound 31 that the 5-bit LEN and OUT_LEN put on MAX_BYTES (00_scope R17 (d); log 16). -/
def lengthsFit : Bool :=
  decide (1 ≤ p.minBytes) && decide (p.minBytes ≤ p.maxBytes) && decide (2 ≤ p.maxBytes) && decide (p.maxBytes ≤ 31)

/-- R7 (f). -/
def samplingFits : Bool := decide (1 ≤ p.sph) && decide (p.spb = 2 * p.sph) && decide (p.symOfs < p.sph)

/-- R7 (g). -/
def biasIsByte : Bool := decide (p.bias ≤ 255)

/-- R7 (h): EPS > 0, in the order of NUM. -/
def epsPositive : Bool := num.gt p.eps num.zero

/-- R7 (i), with the ten preamble bits of R6. -/
def preambleIsTenBits : Bool :=
  decide (p.preBits = 10) && decide (p.preSyms = 20) && decide (p.preamble.length = 10)

/-- R7 (j): K_CAL > 0, in the order of NUM. -/
def calibrationPositive : Bool := num.gt p.kCal num.zero

/-- LATENCY_US is the floor of N · T_SAMPLE_NS / 1000 (00_scope R6, R17 (i)). -/
def latencyIsDerived : Bool := decide (p.latencyUs = p.n * p.tSampleNs / 1000)

/-- A parameter set is a configuration of the block only when all of 00_scope R7 holds; "a model refuses any other
set". -/
def wf : Bool :=
  p.capacityIsPow2 && p.ringHoldsLongestFrame && p.windowFits && p.warmUpFillsRing && p.lengthsFit && p.samplingFits &&
  p.biasIsByte && p.epsPositive num && p.preambleIsTenBits && p.calibrationPositive num && p.latencyIsDerived

end Params

/-- A configuration of the block: a number system and a parameter set over it that is well formed. Any other set is
refused here, at construction, and has no behaviour (00_scope R7, 93 U8). -/
structure Cfg (V : Type) where
  num : Num V
  par : Params V
  legal : par.wf num = true

/-- The value `zero` of a configuration. -/
abbrev Cfg.zero {V : Type} (C : Cfg V) : V := C.num.zero

end Sys2Proof
end

