-- ==== Sys2Proof/Machine/Float64.lean ====
section
/-! DEFINITION. The reference instantiation of NUM (00_scope R12): IEEE 754 binary64, round to nearest, ties to even.
Every operation is computed exactly on integers and rounded once. The IEEE special cases (signed zeros, infinities,
NaN) are general knowledge (93 K6; log 17). -/

namespace Sys2Proof.Machine

/-! ### The datum -/

/-- The sign bit. -/
def f64Sign (x : F64) : Bool := decide (2 ^ 63 ≤ x.toNat)

/-- The biased exponent field. -/
def f64Exp (x : F64) : Nat := x.toNat / 2 ^ 52 % 2 ^ 11

/-- The fraction field. -/
def f64Frac (x : F64) : Nat := x.toNat % 2 ^ 52

def f64IsNan (x : F64) : Bool := decide (f64Exp x = 2047) && decide (f64Frac x ≠ 0)

def f64IsInf (x : F64) : Bool := decide (f64Exp x = 2047) && decide (f64Frac x = 0)

/-- The integer significand: a finite datum is `± f64Mant x · 2 ^ f64Scale x`. -/
def f64Mant (x : F64) : Nat := if f64Exp x = 0 then f64Frac x else f64Frac x + 2 ^ 52

/-- The power of two of a finite datum. -/
def f64Scale (x : F64) : Int := (max (f64Exp x) 1 : Nat) - 1075

def f64IsZero (x : F64) : Bool := decide (x.toNat % 2 ^ 63 = 0)

/-- The datum with a sign and 63 lower bits. -/
def f64Pack (neg : Bool) (body : Nat) : F64 := BitVec.ofNat 64 (if neg then 2 ^ 63 + body else body)

def f64Zero (neg : Bool) : F64 := f64Pack neg 0

def f64Inf (neg : Bool) : F64 := f64Pack neg (2047 * 2 ^ 52)

/-- The quiet NaN with the given sign (top bit) and payload (the other 51 bits). -/
def f64QuietNan (p : BitVec 52) : F64 := p.extractLsb' 51 1 ++ 0xFFF#12 ++ p.extractLsb' 0 51

/-- The NaN an operation answers: which one is a free value (log 5). -/
def f64Nan (op : NumOp) (x y : F64) : F64 := f64QuietNan (Config.nanBits op x y)

/-- Negation flips the sign bit. -/
def f64Neg (x : F64) : F64 := x ^^^ (1#64 <<< 63)

/-! ### Rounding -/

/-- The integer nearest to `m / 2^k`, a tie going to the even one. -/
def roundShift (m k : Nat) : Nat :=
  let q := m / 2 ^ k
  let r := m % 2 ^ k
  if 2 ^ k < 2 * r ∨ (2 * r = 2 ^ k ∧ q % 2 = 1) then q + 1 else q

/-- The datum nearest to `± m · 2^e`, a tie going to the even significand; past the largest finite datum, infinity. -/
def f64Round (neg : Bool) (m : Nat) (e : Int) : F64 :=
  if m = 0 then f64Zero neg
  else
    let t := max (e + (Nat.log2 m : Int) - 52) (-1074)
    let q := if t ≤ e then m * 2 ^ (e - t).toNat else roundShift m (t - e).toNat
    let body := (t + 1074).toNat * 2 ^ 52 + q
    if 2047 * 2 ^ 52 ≤ body then f64Inf neg else f64Pack neg body

/-- Round `± num / den · 2^e`: the quotient is taken to at least 60 bits and a last bit says whether a remainder is
left, so that rounding once is rounding the exact quotient. -/
def f64RoundQuot (neg : Bool) (num den : Nat) (e : Int) : F64 :=
  let k := 64 + Nat.log2 den
  let q := num * 2 ^ k / den
  let sticky := if num * 2 ^ k % den = 0 then 0 else 1
  f64Round neg (2 * q + sticky) (e - k - 1)

/-! ### The operations -/

/-- `ofInt` (00_scope R12): exact below 2^53. -/
def f64OfInt (z : Int) : F64 := f64Round (decide (z < 0)) z.natAbs 0

/-- `lit` (00_scope R12): the binary64 nearest the decimal literal `m · 10^(-k)`. -/
def f64Lit (m : Int) (k : Nat) : F64 := f64RoundQuot (decide (m < 0)) m.natAbs (10 ^ k) 0

/-- The signed significand of a finite datum at the scale `e`, which is at most its own. -/
def f64IntAt (x : F64) (e : Int) : Int :=
  let m : Int := f64Mant x * 2 ^ (f64Scale x - e).toNat
  if f64Sign x then -m else m

/-- The sum of two finite data. An exact zero is negative only when both are negative. -/
def f64AddFinite (x y : F64) : F64 :=
  let e := min (f64Scale x) (f64Scale y)
  let z := f64IntAt x e + f64IntAt y e
  if z = 0 then f64Zero (f64Sign x && f64Sign y) else f64Round (decide (z < 0)) z.natAbs e

/-- The sum of two data neither of which is a NaN; `nan` is the answer where infinities cancel. -/
def f64AddNum (x y nan : F64) : F64 :=
  if f64IsInf x then
    if f64IsInf y && (f64Sign x != f64Sign y) then nan else x
  else if f64IsInf y then y
  else f64AddFinite x y

def f64Add (x y : F64) : F64 :=
  let nan := f64Nan .add x y
  if f64IsNan x || f64IsNan y then nan else f64AddNum x y nan

def f64Sub (x y : F64) : F64 :=
  let nan := f64Nan .sub x y
  if f64IsNan x || f64IsNan y then nan else f64AddNum x (f64Neg y) nan

def f64Mul (x y : F64) : F64 :=
  let nan := f64Nan .mul x y
  let neg := f64Sign x != f64Sign y
  if f64IsNan x || f64IsNan y then nan
  else if f64IsInf x || f64IsInf y then
    if f64IsZero x || f64IsZero y then nan else f64Inf neg
  else f64Round neg (f64Mant x * f64Mant y) (f64Scale x + f64Scale y)

def f64Div (x y : F64) : F64 :=
  let nan := f64Nan .div x y
  let neg := f64Sign x != f64Sign y
  if f64IsNan x || f64IsNan y then nan
  else if f64IsInf x then
    if f64IsInf y then nan else f64Inf neg
  else if f64IsInf y then f64Zero neg
  else if f64IsZero y then
    if f64IsZero x then nan else f64Inf neg
  else f64RoundQuot neg (f64Mant x) (f64Mant y) (f64Scale x - f64Scale y)

/-- Newton's iteration for the integer square root, from a guess not below it; it stops when it no longer falls. -/
def isqrtFrom (n : Nat) : Nat → Nat → Nat
  | 0, g => g
  | fuel + 1, g =>
    let g' := (g + n / g) / 2
    if g' < g then isqrtFrom n fuel g' else g

/-- The integer square root. The guess is the power of two just above it, so that about `log2 (log2 n)` iterations
are needed; the fuel is far above that. -/
def isqrt (n : Nat) : Nat :=
  if n = 0 then 0 else isqrtFrom n (Nat.log2 n + 2) (2 ^ (Nat.log2 n / 2 + 1))

def f64Sqrt (x : F64) : F64 :=
  let nan := f64Nan .sqrt x x
  if f64IsNan x then nan
  else if f64IsZero x then x
  else if f64Sign x then nan
  else if f64IsInf x then x
  else
    let e := f64Scale x
    let k : Nat := 120 + (e % 2).toNat
    let m := f64Mant x * 2 ^ k
    let r := isqrt m
    let sticky := if r * r = m then 0 else 1
    f64Round false (2 * r + sticky) ((e - k) / 2 - 1)

/-- A finite or infinite datum as an integer in its order; both zeros are 0. -/
def f64Key (x : F64) : Int :=
  let b : Int := ((x.toNat % 2 ^ 63 : Nat) : Int)
  if f64Sign x then -b else b

/-- IEEE greater-than: false when an operand is a NaN. -/
def f64Gt (x y : F64) : Bool := !f64IsNan x && !f64IsNan y && decide (f64Key y < f64Key x)

/-- IEEE less-than: false when an operand is a NaN. -/
def f64Lt (x y : F64) : Bool := !f64IsNan x && !f64IsNan y && decide (f64Key x < f64Key y)

/-- `log10` of the reference NUM. Of zero it is minus infinity (45 R160 (a)); of any other operand it is a free value
(00_scope R12; log 4). -/
def f64Log10 (x : F64) : F64 := if f64IsZero x then f64Inf true else Config.log10 x

/-- The reference instantiation of NUM (00_scope R12). -/
def num64 : Num F64 where
  ofInt := f64OfInt
  lit := f64Lit
  add := f64Add
  sub := f64Sub
  mul := f64Mul
  div := f64Div
  sqrt := f64Sqrt
  log10 := f64Log10
  gt := f64Gt
  lt := f64Lt

/-- The machine's configuration: profile P0 over the reference NUM (logs 2 and 3). -/
def cfg : Cfg F64 where
  num := num64
  par := Config.p0 num64
  legal := by decide +kernel

end Sys2Proof.Machine
end

