-- ==== Sys2Proof/Machine/State.lean ====
section
/-! DEFINITION. The state: the block's registers and memories (10_state R20), its step-local registers (R33), and beside
the block the outcome label and the port's inputs. Plain data throughout. The block's records are written over any
carrier `V`, so that its operations can be stated for every NUM; the machine's own state has the reference carrier. -/

namespace Sys2Proof.Machine

/-- The five most recent inputs or outputs of a filter; `h0` is the newest (10_state R21). -/
structure Hist (V : Type) where
  h0 : V
  h1 : V
  h2 : V
  h3 : V
  h4 : V
  deriving DecidableEq, Repr

/-- A filter's register file: `X[0..4]` and `Y[0..4]` (10_state R21, R22). -/
structure FilterFile (V : Type) where
  x : Hist V
  y : Hist V
  deriving DecidableEq, Repr

/-- A ring memory: the listed (slot, value) pairs; a slot not listed reads `zero`, the reset content (10_state R35;
log 14). Its one canonical form is `Memory.wf` (Machine/Ops.lean). -/
abbrev Memory (V : Type) := List (Nat × V)

/-- The output record REC (30_encoding R84). -/
structure Record (V : Type) where
  len  : BitVec 5
  data : List Byte
  time : BitVec 64
  rssi : V
  deriving DecidableEq, Repr

/-- The architectural state, one field per row of the table of 10_state R20, and the observation list `OUT`
(00_scope R16). -/
structure Arch (V : Type) where
  fi       : FilterFile V
  fq       : FilterFile V
  fd       : FilterFile V
  ip       : V
  qp       : V
  dring    : Memory V
  mring    : Memory V
  wr       : Nat
  sum      : V
  skip     : Nat
  phase    : Bool
  ihold    : Byte
  run      : Bool
  outValid : Bool
  outLen   : BitVec 5
  outData  : List Byte
  outRssi  : V
  outTime  : BitVec 64
  out      : List (Record V)
  deriving DecidableEq, Repr

/-- The step-local registers (10_state R28, R33): the values the stage operations hand to one another, and the candidate
frame. No port command reads one before it has written it. -/
structure Latch (V : Type) where
  /-- the Q byte of the present pair (46 R171) -/
  qin   : Byte
  xi    : V
  xq    : V
  i     : V
  q     : V
  mag   : V
  dev   : V
  d     : V
  old   : V
  thr   : V
  m1    : Bool
  m2    : Bool
  bit   : Bool
  buf   : List Byte
  crc   : BitVec 16
  nbits : Nat
  cur   : Byte
  len   : BitVec 5
  rssi  : V
  time  : BitVec 64
  deriving DecidableEq, Repr

/-- The block: what persists, and what is local to a step. -/
structure Block (V : Type) where
  arch : Arch V
  lat  : Latch V
  deriving DecidableEq, Repr

/-- How a step ends (60 R191), in the order of the codes 0 to 4. -/
inductive StepOutcome where
  | skipped
  | noMatch
  | desync
  | overlen
  | frame
  deriving DecidableEq, Repr

/-- The label of the last command or operation, a modelling device that is no state of the block and visible at no port
(10_state R28, 60 R191; log 8). -/
inductive Label where
  /-- NOP, EOS, RESET, and a stage operation after which the schedule goes on -/
  | plain
  /-- BYTE took an I byte (46 R171) -/
  | latched
  /-- BYTE with RUN = 0 (46 R171) -/
  | ignored
  /-- LEN.CHK, run alone, left the decode loop with success (44 R148) -/
  | crcZero
  /-- a step, or the stage operation that ends one, ended so -/
  | outcome (o : StepOutcome)
  deriving DecidableEq, Repr

/-- One item the environment presents. `push` is the test-bench entry of 46 R179 and no port command. -/
inductive Stimulus where
  | code (c : Code)
  | push (d g : F64)
  deriving DecidableEq, Repr

/-- One transaction: what is presented, and the value on the input `now` meanwhile (30_encoding R71). -/
structure Xact where
  item : Stimulus
  now  : BitVec 64
  deriving DecidableEq, Repr

/-- The whole state: the block, the label of the last command, the transactions still to come (oldest first) and the
present value of the input `now`. -/
structure State where
  blk   : Block F64
  label : Label
  input : List Xact
  now   : BitVec 64
  deriving DecidableEq, Repr

/-- Nothing is ever raised (60 R190): the block has no fault, so this type has no constructor. -/
inductive Fault where
  deriving DecidableEq, Repr

/-- Why a presented item has no meaning. -/
inductive Refusal where
  /-- Raised by `exec` for an instruction that has no meaning yet; no arm of `exec` does. Safe: the run stops. -/
  | notModelled (mnemonic : String)
  /-- Raised by `step` for a STAGE label that names no operation (93 U20). Safe: the run stops. -/
  | noSuchSlot (slot : BitVec 5)
  deriving DecidableEq, Repr

/-- Five equal values. -/
def Hist.const {V : Type} (v : V) : Hist V := ⟨v, v, v, v, v⟩

/-- A filter file whose ten registers hold one value. -/
def FilterFile.const {V : Type} (v : V) : FilterFile V := ⟨Hist.const v, Hist.const v⟩

/-- The reset values of 10_state R35. -/
def Arch.reset {V : Type} (C : Cfg V) : Arch V where
  fi := FilterFile.const C.zero
  fq := FilterFile.const C.zero
  fd := FilterFile.const C.zero
  ip := C.zero
  qp := C.zero
  dring := []
  mring := []
  wr := 0
  sum := C.zero
  skip := C.par.skipInit
  phase := false
  ihold := 0
  run := true
  outValid := false
  outLen := 0
  outData := List.replicate C.par.maxBytes 0
  outRssi := C.zero
  outTime := 0
  out := []

/-- The step-local registers at reset. 10_state R35 leaves them "unspecified"; zero is the model's choice (DESIGN
CHOICE, unsafe, log 6). -/
def Latch.reset {V : Type} (C : Cfg V) : Latch V where
  qin := 0
  xi := C.zero
  xq := C.zero
  i := C.zero
  q := C.zero
  mag := C.zero
  dev := C.zero
  d := C.zero
  old := C.zero
  thr := C.zero
  m1 := false
  m2 := false
  bit := false
  buf := List.replicate C.par.maxBytes 0
  crc := 0
  nbits := 0
  cur := 0
  len := 0
  rssi := C.zero
  time := 0

/-- The block right after power-on or RESET (70 R220). -/
def Block.reset {V : Type} (C : Cfg V) : Block V := ⟨Arch.reset C, Latch.reset C⟩

/-- The machine right after reset, with no transaction presented yet (10_state R35, 70 R220). -/
def State.reset : State where
  blk := Block.reset cfg
  label := .plain
  input := []
  now := 0

end Sys2Proof.Machine
end

