-- ==== Sys2Proof/Machine/Ops.lean ====
section
/-! DEFINITION. The shared operations over registers and memories: the ring memory and its access primitives
(20_memory R52, R53), the filter step (40 R101), the CRC register's update (44 R147), the byte buffer (20_memory R54),
and the ways an operation's result becomes the machine's next state. The block takes no exception (60 R190, R197): an
operation that ends a step answers with its outcome instead. -/

namespace Sys2Proof.Machine

/-! ### Ring memories -/

/-- The value at a slot; `z` is what an unlisted slot reads. -/
def Memory.read {V : Type} (z : V) : Memory V → Nat → V
  | [], _ => z
  | (a, x) :: m, k => if a = k then x else Memory.read z m k

/-- The memory with one slot written. Writing what an unlisted slot reads removes the entry. -/
def Memory.write {V : Type} [DecidableEq V] (z : V) : Memory V → Nat → V → Memory V
  | [], k, v => if v = z then [] else [(k, v)]
  | (a, x) :: m, k, v =>
    if k < a then
      if v = z then (a, x) :: m else (k, v) :: (a, x) :: m
    else if k = a then
      if v = z then m else (k, v) :: m
    else (a, x) :: Memory.write z m k v

/-- The canonical form: slots strictly rising, and no entry equal to what an unlisted slot reads. -/
abbrev Memory.wf {V : Type} (z : V) (m : Memory V) : Prop :=
  m.Pairwise (fun a b => a.1 < b.1) ∧ ∀ c ∈ m, c.2 ≠ z

/-- Every listed slot is a slot of a ring of `n` entries (20_memory R50). -/
abbrev Memory.within {V : Type} (n : Nat) (m : Memory V) : Prop := ∀ c ∈ m, c.1 < n

/-- The slot at an offset from the anchor: `(WR + off) mod N` (20_memory R52). -/
def slotAt {V : Type} (C : Cfg V) (a : Arch V) (off : Nat) : Nat := (a.wr + off) % C.par.n

/-- `RingRead(DRING, off)` (20_memory R52). -/
def readD {V : Type} (C : Cfg V) (a : Arch V) (off : Nat) : V := Memory.read C.zero a.dring (slotAt C a off)

/-- `RingRead(MRING, off)` (20_memory R52). -/
def readM {V : Type} (C : Cfg V) (a : Arch V) (off : Nat) : V := Memory.read C.zero a.mring (slotAt C a off)

/-- `RingWrite(d, m)` (20_memory R53): both rings at `WR`, then the cursor advances with wrap-around. -/
def ringWrite {V : Type} [DecidableEq V] (C : Cfg V) (d m : V) (a : Arch V) : Arch V :=
  { a with
    dring := Memory.write C.zero a.dring a.wr d
    mring := Memory.write C.zero a.mring a.wr m
    wr := (a.wr + 1) % C.par.n }

/-! ### Filters -/

/-- Shift a history by one and insert the newest value (40 R101). -/
def Hist.shift {V : Type} (h : Hist V) (v : V) : Hist V := ⟨v, h.h0, h.h1, h.h2, h.h3⟩

/-- The accumulation of `LpfStep`, one NUM operation per operator in the order written (40 R101): `x` is the input
history with the new input in it, `y` still holds the outputs of the previous steps. -/
def lpfAcc {V : Type} (n : Num V) (b : FwdCoef V) (a : BackCoef V) (x y : Hist V) : V :=
  let acc := n.mul b.c0 x.h0
  let acc := n.add acc (n.mul b.c1 x.h1)
  let acc := n.add acc (n.mul b.c2 x.h2)
  let acc := n.add acc (n.mul b.c3 x.h3)
  let acc := n.add acc (n.mul b.c4 x.h4)
  let acc := n.sub acc (n.mul a.c1 y.h0)
  let acc := n.sub acc (n.mul a.c2 y.h1)
  let acc := n.sub acc (n.mul a.c3 y.h2)
  n.sub acc (n.mul a.c4 y.h3)

/-- The output of `LpfStep(F, B, A, u)` (40 R101). -/
def lpfOut {V : Type} (n : Num V) (b : FwdCoef V) (a : BackCoef V) (f : FilterFile V) (u : V) : V :=
  lpfAcc n b a (f.x.shift u) f.y

/-- The register file after `LpfStep(F, B, A, u)` (40 R101): the input is shifted into `X`, the output into `Y`. -/
def lpfNext {V : Type} (n : Num V) (b : FwdCoef V) (a : BackCoef V) (f : FilterFile V) (u : V) : FilterFile V :=
  ⟨f.x.shift u, f.y.shift (lpfOut n b a f u)⟩

/-! ### The CRC register -/

/-- One shift of the CRC register, the bit shifted out tested first (44 R147). -/
def crcShift (poly r : BitVec 16) : BitVec 16 := if r.msb then (r <<< 1) ^^^ poly else r <<< 1

/-- `k` shifts. -/
def crcShifts (poly : BitVec 16) : Nat → BitVec 16 → BitVec 16
  | 0, r => r
  | k + 1, r => crcShifts poly k (crcShift poly r)

/-- The register after one byte (44 R147). -/
def crcByte (poly r : BitVec 16) (b : Byte) : BitVec 16 := crcShifts poly 8 (r ^^^ (b.setWidth 16 <<< 8))

/-- The register after a byte string, from a given start. -/
def crcBytes (poly r : BitVec 16) (bs : List Byte) : BitVec 16 := bs.foldl (crcByte poly) r

/-! ### The candidate byte buffer -/

/-- `BUF[k]`. An entry that does not exist reads as a free value (log 11). -/
def bufRead {V : Type} (l : Latch V) (k : Nat) : Byte :=
  match l.buf[k]? with
  | some b => b
  | none => Config.strayByte k l.buf l.crc

/-- `BUF[0 .. LEN-1]`. -/
def bufFrame {V : Type} (l : Latch V) : List Byte := (List.range l.len.toNat).map (bufRead l)

/-! ### From an operation to the next state -/

/-- The state with the block and the label replaced. -/
def State.put (s : State) (b : Block F64) (l : Label) : State := { s with blk := b, label := l }

/-- The label of an operation that may end the step. -/
def Label.ofEnd : Option StepOutcome → Label
  | none => .plain
  | some o => .outcome o

/-- An operation that never ends the step. -/
def goesOn (s : State) (b : Block F64) : Host.Outcome State Fault Refusal := .next (s.put b .plain)

/-- An operation that may end the step. -/
def mayEnd (s : State) (r : Block F64 × Option StepOutcome) : Host.Outcome State Fault Refusal :=
  .next (s.put r.1 (Label.ofEnd r.2))

/-- A command with a label of its own. -/
def labelled (s : State) (r : Block F64 × Label) : Host.Outcome State Fault Refusal := .next (s.put r.1 r.2)

end Sys2Proof.Machine
end

