-- ==== Sys2Proof/Machine/Operands.lean ====
section
/-! DEFINITION. Operand forms: the centred sample (30_encoding R74), the sampling positions (43 R131, 44 R141), the
correlator's tables (30_encoding R78), the frame's span (44 R150), and the format AIR (30_encoding R75). -/

namespace Sys2Proof.Machine

variable {V : Type}

/-- A sample byte, zero-extended, less the bias: an integer without wrap (30_encoding R74, 40 R100). -/
def centred (C : Cfg V) (b : Byte) : Int := (b.toNat : Int) - (C.par.bias : Int)

/-- `pos(h)`, the ring offset at which half-bit `h` is sampled (43 R131). -/
def pos (C : Cfg V) (h : Nat) : Nat := C.par.symOfs + h * C.par.sph

/-- `o1`, the first half-bit of data bit `j` (44 R141). -/
def firstHalfOfs (C : Cfg V) (j : Nat) : Nat := C.par.symOfs + (2 * C.par.preBits + 2 * j) * C.par.sph

/-- `o2`, the second half-bit of data bit `j`, one half-bit period later (44 R141). -/
def secondHalfOfs (C : Cfg V) (j : Nat) : Nat := firstHalfOfs C j + C.par.sph

/-- The two half-bit levels of a logical bit, true for high (30_encoding R76, R78). -/
def manchester (oneIsHl bit : Bool) : List Bool := if bit = oneIsHl then [true, false] else [false, true]

/-- The half-bit levels of the preamble, half-bit 0 first (30_encoding R78). -/
def preambleLevels (p : Params V) : List Bool := p.preamble.flatMap (manchester p.manOneIsHl)

/-- `HI_POS`: the preamble half-bits that must read above the threshold, ascending (30_encoding R78). -/
def hiPos (p : Params V) : List Nat :=
  (List.range p.preSyms).filter (fun h => (preambleLevels p)[h]? == some true)

/-- `LO_POS`: the preamble half-bits that must read below the threshold, ascending (30_encoding R78). -/
def loPos (p : Params V) : List Nat :=
  (List.range p.preSyms).filter (fun h => (preambleLevels p)[h]? == some false)

/-- `span`: the samples of the preamble and `nbits` data bits (44 R150, 45 R160). -/
def span (C : Cfg V) (nbits : Nat) : Nat := (C.par.preBits + nbits) * C.par.spb

/-- The bits of a byte in the order they are on the air, bit 7 first (30_encoding R75, R79). -/
def byteBits (b : Byte) : List Bool := (List.range 8).map (fun k => b.getLsbD (7 - k))

/-- The half-bit levels of a transmission of a byte string: the preamble, then each byte's bits, with no gap
(30_encoding R75). -/
def airLevels (p : Params V) (bytes : List Byte) : List Bool :=
  preambleLevels p ++ (bytes.flatMap byteBits).flatMap (manchester p.manOneIsHl)

end Sys2Proof.Machine
end

