-- ==== Sys2Proof/Machine/Flags.lean ====
section
/-! DEFINITION. The step-local classifications, which stand where a processor has flags (10_state R28): the class of a
half-bit (44 R142), the correlator's verdict (43 R132), and the verdict of LEN.CHK (44 R148). None is kept but `m1` and
`m2`, in step-local registers. -/

namespace Sys2Proof.Machine

variable {V : Type}

/-- The class of a data half-bit: 1 for above the threshold, 0 otherwise, so that a value equal to the threshold is
class 0 (44 R142). -/
def above (C : Cfg V) (v thr : V) : Bool := C.num.gt v thr

/-- The correlator's high test at half-bit `h` (43 R132). -/
def highTest (C : Cfg V) (a : Arch V) (thr : V) (h : Nat) : Bool := C.num.gt (readD C a (pos C h)) thr

/-- The correlator's low test at half-bit `h` (43 R132). -/
def lowTest (C : Cfg V) (a : Arch V) (thr : V) (h : Nat) : Bool := C.num.lt (readD C a (pos C h)) thr

/-- The match verdict: all high positions above and all low positions below, both strictly (43 R132). -/
def preambleMatches (C : Cfg V) (a : Arch V) (thr : V) : Bool :=
  (hiPos C.par).all (highTest C a thr) && (loPos C.par).all (lowTest C a thr)

/-- The three ways LEN.CHK can go (44 R148). -/
inductive LenVerdict where
  /-- leave the decode loop with success -/
  | success
  /-- MAX_BYTES bytes and no zero -/
  | overlen
  /-- go on with the next bit -/
  | goOn
  deriving DecidableEq, Repr

/-- The zero test comes first, then the length test (44 R148). -/
def lenVerdict (C : Cfg V) (crc : BitVec 16) (len : BitVec 5) : LenVerdict :=
  if crc = 0 then .success
  else if len.toNat = C.par.maxBytes then .overlen
  else .goOn

end Sys2Proof.Machine
end

