-- ==== Sys2Proof/Machine/Conditioner.lean ====
section
/-! DEFINITION. Signal Conditioner: CENTER, LPF.I, LPF.Q (40_conditioner). -/

namespace Sys2Proof.Machine

variable {V : Type}

/-- CENTER (40 R100): both bytes of the pair, less the bias. -/
def opCenter (C : Cfg V) (b : Block V) : Block V :=
  { b with
    lat.xi := C.num.ofInt (centred C b.arch.ihold)
    lat.xq := C.num.ofInt (centred C b.lat.qin) }

/-- LPF.I (40 R104). -/
def opLpfI (C : Cfg V) (b : Block V) : Block V :=
  { b with
    arch.fi := lpfNext C.num C.par.iqB C.par.iqA b.arch.fi b.lat.xi
    lat.i := lpfOut C.num C.par.iqB C.par.iqA b.arch.fi b.lat.xi }

/-- LPF.Q (40 R105). -/
def opLpfQ (C : Cfg V) (b : Block V) : Block V :=
  { b with
    arch.fq := lpfNext C.num C.par.iqB C.par.iqA b.arch.fq b.lat.xq
    lat.q := lpfOut C.num C.par.iqB C.par.iqA b.arch.fq b.lat.xq }

/-- CENTER as an operation of its own (30_encoding R83). -/
def execCenter (s : State) : Host.Outcome State Fault Refusal := goesOn s (opCenter cfg s.blk)

/-- LPF.I as an operation of its own. -/
def execLpfI (s : State) : Host.Outcome State Fault Refusal := goesOn s (opLpfI cfg s.blk)

/-- LPF.Q as an operation of its own. -/
def execLpfQ (s : State) : Host.Outcome State Fault Refusal := goesOn s (opLpfQ cfg s.blk)

end Sys2Proof.Machine
end

