-- ==== Sys2Proof/Machine/Correlator.lean ====
section
/-! DEFINITION. Preamble Correlator: THR.DIV, CORR (43_correlator). -/

namespace Sys2Proof.Machine

variable {V : Type}

/-- THR.DIV (43 R130). -/
def opThrDiv (C : Cfg V) (b : Block V) : Block V :=
  { b with lat.thr := C.num.div b.arch.sum (C.num.ofInt C.par.w) }

/-- CORR (43 R132, R133): the verdict alone; a match changes no state. -/
def opCorr (C : Cfg V) (b : Block V) : Block V × Option StepOutcome :=
  (b, if preambleMatches C b.arch b.lat.thr then none else some .noMatch)

/-- THR.DIV as an operation of its own. -/
def execThrDiv (s : State) : Host.Outcome State Fault Refusal := goesOn s (opThrDiv cfg s.blk)

/-- CORR as an operation of its own. -/
def execCorr (s : State) : Host.Outcome State Fault Refusal := mayEnd s (opCorr cfg s.blk)

end Sys2Proof.Machine
end

