-- ==== Sys2Proof/Machine/Discriminator.lean ====
section
/-! DEFINITION. Frequency Discriminator and post-filter: MAG, DISC, LPF.D, PREV (41_discriminator). -/

namespace Sys2Proof.Machine

variable {V : Type}

/-- The squared magnitude (41 R111). -/
def magnitude (n : Num V) (i q : V) : V := n.add (n.mul i i) (n.mul q q)

/-- The deviation, each operator one NUM operation (41 R112). -/
def deviation (C : Cfg V) (i q ip qp mag : V) : V :=
  C.num.div
    (C.num.sub (C.num.mul i (C.num.sub q qp)) (C.num.mul q (C.num.sub i ip)))
    (C.num.add mag C.par.eps)

/-- MAG (41 R111). -/
def opMag (C : Cfg V) (b : Block V) : Block V :=
  { b with lat.mag := magnitude C.num b.lat.i b.lat.q }

/-- DISC (41 R112). -/
def opDisc (C : Cfg V) (b : Block V) : Block V :=
  { b with lat.dev := deviation C b.lat.i b.lat.q b.arch.ip b.arch.qp b.lat.mag }

/-- LPF.D (41 R113, R115): the post-filter on the scaled deviation. -/
def opLpfD (C : Cfg V) (b : Block V) : Block V :=
  let u := C.num.mul C.par.discGain b.lat.dev
  { b with
    arch.fd := lpfNext C.num C.par.fmB C.par.fmA b.arch.fd u
    lat.d := lpfOut C.num C.par.fmB C.par.fmA b.arch.fd u }

/-- PREV (41 R116). -/
def opPrev (b : Block V) : Block V :=
  { b with
    arch.ip := b.lat.i
    arch.qp := b.lat.q }

/-- MAG as an operation of its own. -/
def execMag (s : State) : Host.Outcome State Fault Refusal := goesOn s (opMag cfg s.blk)

/-- DISC as an operation of its own. -/
def execDisc (s : State) : Host.Outcome State Fault Refusal := goesOn s (opDisc cfg s.blk)

/-- LPF.D as an operation of its own. -/
def execLpfD (s : State) : Host.Outcome State Fault Refusal := goesOn s (opLpfD cfg s.blk)

/-- PREV as an operation of its own. -/
def execPrev (s : State) : Host.Outcome State Fault Refusal := goesOn s (opPrev s.blk)

end Sys2Proof.Machine
end

