-- ==== Sys2Proof/Machine/FrameDecoder.lean ====
section
/-! DEFINITION. Frame Decoder: DEC.INIT, MAN.BIT with the four symbols, BYTE.ACC, CRC.UPD, LEN.CHK, SKIP.SET, and the
decode loop (44_frame_decoder). -/

namespace Sys2Proof.Machine

variable {V : Type}

/-- DEC.INIT (44 R140): a fresh candidate frame. `BUF` needs no clearing. -/
def opDecInit (C : Cfg V) (b : Block V) : Block V :=
  { b with
    lat.crc := C.par.crcInit
    lat.nbits := 0
    lat.cur := 0
    lat.len := 0 }

/-- The two half-bits of data bit `NBITS` classified (44 R142, R143). -/
def classifyBit (C : Cfg V) (b : Block V) : Block V :=
  { b with
    lat.m1 := above C (readD C b.arch (firstHalfOfs C b.lat.nbits)) b.lat.thr
    lat.m2 := above C (readD C b.arch (secondHalfOfs C b.lat.nbits)) b.lat.thr }

/-- The symbol `m1 m2` decoded (30_encoding R76, 44 R143, R144): equal halves end the step as DESYNC and write nothing;
otherwise they are one bit, and `NBITS` counts it. -/
def decodeSymbol (C : Cfg V) (b : Block V) : Block V × Option StepOutcome :=
  if b.lat.m1 = b.lat.m2 then (b, some .desync)
  else
    ({ b with
       lat.bit := if C.par.manOneIsHl then b.lat.m1 else b.lat.m2
       lat.nbits := b.lat.nbits + 1 }, none)

/-- The symbol with the given halves, decoded. -/
def opSymbol (C : Cfg V) (m1 m2 : Bool) (b : Block V) : Block V × Option StepOutcome :=
  decodeSymbol C { b with lat.m1 := m1, lat.m2 := m2 }

/-- MAN.BIT (44 R143). -/
def opManBit (C : Cfg V) (b : Block V) : Block V × Option StepOutcome := decodeSymbol C (classifyBit C b)

/-- The bit shifted into the byte being assembled, from the right (30_encoding R79, 44 R145). -/
def shiftIn (cur : Byte) (bit : Bool) : Byte := cur <<< 1 ||| (BitVec.ofBool bit).setWidth 8

/-- BYTE.ACC (44 R145). `NBITS` already counts the bit; at a byte boundary the byte is stored at `LEN`. -/
def opByteAcc (b : Block V) : Block V :=
  let cur := shiftIn b.lat.cur b.lat.bit
  if b.lat.nbits % 8 = 0 then
    { b with
      lat.cur := cur
      lat.buf := b.lat.buf.set b.lat.len.toNat cur
      lat.len := b.lat.len + 1 }
  else { b with lat.cur := cur }

/-- CRC.UPD (44 R147): the byte just completed, `BUF[LEN - 1]`. -/
def opCrcUpd (C : Cfg V) (b : Block V) : Block V :=
  { b with lat.crc := crcByte C.par.crcPoly b.lat.crc (bufRead b.lat (b.lat.len - 1).toNat) }

/-- LEN.CHK (44 R148): a verdict; no state is written. -/
def opLenChk (C : Cfg V) (b : Block V) : LenVerdict := lenVerdict C b.lat.crc b.lat.len

/-- The label of LEN.CHK run alone. -/
def LenVerdict.label : LenVerdict → Label
  | .success => .crcZero
  | .overlen => .outcome .overlen
  | .goOn => .plain

/-- SKIP.SET (44 R150): `SKIP` is set to the span of the consumed frame. -/
def opSkipSet (C : Cfg V) (b : Block V) : Block V := { b with arch.skip := span C b.lat.nbits }

/-- The decode loop (44 R151): `none` is success. The count bounds the passes; from DEC.INIT with `8 × MAX_BYTES` passes
the loop ends before they run out, in LEN.CHK or in MAN.BIT (log 18). -/
def decodeLoop (C : Cfg V) : Nat → Block V → Block V × Option StepOutcome
  | 0, b => (b, some .overlen)
  | passes + 1, b =>
    match opManBit C b with
    | (b, some o) => (b, some o)
    | (b, none) =>
      let b := opByteAcc b
      if b.lat.nbits % 8 = 0 then
        let b := opCrcUpd C b
        match opLenChk C b with
        | .success => (b, none)
        | .overlen => (b, some .overlen)
        | .goOn => decodeLoop C passes b
      else decodeLoop C passes b

/-- One decode attempt up to its success or its silent end (44 R151). -/
def decodeFrame (C : Cfg V) (b : Block V) : Block V × Option StepOutcome :=
  decodeLoop C (8 * C.par.maxBytes) (opDecInit C b)

/-- SYM.HL (30_encoding R76): high then low. -/
def execSymHL (s : State) : Host.Outcome State Fault Refusal := mayEnd s (opSymbol cfg true false s.blk)

/-- SYM.LH (30_encoding R76): low then high. -/
def execSymLH (s : State) : Host.Outcome State Fault Refusal := mayEnd s (opSymbol cfg false true s.blk)

/-- SYM.LL (30_encoding R76): no mid-bit transition. -/
def execSymLL (s : State) : Host.Outcome State Fault Refusal := mayEnd s (opSymbol cfg false false s.blk)

/-- SYM.HH (30_encoding R76): no mid-bit transition. -/
def execSymHH (s : State) : Host.Outcome State Fault Refusal := mayEnd s (opSymbol cfg true true s.blk)

/-- DEC.INIT as an operation of its own. -/
def execDecInit (s : State) : Host.Outcome State Fault Refusal := goesOn s (opDecInit cfg s.blk)

/-- MAN.BIT as an operation of its own. -/
def execManBit (s : State) : Host.Outcome State Fault Refusal := mayEnd s (opManBit cfg s.blk)

/-- BYTE.ACC as an operation of its own. -/
def execByteAcc (s : State) : Host.Outcome State Fault Refusal := goesOn s (opByteAcc s.blk)

/-- CRC.UPD as an operation of its own. -/
def execCrcUpd (s : State) : Host.Outcome State Fault Refusal := goesOn s (opCrcUpd cfg s.blk)

/-- LEN.CHK as an operation of its own. -/
def execLenChk (s : State) : Host.Outcome State Fault Refusal := labelled s (s.blk, (opLenChk cfg s.blk).label)

/-- SKIP.SET as an operation of its own. -/
def execSkipSet (s : State) : Host.Outcome State Fault Refusal := goesOn s (opSkipSet cfg s.blk)

end Sys2Proof.Machine
end

