-- ==== Sys2Proof/Machine/Reporter.lean ====
section
/-! DEFINITION. Signal Reporter: RSSI, TSTAMP, EMIT (45_rssi_reporter). -/

namespace Sys2Proof.Machine

variable {V : Type}

/-- The sum of the square roots of `count` magnitudes from window position `j` on, in ascending order (45 R160). -/
def amplitudeSum (C : Cfg V) (a : Arch V) : Nat → Nat → V → V
  | 0, _, acc => acc
  | count + 1, j, acc =>
    amplitudeSum C a count (j + 1) (C.num.add acc (C.num.sqrt (readM C a (C.par.rssiOfs + j))))

/-- The signal level of a frame of `nbits` data bits, in dB (45 R160, R161). -/
def signalLevel (C : Cfg V) (a : Arch V) (nbits : Nat) : V :=
  let avg := C.num.div (amplitudeSum C a (span C nbits) 0 C.zero) (C.num.ofInt (span C nbits))
  C.num.mul (C.num.ofInt 20) (C.num.log10 (C.num.div (C.num.sqrt avg) C.par.kCal))

/-- RSSI (45 R160). -/
def opRssi (C : Cfg V) (b : Block V) : Block V :=
  { b with lat.rssi := signalLevel C b.arch b.lat.nbits }

/-- TSTAMP (45 R163): `now` less the buffering latency, modulo 2^64. -/
def opTstamp (C : Cfg V) (now : BitVec 64) (b : Block V) : Block V :=
  { b with lat.time := now - BitVec.ofNat 64 C.par.latencyUs }

/-- The record of the candidate frame (30_encoding R84, 45 R165). -/
def candidateRecord (l : Latch V) : Record V where
  len := l.len
  data := bufFrame l
  time := l.time
  rssi := l.rssi

/-- `OUT_DATA` after its first entries are loaded with a frame; entries past the frame keep their content, and there are
no entries past the register file's end (45 R165). -/
def loadOutData (old frame : List Byte) : List Byte := frame.take old.length ++ old.drop frame.length

/-- EMIT (45 R165): the record is appended to `OUT` and presented in the output registers. -/
def opEmit (b : Block V) : Block V :=
  { b with
    arch.out := b.arch.out ++ [candidateRecord b.lat]
    arch.outLen := b.lat.len
    arch.outData := loadOutData b.arch.outData (bufFrame b.lat)
    arch.outTime := b.lat.time
    arch.outRssi := b.lat.rssi
    arch.outValid := true }

/-- RSSI as an operation of its own. -/
def execRssi (s : State) : Host.Outcome State Fault Refusal := goesOn s (opRssi cfg s.blk)

/-- TSTAMP as an operation of its own; `now` is read at this point only. -/
def execTstamp (s : State) : Host.Outcome State Fault Refusal := goesOn s (opTstamp cfg s.now s.blk)

/-- EMIT as an operation of its own. -/
def execEmit (s : State) : Host.Outcome State Fault Refusal := goesOn s (opEmit s.blk)

end Sys2Proof.Machine
end

