-- ==== Sys2Proof/Machine/Ring.lean ====
section
/-! DEFINITION. Sample Ring, Threshold Tracker and skip gate: RING.PUSH, THR.UPD, SKIP.TICK (42_ring_threshold). -/

namespace Sys2Proof.Machine

variable {V : Type}

/-- RING.PUSH (42 R120): the entry about to be overwritten is kept for THR.UPD, then `RingWrite(d, mag)`. -/
def opRingPush [DecidableEq V] (C : Cfg V) (b : Block V) : Block V :=
  { b with
    arch := ringWrite C b.lat.d b.lat.mag b.arch
    lat.old := Memory.read C.zero b.arch.dring b.arch.wr }

/-- THR.UPD (42 R122): subtract the value leaving the window, then add the value entering it. -/
def opThrUpd (C : Cfg V) (b : Block V) : Block V :=
  { b with arch.sum := C.num.add (C.num.sub b.arch.sum b.lat.old) (readD C b.arch (C.par.w - 1)) }

/-- SKIP.TICK (42 R124): a nonzero SKIP is decremented and ends the step. -/
def opSkipTick (b : Block V) : Block V × Option StepOutcome :=
  if b.arch.skip = 0 then (b, none)
  else ({ b with arch.skip := b.arch.skip - 1 }, some .skipped)

/-- RING.PUSH as an operation of its own. -/
def execRingPush (s : State) : Host.Outcome State Fault Refusal := goesOn s (opRingPush cfg s.blk)

/-- THR.UPD as an operation of its own. -/
def execThrUpd (s : State) : Host.Outcome State Fault Refusal := goesOn s (opThrUpd cfg s.blk)

/-- SKIP.TICK as an operation of its own. -/
def execSkipTick (s : State) : Host.Outcome State Fault Refusal := mayEnd s (opSkipTick s.blk)

end Sys2Proof.Machine
end

