-- ==== Sys2Proof/Machine/Schedule.lean ====
section
/-! DEFINITION. The step: the fixed schedule of the 21 stage operations with its early exits (46 R177, R178), and the
test-bench entry PUSH (46 R179). -/

namespace Sys2Proof.Machine

variable {V : Type}

/-- Slots 1 to 7, the front end: every step runs them (46 R177). -/
def frontEnd (C : Cfg V) (b : Block V) : Block V :=
  opPrev (opLpfD C (opDisc C (opMag C (opLpfQ C (opLpfI C (opCenter C b))))))

/-- Slots 8 and 9: the rings and the threshold, every step (46 R177). -/
def ringUpdate [DecidableEq V] (C : Cfg V) (b : Block V) : Block V := opThrUpd C (opRingPush C b)

/-- Slots 18 to 21, after a successful decode (44 R151). -/
def report (C : Cfg V) (now : BitVec 64) (b : Block V) : Block V :=
  opSkipSet C (opEmit (opTstamp C now (opRssi C b)))

/-- Slots 13 to 21, after a match (44 R151). -/
def attempt (C : Cfg V) (now : BitVec 64) (b : Block V) : Block V × StepOutcome :=
  match decodeFrame C b with
  | (b, some o) => (b, o)
  | (b, none) => (report C now b, .frame)

/-- Slots 11 to 21, when SKIP was 0 (46 R177). -/
def detect (C : Cfg V) (now : BitVec 64) (b : Block V) : Block V × StepOutcome :=
  match opCorr C (opThrDiv C b) with
  | (b, some o) => (b, o)
  | (b, none) => attempt C now b

/-- `RingStep(d, mag, now)` with `d` and `mag` in their step-local registers (46 R177). -/
def ringStep [DecidableEq V] (C : Cfg V) (now : BitVec 64) (b : Block V) : Block V × StepOutcome :=
  match opSkipTick (ringUpdate C b) with
  | (b, some o) => (b, o)
  | (b, none) => detect C now b

/-- `Step(I, Q, now)` with `I` in IHOLD and `Q` in its step-local register (46 R177). -/
def pairStep [DecidableEq V] (C : Cfg V) (now : BitVec 64) (b : Block V) : Block V × StepOutcome :=
  ringStep C now (frontEnd C b)

/-- `PUSH d g` (46 R179): the back half of a step on a value and a magnitude given directly. -/
def pushStep [DecidableEq V] (C : Cfg V) (now : BitVec 64) (d g : V) (b : Block V) : Block V × StepOutcome :=
  ringStep C now { b with lat.d := d, lat.mag := g }

end Sys2Proof.Machine
end

