-- ==== Sys2Proof/Machine/Port.lean ====
section
/-! DEFINITION. The port: its four commands and the pseudo-command SAMPLE (46_port_and_step), how the next transaction
is taken, the test-bench entry, and the host's stream as commands (30_encoding R85, R88). -/

namespace Sys2Proof.Machine

variable {V : Type}

/-- Every accepted port command clears OUT_VALID first (10_state R29, 46 R170 to R174). -/
def clearValid (b : Block V) : Block V := { b with arch.outValid := false }

/-- NOP (46 R170). -/
def portNop (b : Block V) : Block V × Label := (clearValid b, .plain)

/-- BYTE (46 R171, R176). -/
def portByte [DecidableEq V] (C : Cfg V) (now : BitVec 64) (din : Byte) (b : Block V) : Block V × Label :=
  let b := clearValid b
  if b.arch.run = false then (b, .ignored)
  else if b.arch.phase = false then ({ b with arch.ihold := din, arch.phase := true }, .latched)
  else
    let r := pairStep C now { b with arch.phase := false, lat.qin := din }
    (r.1, .outcome r.2)

/-- SAMPLE I Q (46 R172): BYTE I followed by BYTE Q. -/
def portSample [DecidableEq V] (C : Cfg V) (now : BitVec 64) (i q : Byte) (b : Block V) : Block V × Label :=
  portByte C now q (portByte C now i b).1

/-- EOS (46 R174). -/
def portEos (b : Block V) : Block V × Label :=
  let b := clearValid b
  ({ b with arch.run := false }, .plain)

/-- RESET (46 R175): every state element takes its reset value, in every state. -/
def portReset (C : Cfg V) : Block V × Label := (Block.reset C, .plain)

/-- NOP; `din` is ignored. -/
def execNop (_din : Byte) (s : State) : Host.Outcome State Fault Refusal := labelled s (portNop s.blk)

/-- BYTE; `now` is read only if the step emits. -/
def execByte (din : Byte) (s : State) : Host.Outcome State Fault Refusal := labelled s (portByte cfg s.now din s.blk)

/-- EOS; `din` is ignored. -/
def execEos (_din : Byte) (s : State) : Host.Outcome State Fault Refusal := labelled s (portEos s.blk)

/-- RESET; `din` is ignored. The transactions still to come and the input `now` belong to the environment and stay. -/
def execReset (_din : Byte) (s : State) : Host.Outcome State Fault Refusal := labelled s (portReset cfg)

/-- SAMPLE; both bytes see the same `now` (log 13). -/
def execSample (i q : Byte) (s : State) : Host.Outcome State Fault Refusal :=
  labelled s (portSample cfg s.now i q s.blk)

/-- The test-bench entry PUSH as a transition of the machine (46 R179). DESIGN CHOICE (log 10): it performs its step, and
may emit, with RUN = 0 too. RingStep and PUSH have no RUN test (46 R177, R179); that no step is taken while RUN = 0
(10_state R27, 46 R176) is said of BYTE and NOP, and PUSH is not named there. -/
def benchPush (d g : F64) (s : State) : Host.Outcome State Fault Refusal :=
  let r := pushStep cfg s.now d g s.blk
  labelled s (r.1, .outcome r.2)

/-- The next transaction taken from the port: what is presented, and the state with it consumed and its `now` on the
input. None when the environment presents nothing. -/
def takeNext (s : State) : Option (Stimulus × State) :=
  match s.input with
  | [] => none
  | x :: rest => some (x.item, { s with input := rest, now := x.now })

/-- The state with one more code word presented before all others, at the present `now`. -/
def present (c : Code) (s : State) : State := { s with input := ⟨.code c, s.now⟩ :: s.input }

/-- The code word an opcode-table word is placed as; a word that is none of the table's is placed as the STAGE label 0,
which names no operation. -/
def placedCode (nbits w : Nat) : Code := (tableCode nbits w).getD (.stage 0)

/-- The refusal of a word that names no operation. -/
def refusalOf : DecodeError → Refusal
  | .noSuchSlot slot => .noSuchSlot slot
  | .strayBits _ | .wrongLength _ => .noSuchSlot 0

/-- The host's stream as port commands (30_encoding R85): one BYTE per byte, then EOS. -/
def streamCommands (bytes : List Byte) : List Instr := bytes.map Instr.byte ++ [.eos 0]

/-- `SILENCE n` (30_encoding R88): n times `SAMPLE BIAS BIAS`. -/
def silence (C : Cfg V) (n : Nat) : List Instr :=
  List.replicate n (.sample (BitVec.ofNat 8 C.par.bias) (BitVec.ofNat 8 C.par.bias))

end Sys2Proof.Machine
end

