-- ==== Sys2Proof/Machine/Dispatch.lean ====
section
/-! DEFINITION. The dispatch: one arm per operation of the opcode table. -/

namespace Sys2Proof.Machine

def exec (i : Instr) (s : State) : Host.Outcome State Fault Refusal :=
  match i with
  | .nop din => Sys2Proof.Machine.execNop din s
  | .byte din => Sys2Proof.Machine.execByte din s
  | .eos din => Sys2Proof.Machine.execEos din s
  | .reset din => Sys2Proof.Machine.execReset din s
  | .sample a b => Sys2Proof.Machine.execSample a b s
  | .symHL => Sys2Proof.Machine.execSymHL s
  | .symLH => Sys2Proof.Machine.execSymLH s
  | .symLL => Sys2Proof.Machine.execSymLL s
  | .symHH => Sys2Proof.Machine.execSymHH s
  | .center => Sys2Proof.Machine.execCenter s
  | .lpfI => Sys2Proof.Machine.execLpfI s
  | .lpfQ => Sys2Proof.Machine.execLpfQ s
  | .mag => Sys2Proof.Machine.execMag s
  | .disc => Sys2Proof.Machine.execDisc s
  | .lpfD => Sys2Proof.Machine.execLpfD s
  | .prev => Sys2Proof.Machine.execPrev s
  | .ringPush => Sys2Proof.Machine.execRingPush s
  | .thrUpd => Sys2Proof.Machine.execThrUpd s
  | .skipTick => Sys2Proof.Machine.execSkipTick s
  | .thrDiv => Sys2Proof.Machine.execThrDiv s
  | .corr => Sys2Proof.Machine.execCorr s
  | .decInit => Sys2Proof.Machine.execDecInit s
  | .manBit => Sys2Proof.Machine.execManBit s
  | .byteAcc => Sys2Proof.Machine.execByteAcc s
  | .crcUpd => Sys2Proof.Machine.execCrcUpd s
  | .lenChk => Sys2Proof.Machine.execLenChk s
  | .rssi => Sys2Proof.Machine.execRssi s
  | .tstamp => Sys2Proof.Machine.execTstamp s
  | .emit => Sys2Proof.Machine.execEmit s
  | .skipSet => Sys2Proof.Machine.execSkipSet s

end Sys2Proof.Machine
end

