-- ==== Sys2Proof/Machine/Step.lean ====
section
/-! DEFINITION. One transition of the machine: the next transaction is taken from the port and performed completely
(46 R173). With none presented the block holds its state (60 R202). -/

namespace Sys2Proof.Machine

/-- Perform what is presented: a code word's operation, or the test-bench entry. -/
def perform (x : Stimulus) (s : State) : Host.Outcome State Fault Refusal :=
  match x with
  | .push d g => benchPush d g s
  | .code c =>
    match decode c with
    | .ok i => exec i s
    | .error e => .refused (refusalOf e)

/-- One transition. -/
def step (s : State) : Host.Outcome State Fault Refusal :=
  match takeNext s with
  | none => .next s
  | some (x, s') => perform x s'

/-- The state whose next transition runs an opcode-table word: the word is presented at the port before all others. -/
def State.withFetchWord (s : State) (nbits w : Nat) : State := present (placedCode nbits w) s

end Sys2Proof.Machine
end

