-- ==== Sys2Proof/Safety.lean ====
section
/-! DEFINITION. What a sound state and a safe run are, in the terms the statements use. Nothing ever faults (60 R190), so
safety is about what the registers, the rings and the emitted records hold. -/

namespace Sys2Proof.Machine

variable {V : Type}

/-- A record the block may emit: 2 to MAX_BYTES bytes, and a CRC register that reads 0 over them (30_encoding R84,
44 R149). -/
abbrev Record.sound (C : Cfg V) (r : Record V) : Prop :=
  2 ≤ r.len.toNat ∧ r.len.toNat ≤ C.par.maxBytes ∧ r.data.length = r.len.toNat ∧
  crcBytes C.par.crcPoly C.par.crcInit r.data = 0

/-- The memories: both rings canonical and inside their N slots, the cursor one of those slots, and the two byte arrays
of their full length (20_memory R50, 10_state R24, R29). -/
abbrev Block.memOk (C : Cfg V) (b : Block V) : Prop :=
  Memory.wf C.zero b.arch.dring ∧ Memory.wf C.zero b.arch.mring ∧
  Memory.within C.par.n b.arch.dring ∧ Memory.within C.par.n b.arch.mring ∧
  b.arch.wr < C.par.n ∧ b.arch.outData.length = C.par.maxBytes ∧ b.lat.buf.length = C.par.maxBytes

/-- The range invariants of 10_state R36, with every emitted record sound. -/
abbrev Block.rangesOk (C : Cfg V) (b : Block V) : Prop :=
  b.arch.wr < C.par.n ∧
  b.arch.skip ≤ max C.par.skipInit (span C (8 * C.par.maxBytes)) ∧
  (b.arch.outLen = 0 ∨ (2 ≤ b.arch.outLen.toNat ∧ b.arch.outLen.toNat ≤ C.par.maxBytes)) ∧
  ∀ r ∈ b.arch.out, r.sound C

/-- The invariant of the block driven through its port. -/
abbrev Block.sound (C : Cfg V) (b : Block V) : Prop := b.memOk C ∧ b.rangesOk C

/-- A port command: what the hardware's own port can carry (30_encoding R71). -/
def Stimulus.isPort : Stimulus → Bool
  | .code (.port _) => true
  | _ => false

/-- The environment presents port commands only. -/
def State.portOnly (s : State) : Bool := s.input.all (fun x => x.item.isPort)

/-- Perform operations one after the other, stopping at the first that does not complete. -/
def execAll : List Instr → State → Host.Outcome State Fault Refusal
  | [], s => .next s
  | i :: is, s =>
    match exec i s with
    | .next t => execAll is t
    | .fault r => .fault r
    | .refused r => .refused r

/-- Sample pairs as operations. -/
def samples (ps : List (Byte × Byte)) : List Instr := ps.map (fun p => .sample p.1 p.2)

/-- Exact arithmetic over the rationals, "the ideal reading of every rule" (00_scope R12); `sqrt` and `log10` stay open. -/
structure ExactNum (n : Num ℚ) : Prop where
  ofInt : ∀ z : Int, n.ofInt z = (z : ℚ)
  add : ∀ x y, n.add x y = x + y
  sub : ∀ x y, n.sub x y = x - y
  mul : ∀ x y, n.mul x y = x * y
  div : ∀ x y, n.div x y = x / y
  gt : ∀ x y, n.gt x y = decide (y < x)
  lt : ∀ x y, n.lt x y = decide (x < y)

/-- The sum of the W oldest retained entries (42 R121, R123). -/
def windowSum (C : Cfg ℚ) (a : Arch ℚ) : ℚ := ((List.range C.par.w).map (readD C a)).sum

/-- A list of half-bit levels stands in the ring at the anchor: every high half-bit is sampled strictly above the
threshold, every low one strictly below (30_encoding R75, 43 R131). -/
def standsAtAnchor (C : Cfg V) (a : Arch V) (thr : V) (levels : List Bool) : Prop :=
  ∀ h level, levels[h]? = some level →
    C.num.gt (readD C a (pos C h)) thr = level ∧ C.num.lt (readD C a (pos C h)) thr = !level

/-- The half-bits from number `first` on are read as the given levels: above the threshold exactly where the level is
high (44 R142, 30_encoding R75). -/
def readsAs (C : Cfg V) (a : Arch V) (thr : V) (first : Nat) (levels : List Bool) : Prop :=
  ∀ h level, first ≤ h → levels[h]? = some level → above C (readD C a (pos C h)) thr = level

/-- The CRC register does not read 0 after any of the first `count` bytes, so that the decoder goes on (44 R148). -/
def noEarlyZero (C : Cfg V) (bytes : List Byte) (count : Nat) : Prop :=
  ∀ k, 0 < k → k ≤ count → crcBytes C.par.crcPoly C.par.crcInit (bytes.take k) ≠ 0

/-- The rational value of a finite binary64 datum. -/
def f64Value (x : F64) : ℚ := (if f64Sign x then -1 else 1) * (f64Mant x : ℚ) * (2 : ℚ) ^ (f64Scale x)

/-- Neither an infinity nor a NaN. -/
def f64Finite (x : F64) : Bool := decide (f64Exp x ≠ 2047)

/-- `r` is the exact value `v` rounded to nearest, ties to even (00_scope R12). From half a unit past the largest finite
datum on it is the infinity of `v`'s sign. Below that it is finite, no finite datum is nearer to `v`, and if another value
is as near then `r` is the even one: its significand's last bit, which is its word's last bit, is 0. -/
def f64Rounds (v : ℝ) (r : F64) : Prop :=
  (2 ^ 1024 - 2 ^ 970 ≤ |v| → (0 < v → r = f64Inf false) ∧ (v < 0 → r = f64Inf true)) ∧
  (|v| < 2 ^ 1024 - 2 ^ 970 → f64Finite r = true ∧ ∀ w : F64, f64Finite w = true →
    |(f64Value r : ℝ) - v| ≤ |(f64Value w : ℝ) - v| ∧
    (|(f64Value r : ℝ) - v| = |(f64Value w : ℝ) - v| → f64Value w = f64Value r ∨ r.toNat % 2 = 0))

end Sys2Proof.Machine
end

