-- ==== Sys2Proof/Certificates/Slice0/Obligations.lean ====
section
/-! DEFINITION. The statements for the provers, from the numbered rules of the spec. -/

open Sys2Proof Sys2Proof.Machine

/-! ### Encodings -/

/-- 30_encoding R71, R73, R76, R83: every operation's word, laid out in bytes, decodes to that operation with every
operand at every value. -/
def Obligations.DecodeInvertsEncodeInBytes : Prop :=
  ∀ i : Instr, decodeBytes i.format (encodeBytes i) = .ok i

/-- 30_encoding R81, R90; 93 U20: a word names an operation exactly when it is well formed, and no two words name the
same one. -/
def Obligations.EachWordNamesOneOperation : Prop :=
  (∀ c : Code, (∃ i, decode c = .ok i) ↔ c.wf = true) ∧
  (∀ (c : Code) (i : Instr), decode c = .ok i → encode i = c)

/-- 30_encoding R72: the four commands as match and mask over the command word; `din` is its low byte. -/
def Obligations.PortWordsByMatchAndMask : Prop :=
  ∀ cw : BitVec 10,
    (cw &&& 0x300#10 = 0x000#10 ↔ decodePort cw = .nop (cw.setWidth 8)) ∧
    (cw &&& 0x300#10 = 0x100#10 ↔ decodePort cw = .byte (cw.setWidth 8)) ∧
    (cw &&& 0x300#10 = 0x200#10 ↔ decodePort cw = .eos (cw.setWidth 8)) ∧
    (cw &&& 0x300#10 = 0x300#10 ↔ decodePort cw = .reset (cw.setWidth 8))

/-- Words written out from the spec: the command words of 95 §2.10, the first sample of P0-1, the symbols of R76 and
three stage labels of R83. -/
def Obligations.SpecWordsDecode : Prop :=
  decode (.port 0x1E4#10) = .ok (.byte 228) ∧ decode (.port 0x0FF#10) = .ok (.nop 255) ∧
  decode (.port 0x200#10) = .ok (.eos 0) ∧ decode (.port 0x300#10) = .ok (.reset 0) ∧
  decode (.pair 0xDCA6#16) = .ok (.sample 220 166) ∧
  decode (.sym 0b10#2) = .ok .symHL ∧ decode (.sym 0b01#2) = .ok .symLH ∧
  decode (.stage 0b00001#5) = .ok .center ∧ decode (.stage 0b01100#5) = .ok .corr ∧
  decode (.stage 0b10101#5) = .ok .skipSet ∧ decode (.stage 0#5) = .error (.noSuchSlot 0)

/-! ### The transition -/

/-- 46 R173: one transition takes the oldest transaction, puts its `now` on the input, and performs the decoded
operation completely; the transactions behind it stay. -/
def Obligations.StepRunsDecodedOperation : Prop :=
  ∀ (s : State) (c : Code) (now : BitVec 64) (rest : List Xact) (i : Instr),
    s.input = ⟨.code c, now⟩ :: rest → decode c = .ok i →
    step s = exec i { s with input := rest, now := now }

/-- The other transitions. With no transaction presented the block holds its state (log 9). The test-bench entry PUSH is
`RingStep` on the given value and magnitude (46 R179), with RUN = 0 too (log 10): it leaves the filters, IP and QP as they
are, and PHASE, IHOLD and RUN, and it does not clear OUT_VALID (log 10). A STAGE label that names no operation is refused
by name (log 12). -/
def Obligations.StepWithoutAnOperation : Prop :=
  (∀ s : State, s.input = [] → step s = .next s) ∧
  (∀ (s : State) (d g : F64) (now : BitVec 64) (rest : List Xact) (b' : Block F64) (o : StepOutcome),
    s.input = ⟨.push d g, now⟩ :: rest →
    ringStep cfg now { s.blk with lat.d := d, lat.mag := g } = (b', o) →
    step s = .next { s with input := rest, now := now, blk := b', label := .outcome o } ∧
    b'.arch.fi = s.blk.arch.fi ∧ b'.arch.fq = s.blk.arch.fq ∧ b'.arch.fd = s.blk.arch.fd ∧
    b'.arch.ip = s.blk.arch.ip ∧ b'.arch.qp = s.blk.arch.qp ∧
    b'.arch.phase = s.blk.arch.phase ∧ b'.arch.ihold = s.blk.arch.ihold ∧ b'.arch.run = s.blk.arch.run ∧
    (o ≠ .frame → b'.arch.outValid = s.blk.arch.outValid)) ∧
  (∀ (s : State) (slot : BitVec 5) (now : BitVec 64) (rest : List Xact), s.input = ⟨.code (.stage slot), now⟩ :: rest →
    (Code.stage slot).wf = false → step s = .refused (.noSuchSlot slot))

/-- A word of the opcode table, given with its row's width or in whole bytes, is what the next transition runs. Two
formats share each container; the words the model gives to the other format are left out (log 12). -/
def Obligations.PlacedWordRunsNext : Prop :=
  ∀ (i : Instr) (s : State) (nbits w : Nat), w = (encode i).toNat →
    nbits = i.format.width ∨ nbits = 8 * i.format.bytes →
    (i.format = .pair → 2 ^ 10 ≤ w) → (i.format = .stage → nbits = 8 → 2 ^ 2 ≤ w) →
    decodeTableWord nbits w = some i ∧ step (s.withFetchWord nbits w) = exec i s

/-- 60 R190: nothing is raised, whatever the operation and the state. R190 says so of command words in states that meet
10_state R36; that the STAGE and SYM rows run alone, and complete where LEN points outside BUF, is the model's choice
(logs 7 and 11). -/
def Obligations.EveryOperationCompletes : Prop :=
  ∀ (i : Instr) (s : State), ∃ t, exec i s = .next t

/-! ### Parameters and reset -/

/-- 00_scope R7: "P0 satisfies all"; "T1 satisfies all". -/
def Obligations.ProfilesAreConfigurations : Prop :=
  (Config.p0 num64).wf num64 = true ∧ (Config.t1 num64).wf num64 = true

/-- 20_memory R55: in a legal configuration every offset a rule passes to RingRead is below N. -/
def Obligations.OffsetsStayBelowCapacity : Prop :=
  ∀ (V : Type) (C : Cfg V),
    (∀ h, h < 20 → pos C h ≤ C.par.symOfs + 19 * C.par.sph ∧ pos C h < C.par.n) ∧
    (∀ j, j < 8 * C.par.maxBytes →
      secondHalfOfs C j = firstHalfOfs C j + C.par.sph ∧
      secondHalfOfs C j ≤ C.par.symOfs + (2 * C.par.preBits + 16 * C.par.maxBytes - 1) * C.par.sph ∧
      secondHalfOfs C j < C.par.n) ∧
    C.par.w - 1 < C.par.n ∧
    (∀ nbits, nbits ≤ 8 * C.par.maxBytes → ∀ j, j < span C nbits →
      C.par.rssiOfs + j ≤ C.par.rssiOfs + (C.par.preBits + 8 * C.par.maxBytes) * C.par.spb - 1 ∧
      C.par.rssiOfs + j < C.par.n)

/-- 30_encoding R78: the two correlator tables have ten entries each, partition 0..19, and put the high half of each
preamble bit where the symbol coding of data bits does; for the default pattern they are the listed ones. -/
def Obligations.TablesPartitionThePreamble : Prop :=
  (∀ (V : Type) (p : Params V), p.preSyms = 20 → p.preamble.length = 10 →
    (hiPos p).length = 10 ∧ (loPos p).length = 10 ∧ (hiPos p).Pairwise (· < ·) ∧ (loPos p).Pairwise (· < ·) ∧
    (∀ h, h < 20 → (h ∈ hiPos p ↔ h ∉ loPos p)) ∧
    (∀ j bit, p.preamble[j]? = some bit →
      if bit = p.manOneIsHl then 2 * j ∈ hiPos p ∧ 2 * j + 1 ∈ loPos p else 2 * j ∈ loPos p ∧ 2 * j + 1 ∈ hiPos p)) ∧
  hiPos cfg.par = [0, 2, 4, 6, 9, 10, 13, 14, 17, 18] ∧ loPos cfg.par = [1, 3, 5, 7, 8, 11, 12, 15, 16, 19]

/-- 10_state R35: the state at power-on. The step-local registers, "unspecified" there, are left out. -/
def Obligations.PowerOnState : Prop :=
  State.reset.blk.arch =
    { fi := ⟨⟨0, 0, 0, 0, 0⟩, ⟨0, 0, 0, 0, 0⟩⟩, fq := ⟨⟨0, 0, 0, 0, 0⟩, ⟨0, 0, 0, 0, 0⟩⟩,
      fd := ⟨⟨0, 0, 0, 0, 0⟩, ⟨0, 0, 0, 0, 0⟩⟩, ip := 0, qp := 0, dring := [], mring := [], wr := 0, sum := 0,
      skip := 8192, phase := false, ihold := 0, run := true, outValid := false, outLen := 0,
      outData := List.replicate 29 0, outRssi := 0, outTime := 0, out := [] } ∧
  (∀ k, Memory.read cfg.zero State.reset.blk.arch.dring k = cfg.zero ∧
    Memory.read cfg.zero State.reset.blk.arch.mring k = cfg.zero) ∧
  cfg.zero = 0

/-! ### Port commands -/

/-- 46 R175: RESET establishes the reset state in every state, also when RUN = 0. The step-local registers are left out
(log 6); the environment's transactions and input stay (log 15). -/
def Obligations.ResetRestoresPowerOn : Prop :=
  ∀ (din : Byte) (s : State), ∃ t, exec (.reset din) s = .next t ∧
    t.blk.arch = State.reset.blk.arch ∧ t.input = s.input ∧ t.now = s.now

/-- 46 R170: NOP clears OUT_VALID and changes nothing else. -/
def Obligations.NopOnlyClearsOutValid : Prop :=
  ∀ (din : Byte) (s : State),
    exec (.nop din) s = .next { s with blk.arch.outValid := false, label := .plain }

/-- 46 R174: EOS clears RUN and OUT_VALID and changes nothing else; no step is taken. -/
def Obligations.EosStopsTheStream : Prop :=
  ∀ (din : Byte) (s : State),
    exec (.eos din) s = .next { s with blk.arch.outValid := false, blk.arch.run := false, label := .plain }

/-- 46 R171: BYTE in its three cases: ignored after EOS; latched as an I byte; or the Q byte of a step. -/
def Obligations.ByteCommandCases : Prop :=
  ∀ (din : Byte) (s : State),
    (s.blk.arch.run = false →
      exec (.byte din) s = .next { s with blk.arch.outValid := false, label := .ignored }) ∧
    (s.blk.arch.run = true → s.blk.arch.phase = false →
      exec (.byte din) s = .next { s with
        blk.arch.outValid := false, blk.arch.ihold := din, blk.arch.phase := true, label := .latched }) ∧
    (s.blk.arch.run = true → s.blk.arch.phase = true →
      ∀ r, r = pairStep cfg s.now
          { arch := { s.blk.arch with outValid := false, phase := false }, lat := { s.blk.lat with qin := din } } →
      exec (.byte din) s = .next { s with blk := r.1, label := .outcome r.2 })

/-- 46 R172: SAMPLE I Q is BYTE I followed by BYTE Q; with PHASE = 0 (and RUN = 1) it performs exactly one step,
Step(I, Q, now). -/
def Obligations.SampleIsTwoBytes : Prop :=
  (∀ (i q : Byte) (s : State), ∃ u t, exec (.byte i) s = .next u ∧ exec (.byte q) u = .next t ∧
    exec (.sample i q) s = .next t) ∧
  (∀ (i q : Byte) (s : State), s.blk.arch.run = true → s.blk.arch.phase = false →
    ∀ r, r = pairStep cfg s.now
        { arch := { s.blk.arch with outValid := false, ihold := i, phase := false },
          lat := { s.blk.lat with qin := q } } →
    exec (.sample i q) s = .next { s with blk := r.1, label := .outcome r.2 })

/-- 46 R174, R176: while RUN = 0, any sequence of port commands without RESET takes no step and changes nothing but
OUT_VALID. -/
def Obligations.HaltedUntilReset : Prop :=
  ∀ (is : List Instr) (s : State), s.blk.arch.run = false →
    (∀ i ∈ is, (∃ d, i = .nop d) ∨ (∃ d, i = .byte d) ∨ (∃ d, i = .eos d) ∨ (∃ a b, i = .sample a b)) →
    ∃ t, execAll is s = .next t ∧ t.blk.lat = s.blk.lat ∧ t.input = s.input ∧
      t.blk.arch = { s.blk.arch with outValid := if is = [] then s.blk.arch.outValid else false }

/-! ### Stage operations: what each writes, and that it writes nothing else -/

/-- 40 R100: CENTER subtracts the bias from both bytes as integers and writes no state. -/
def Obligations.CenterSubtractsTheBias : Prop :=
  ∀ s : State, exec .center s = .next { s with
    blk.lat.xi := cfg.num.ofInt ((s.blk.arch.ihold.toNat : Int) - 128),
    blk.lat.xq := cfg.num.ofInt ((s.blk.lat.qin.toNat : Int) - 128), label := .plain }

/-- 40 R101: the filter step, every operator one NUM operation in the order written, for every NUM, every coefficient
set and every register file. -/
def Obligations.FilterStepOrder : Prop :=
  ∀ (V : Type) (n : Num V) (b : FwdCoef V) (a : BackCoef V) (x y : Hist V) (u out : V),
    out = n.sub (n.sub (n.sub (n.sub
        (n.add (n.add (n.add (n.add (n.mul b.c0 u) (n.mul b.c1 x.h0)) (n.mul b.c2 x.h1)) (n.mul b.c3 x.h2)) (n.mul b.c4 x.h3))
        (n.mul a.c1 y.h0)) (n.mul a.c2 y.h1)) (n.mul a.c3 y.h2)) (n.mul a.c4 y.h3) →
    lpfOut n b a ⟨x, y⟩ u = out ∧
    lpfNext n b a ⟨x, y⟩ u = ⟨⟨u, x.h0, x.h1, x.h2, x.h3⟩, ⟨out, y.h0, y.h1, y.h2, y.h3⟩⟩

/-- 40 R104, R105: LPF.I and LPF.Q run the filter step on their own register file with the same coefficients, and write
nothing else. -/
def Obligations.ConditionerFilters : Prop :=
  ∀ s : State,
    exec .lpfI s = .next { s with
      blk.arch.fi := lpfNext cfg.num (Config.iqB cfg.num) (Config.iqA cfg.num) s.blk.arch.fi s.blk.lat.xi,
      blk.lat.i := lpfOut cfg.num (Config.iqB cfg.num) (Config.iqA cfg.num) s.blk.arch.fi s.blk.lat.xi,
      label := .plain } ∧
    exec .lpfQ s = .next { s with
      blk.arch.fq := lpfNext cfg.num (Config.iqB cfg.num) (Config.iqA cfg.num) s.blk.arch.fq s.blk.lat.xq,
      blk.lat.q := lpfOut cfg.num (Config.iqB cfg.num) (Config.iqA cfg.num) s.blk.arch.fq s.blk.lat.xq,
      label := .plain }

/-- 41 R111, R112: MAG and DISC, which write no state but their results. -/
def Obligations.MagnitudeAndDeviation : Prop :=
  ∀ s : State,
    exec .mag s = .next { s with
      blk.lat.mag := f64Add (f64Mul s.blk.lat.i s.blk.lat.i) (f64Mul s.blk.lat.q s.blk.lat.q), label := .plain } ∧
    exec .disc s = .next { s with
      blk.lat.dev := f64Div
        (f64Sub (f64Mul s.blk.lat.i (f64Sub s.blk.lat.q s.blk.arch.qp))
          (f64Mul s.blk.lat.q (f64Sub s.blk.lat.i s.blk.arch.ip)))
        (f64Add s.blk.lat.mag cfg.par.eps), label := .plain }

/-- 41 R115, R116: LPF.D filters the scaled deviation into the Demodulated Value; PREV makes the current pair the
previous one. Neither writes anything else. -/
def Obligations.PostFilterAndPrevious : Prop :=
  ∀ s : State,
    exec .lpfD s = .next { s with
      blk.arch.fd := lpfNext cfg.num (Config.fmB cfg.num) (Config.fmA cfg.num) s.blk.arch.fd
        (f64Mul cfg.par.discGain s.blk.lat.dev),
      blk.lat.d := lpfOut cfg.num (Config.fmB cfg.num) (Config.fmA cfg.num) s.blk.arch.fd
        (f64Mul cfg.par.discGain s.blk.lat.dev),
      label := .plain } ∧
    exec .prev s = .next { s with blk.arch.ip := s.blk.lat.i, blk.arch.qp := s.blk.lat.q, label := .plain }

/-- 42 R120, 20_memory R53: RING.PUSH keeps the entry at WR for THR.UPD, overwrites that entry of each ring, and advances
the cursor with wrap-around. Every other slot of both rings reads as before, and no other register changes. -/
def Obligations.RingPushWritesOneSlot : Prop :=
  ∀ s : State, Memory.wf cfg.zero s.blk.arch.dring → Memory.wf cfg.zero s.blk.arch.mring →
    ∃ t, exec .ringPush s = .next t ∧
      t.blk.lat = { s.blk.lat with old := Memory.read cfg.zero s.blk.arch.dring s.blk.arch.wr } ∧
      t.blk.arch.wr = (s.blk.arch.wr + 1) % 8192 ∧
      Memory.read cfg.zero t.blk.arch.dring s.blk.arch.wr = s.blk.lat.d ∧
      Memory.read cfg.zero t.blk.arch.mring s.blk.arch.wr = s.blk.lat.mag ∧
      (∀ k, k ≠ s.blk.arch.wr →
        Memory.read cfg.zero t.blk.arch.dring k = Memory.read cfg.zero s.blk.arch.dring k ∧
        Memory.read cfg.zero t.blk.arch.mring k = Memory.read cfg.zero s.blk.arch.mring k) ∧
      t.blk.arch = { s.blk.arch with dring := t.blk.arch.dring, mring := t.blk.arch.mring, wr := t.blk.arch.wr } ∧
      t.input = s.input ∧ t.now = s.now

/-- 20_memory R51: after a push the newest entry is at offset N − 1, and the entry that was at offset off + 1 is at offset
off, for both rings, in every configuration. -/
def Obligations.PushAgesEveryEntry : Prop :=
  ∀ (V : Type) [DecidableEq V] (C : Cfg V) (b : Block V), b.arch.wr < C.par.n →
    Memory.wf C.zero b.arch.dring → Memory.wf C.zero b.arch.mring →
    readD C (opRingPush C b).arch (C.par.n - 1) = b.lat.d ∧
    readM C (opRingPush C b).arch (C.par.n - 1) = b.lat.mag ∧
    (opRingPush C b).lat.old = readD C b.arch 0 ∧
    ∀ off, off + 1 < C.par.n →
      readD C (opRingPush C b).arch off = readD C b.arch (off + 1) ∧
      readM C (opRingPush C b).arch off = readM C b.arch (off + 1)

/-- 42 R123: in exact arithmetic SUM is the sum of the W oldest retained entries, in every legal configuration: the
reset state has it; RING.PUSH with THR.UPD keeps it, and so does a whole step, from every state with memories in form, and
both keep the memories in form, so that it holds after any number of steps. -/
def Obligations.SumIsTheWindowSum : Prop :=
  ∀ C : Cfg ℚ, ExactNum C.num →
    ((Block.reset C).memOk C ∧ (Block.reset C).arch.sum = windowSum C (Block.reset C).arch) ∧
    ∀ b : Block ℚ, b.memOk C → b.arch.sum = windowSum C b.arch →
      ((ringUpdate C b).memOk C ∧ (ringUpdate C b).arch.sum = windowSum C (ringUpdate C b).arch) ∧
      ∀ (now : BitVec 64) (b' : Block ℚ) (o : StepOutcome), pairStep C now b = (b', o) →
        b'.memOk C ∧ b'.arch.sum = windowSum C b'.arch

/-- 42 R124: SKIP.TICK decrements a nonzero SKIP and ends the step as SKIPPED; with SKIP = 0 it changes nothing. -/
def Obligations.SkipTickGates : Prop :=
  ∀ s : State,
    (s.blk.arch.skip ≠ 0 →
      exec .skipTick s = .next { s with blk.arch.skip := s.blk.arch.skip - 1, label := .outcome .skipped }) ∧
    (s.blk.arch.skip = 0 → exec .skipTick s = .next { s with label := .plain })

/-- 42 R122: THR.UPD subtracts the value leaving the window, then adds the value entering it, and writes SUM alone.
43 R130: THR.DIV computes SUM / W into the step-local threshold and writes no state. -/
def Obligations.ThresholdUpdateAndDivision : Prop :=
  ∀ s : State,
    exec .thrUpd s = .next { s with
      blk.arch.sum := f64Add (f64Sub s.blk.arch.sum s.blk.lat.old) (readD cfg s.blk.arch 1087), label := .plain } ∧
    exec .thrDiv s = .next { s with
      blk.lat.thr := f64Div s.blk.arch.sum (f64OfInt 1088), label := .plain }

/-- 43 R132, R133: CORR matches exactly when every high position reads strictly above and every low position strictly
below the threshold; either way it changes no state. -/
def Obligations.CorrelatorVerdict : Prop :=
  ∀ s : State,
    ((∀ h ∈ [0, 2, 4, 6, 9, 10, 13, 14, 17, 18], f64Gt (readD cfg s.blk.arch (h * 16)) s.blk.lat.thr = true) ∧
        (∀ h ∈ [1, 3, 5, 7, 8, 11, 12, 15, 16, 19], f64Lt (readD cfg s.blk.arch (h * 16)) s.blk.lat.thr = true) →
      exec .corr s = .next { s with label := .plain }) ∧
    (¬ ((∀ h ∈ [0, 2, 4, 6, 9, 10, 13, 14, 17, 18], f64Gt (readD cfg s.blk.arch (h * 16)) s.blk.lat.thr = true) ∧
        (∀ h ∈ [1, 3, 5, 7, 8, 11, 12, 15, 16, 19], f64Lt (readD cfg s.blk.arch (h * 16)) s.blk.lat.thr = true)) →
      exec .corr s = .next { s with label := .outcome .noMatch })

/-- 43 R132 (a), (b): twenty equal values match no threshold, and a NaN threshold or a NaN at one of the twenty
positions fails. -/
def Obligations.FlatOrNanNeverMatches : Prop :=
  ∀ s : State,
    ((∃ v, ∀ h, h < 20 → readD cfg s.blk.arch (pos cfg h) = v) ∨ f64IsNan s.blk.lat.thr = true ∨
      (∃ h, h < 20 ∧ f64IsNan (readD cfg s.blk.arch (pos cfg h)) = true)) →
    exec .corr s = .next { s with label := .outcome .noMatch }

/-- 44 R140: DEC.INIT starts a candidate frame and writes nothing else. -/
def Obligations.DecodeInit : Prop :=
  ∀ s : State, exec .decInit s = .next { s with
    blk.lat.crc := 0xFFFF#16, blk.lat.nbits := 0, blk.lat.cur := 0, blk.lat.len := 0, label := .plain }

/-- 44 R141, R142, R143: MAN.BIT classifies the two half-bits of bit NBITS and decodes the symbol they form, in every
configuration. In profile P0: equal classes end the step as DESYNC, otherwise the first class is the bit and NBITS counts
it. Nothing else is written. -/
def Obligations.ManchesterBit : Prop :=
  (∀ (V : Type) (C : Cfg V) (b : Block V) (o1 : Nat),
    o1 = C.par.symOfs + (2 * C.par.preBits + 2 * b.lat.nbits) * C.par.sph →
    opManBit C b =
      opSymbol C (C.num.gt (readD C b.arch o1) b.lat.thr) (C.num.gt (readD C b.arch (o1 + C.par.sph)) b.lat.thr) b) ∧
  ∀ (s : State) (m1 m2 : Bool),
    m1 = f64Gt (readD cfg s.blk.arch ((20 + 2 * s.blk.lat.nbits) * 16)) s.blk.lat.thr →
    m2 = f64Gt (readD cfg s.blk.arch ((20 + 2 * s.blk.lat.nbits) * 16 + 16)) s.blk.lat.thr →
    (m1 = m2 → exec .manBit s = .next { s with
      blk.lat.m1 := m1, blk.lat.m2 := m2, label := .outcome .desync }) ∧
    (m1 ≠ m2 → exec .manBit s = .next { s with
      blk.lat.m1 := m1, blk.lat.m2 := m2, blk.lat.bit := m1, blk.lat.nbits := s.blk.lat.nbits + 1, label := .plain })

/-- 30_encoding R76, 44 R144: the four symbols, in both polarities. A pair without a transition is a Manchester desync;
otherwise the bit is the class of the first half with MAN_ONE_IS_HL = 1, and of the second half with 0. That a symbol
writes the bit register and counts NBITS is MAN.BIT's effect (44 R143); that a SYM code runs alone with that effect is
the model's choice (log 7). -/
def Obligations.SymbolsDecode : Prop :=
  (∀ (V : Type) (C : Cfg V) (b : Block V) (m1 m2 : Bool),
    (m1 = m2 → opSymbol C m1 m2 b = ({ b with lat.m1 := m1, lat.m2 := m2 }, some .desync)) ∧
    (m1 ≠ m2 → opSymbol C m1 m2 b =
      ({ b with
         lat.m1 := m1, lat.m2 := m2, lat.bit := if C.par.manOneIsHl = true then m1 else m2,
         lat.nbits := b.lat.nbits + 1 }, none))) ∧
  ∀ s : State,
    exec .symHL s = .next { s with
      blk.lat.m1 := true, blk.lat.m2 := false, blk.lat.bit := true, blk.lat.nbits := s.blk.lat.nbits + 1,
      label := .plain } ∧
    exec .symLH s = .next { s with
      blk.lat.m1 := false, blk.lat.m2 := true, blk.lat.bit := false, blk.lat.nbits := s.blk.lat.nbits + 1,
      label := .plain } ∧
    exec .symLL s = .next { s with blk.lat.m1 := false, blk.lat.m2 := false, label := .outcome .desync } ∧
    exec .symHH s = .next { s with blk.lat.m1 := true, blk.lat.m2 := true, label := .outcome .desync }

/-- 44 R145: BYTE.ACC shifts the bit in from the right, so that the older bits move up by one; at a byte boundary, with
LEN inside the buffer, the byte is stored at LEN and every other byte of the buffer is as before. -/
def Obligations.ByteAccumulate : Prop :=
  ∀ (s : State) (cur : Byte),
    cur.getLsbD 0 = s.blk.lat.bit → (∀ k, k < 7 → cur.getLsbD (k + 1) = s.blk.lat.cur.getLsbD k) →
    (s.blk.lat.nbits % 8 ≠ 0 → exec .byteAcc s = .next { s with blk.lat.cur := cur, label := .plain }) ∧
    (s.blk.lat.nbits % 8 = 0 → s.blk.lat.len.toNat < s.blk.lat.buf.length →
      ∃ buf, exec .byteAcc s = .next { s with
          blk.lat.cur := cur, blk.lat.buf := buf, blk.lat.len := s.blk.lat.len + 1, label := .plain } ∧
        buf.length = s.blk.lat.buf.length ∧ buf[s.blk.lat.len.toNat]? = some cur ∧
        ∀ k, k ≠ s.blk.lat.len.toNat → buf[k]? = s.blk.lat.buf[k]?)

/-- 44 R147: CRC.UPD on the byte just completed: the byte is folded into the high half and the register is shifted eight
times, the bit shifted out tested first. Nothing else is written. -/
def Obligations.CrcUpdate : Prop :=
  ∀ (s : State) (byte : Byte), s.blk.lat.len ≠ 0 → s.blk.lat.buf[s.blk.lat.len.toNat - 1]? = some byte →
    exec .crcUpd s = .next { s with
      blk.lat.crc := (fun r : BitVec 16 => if r.getLsbD 15 then (r <<< 1) ^^^ 0x1021#16 else r <<< 1)^[8]
        (s.blk.lat.crc ^^^ (byte.setWidth 16 <<< 8)),
      label := .plain }

/-- 44 R149 (e): for any register and any polynomial, appending the register value, high byte then low byte, brings the
register to 0. -/
def Obligations.AppendedRegisterGivesZero : Prop :=
  ∀ (poly r : BitVec 16) (payload : List Byte),
    crcBytes poly r
      (payload ++ [(crcBytes poly r payload).extractLsb' 8 8, (crcBytes poly r payload).extractLsb' 0 8]) = 0

/-- 44 R149 (b), (c): no single byte takes the register from 0xFFFF to 0, and the only two bytes that do are FF FF. -/
def Obligations.ShortestFrameIsFFFF : Prop :=
  (∀ a : Byte, crcBytes 0x1021#16 0xFFFF#16 [a] ≠ 0) ∧
  (∀ a b : Byte, crcBytes 0x1021#16 0xFFFF#16 [a, b] = 0 ↔ a = 0xFF#8 ∧ b = 0xFF#8)

/-- 44 R148: LEN.CHK tests for zero first, then for MAX_BYTES = 29 bytes, and writes no state. -/
def Obligations.LengthCheck : Prop :=
  ∀ s : State,
    (s.blk.lat.crc = 0 → exec .lenChk s = .next { s with label := .crcZero }) ∧
    (s.blk.lat.crc ≠ 0 → s.blk.lat.len = 29#5 → exec .lenChk s = .next { s with label := .outcome .overlen }) ∧
    (s.blk.lat.crc ≠ 0 → s.blk.lat.len ≠ 29#5 → exec .lenChk s = .next { s with label := .plain })

/-- 45 R160: RSSI from the amplitudes of the `span` entries of MRING from the anchor on, summed in ascending order
from zero; it writes no state. The value of `log10` is free but at zero (log 4): a window of zero amplitudes gives minus
infinity, and the operation completes all the same. -/
def Obligations.SignalLevel : Prop :=
  ∀ (s : State) (count : Nat) (total : F64), count = (10 + s.blk.lat.nbits) * 32 →
    total = (List.range count).foldl (fun acc j => f64Add acc (f64Sqrt (readM cfg s.blk.arch j))) (f64OfInt 0) →
    exec .rssi s = .next { s with
      blk.lat.rssi := f64Mul (f64OfInt 20)
        (f64Log10 (f64Div (f64Sqrt (f64Div total (f64OfInt count))) (f64OfInt 1))),
      label := .plain } ∧
    (f64IsZero total = true → s.blk.lat.nbits ≤ 232 →
      exec .rssi s = .next { s with blk.lat.rssi := f64Inf true, label := .plain })

/-- 45 R163: TSTAMP is `now` less LATENCY_US = 5120, modulo 2^64, for every value of `now`; it writes no state. -/
def Obligations.Timestamp : Prop :=
  ∀ s : State, ∃ time : BitVec 64,
    (time.toNat : Int) = ((s.now.toNat : Int) - 5120) % 2 ^ 64 ∧
    exec .tstamp s = .next { s with blk.lat.time := time, label := .plain }

/-- 45 R165: EMIT appends one record and loads the output registers; OUT_DATA past the frame keeps its content. It writes
nothing else. -/
def Obligations.EmitRecord : Prop :=
  ∀ (s : State) (frame : List Byte), frame.length = s.blk.lat.len.toNat → frame <+: s.blk.lat.buf →
    s.blk.lat.len.toNat ≤ s.blk.arch.outData.length →
    ∃ data, exec .emit s = .next { s with
        blk.arch.out := s.blk.arch.out ++ [⟨s.blk.lat.len, frame, s.blk.lat.time, s.blk.lat.rssi⟩],
        blk.arch.outLen := s.blk.lat.len, blk.arch.outData := data, blk.arch.outTime := s.blk.lat.time,
        blk.arch.outRssi := s.blk.lat.rssi, blk.arch.outValid := true, label := .plain } ∧
      (∀ k, k < s.blk.lat.len.toNat → data[k]? = frame[k]?) ∧
      (∀ k, s.blk.lat.len.toNat ≤ k → data[k]? = s.blk.arch.outData[k]?)

/-- 44 R150: SKIP.SET loads SKIP with the span of the consumed frame and writes nothing else. -/
def Obligations.SkipSetSpan : Prop :=
  ∀ s : State, exec .skipSet s = .next { s with
    blk.arch.skip := (10 + s.blk.lat.nbits) * 32, label := .plain }

/-- Outside their schedule too (logs 7, 11) BYTE.ACC, CRC.UPD and EMIT complete: in every state, whatever LEN is, they
leave the rings, the filters and the sequencing registers as they are. -/
def Obligations.CandidateOperationsAlwaysComplete : Prop :=
  ∀ s : State, ∃ t u v, exec .byteAcc s = .next t ∧ exec .crcUpd s = .next u ∧ exec .emit s = .next v ∧
    t.blk.arch = s.blk.arch ∧ u.blk.arch = s.blk.arch ∧
    v.blk.arch = { s.blk.arch with
      out := v.blk.arch.out, outLen := v.blk.arch.outLen, outData := v.blk.arch.outData, outTime := v.blk.arch.outTime,
      outRssi := v.blk.arch.outRssi, outValid := true } ∧
    (∃ r, v.blk.arch.out = s.blk.arch.out ++ [r]) ∧ v.blk.lat = s.blk.lat

/-- 10_state R20, column "written by": an internal operation or symbol leaves every architectural register it is not
named for as it was, and leaves the environment's inputs alone. -/
def Obligations.OneWriterPerRegister : Prop :=
  ∀ (i : Instr) (s t : State), i.format = .stage ∨ i.format = .sym → exec i s = .next t →
    (i ≠ .lpfI → t.blk.arch.fi = s.blk.arch.fi) ∧ (i ≠ .lpfQ → t.blk.arch.fq = s.blk.arch.fq) ∧
    (i ≠ .lpfD → t.blk.arch.fd = s.blk.arch.fd) ∧
    (i ≠ .prev → t.blk.arch.ip = s.blk.arch.ip ∧ t.blk.arch.qp = s.blk.arch.qp) ∧
    (i ≠ .ringPush → t.blk.arch.dring = s.blk.arch.dring ∧ t.blk.arch.mring = s.blk.arch.mring ∧
      t.blk.arch.wr = s.blk.arch.wr) ∧
    (i ≠ .thrUpd → t.blk.arch.sum = s.blk.arch.sum) ∧
    (i ≠ .skipTick → i ≠ .skipSet → t.blk.arch.skip = s.blk.arch.skip) ∧
    t.blk.arch.phase = s.blk.arch.phase ∧ t.blk.arch.ihold = s.blk.arch.ihold ∧ t.blk.arch.run = s.blk.arch.run ∧
    (i ≠ .emit → t.blk.arch.outValid = s.blk.arch.outValid ∧ t.blk.arch.outLen = s.blk.arch.outLen ∧
      t.blk.arch.outData = s.blk.arch.outData ∧ t.blk.arch.outRssi = s.blk.arch.outRssi ∧
      t.blk.arch.outTime = s.blk.arch.outTime ∧ t.blk.arch.out = s.blk.arch.out) ∧
    t.input = s.input ∧ t.now = s.now

/-! ### The step as a whole -/

/-- 46 R177: performing slots 1 to 9 one after the other as operations of their own is the front of the step: the same
block, and nothing else changed but the label. -/
def Obligations.FrontOfStepIsItsOperations : Prop :=
  ∀ s : State, ∃ t,
    execAll [.center, .lpfI, .lpfQ, .mag, .disc, .lpfD, .prev, .ringPush, .thrUpd] s = .next t ∧
    t = { s with blk := ringUpdate cfg (frontEnd cfg s.blk), label := .plain }

/-- 44 R152, 60 R191, R193, R194, R197: how the back half of a step ends, and what the silent ends leave. After NO_MATCH,
DESYNC or OVERLEN the persistent state is exactly what slots 8 to 10 left: SKIP is still 0, nothing is emitted. A step is
SKIPPED exactly when SKIP was not 0, and NO_MATCH exactly when it was 0 and a preamble test failed on the ring with
thr = SUM / W. DESYNC and OVERLEN come after a match: at the first bit whose halves are of one class, or after MAX_BYTES
bytes, with no zero of the CRC register over the bytes the ring reads until then. -/
def Obligations.AbandonLeavesNothing : Prop :=
  ∀ (V : Type) [DecidableEq V] (C : Cfg V) (now : BitVec 64) (b b' : Block V) (o : StepOutcome) (a : Arch V) (thr : V),
    a = (ringUpdate C b).arch → thr = C.num.div a.sum (C.num.ofInt C.par.w) → ringStep C now b = (b', o) →
    (o = .noMatch ∨ o = .desync ∨ o = .overlen → b.arch.skip = 0 ∧ b'.arch = a) ∧
    (o = .skipped ↔ b.arch.skip ≠ 0) ∧
    (o = .noMatch ↔ b.arch.skip = 0 ∧ preambleMatches C a thr = false) ∧
    (o = .desync → b.memOk C → preambleMatches C a thr = true ∧
      ∃ (j : Nat) (bytes : List Byte), j < 8 * C.par.maxBytes ∧ bytes.length = j / 8 ∧
        readsAs C a thr 20 (airLevels C.par bytes) ∧ noEarlyZero C bytes (j / 8) ∧
        above C (readD C a (firstHalfOfs C j)) thr = above C (readD C a (secondHalfOfs C j)) thr ∧
        ∀ k, k < j →
          above C (readD C a (firstHalfOfs C k)) thr ≠ above C (readD C a (secondHalfOfs C k)) thr) ∧
    (o = .overlen → b.memOk C → preambleMatches C a thr = true ∧
      ∃ bytes : List Byte, bytes.length = C.par.maxBytes ∧ readsAs C a thr 20 (airLevels C.par bytes) ∧
        noEarlyZero C bytes C.par.maxBytes)

/-- 60 R191, R197, 43 R132, 44 R150, R151, 45 R165: a FRAME step found SKIP = 0 and the preamble at the anchor, with
thr = SUM / W; it appends exactly one record, whose bytes are those whose half-bits the ring reads from the anchor on, up
to the first zero of the CRC register; it presents the record in the output registers with OUT_VALID = 1, sets SKIP to the
span of its bytes, and changes nothing else beyond slots 8 to 10. -/
def Obligations.FrameEmitsOneRecord : Prop :=
  ∀ (now : BitVec 64) (b b' : Block F64) (a : Arch F64) (thr : F64),
    a = (ringUpdate cfg b).arch → thr = f64Div a.sum (f64OfInt 1088) →
    b.memOk cfg → ringStep cfg now b = (b', .frame) →
    b.arch.skip = 0 ∧ preambleMatches cfg a thr = true ∧ ∃ r : Record F64, ∃ data : List Byte, r.sound cfg ∧
      readsAs cfg a thr 0 (airLevels cfg.par r.data) ∧ noEarlyZero cfg r.data (r.len.toNat - 1) ∧
      r.time = now - 5120#64 ∧ r.rssi = signalLevel cfg a (8 * r.len.toNat) ∧
      data = r.data ++ b.arch.outData.drop r.len.toNat ∧
      b'.arch = { a with
        out := b.arch.out ++ [r], outLen := r.len, outData := data, outTime := r.time, outRssi := r.rssi,
        outValid := true, skip := (10 + 8 * r.len.toNat) * 32 }

/-- 46 R177, 60 R197: what one step is made of, what it changes and what it leaves. The step is the front end followed by
`RingStep`; `RingStep` pushes and updates SUM, and then either counts a nonzero SKIP down and ends as SKIPPED, or detects.
The front is always complete: the cursor advances by one, slot WR of each ring holds the new value and the new magnitude
and every other slot reads as before; the pairing state and RUN never change; and unless the outcome is FRAME the output
side is untouched. -/
def Obligations.PairStepFrame : Prop :=
  ∀ (V : Type) [DecidableEq V] (C : Cfg V) (now : BitVec 64) (b : Block V),
    pairStep C now b = ringStep C now (frontEnd C b) ∧
    (b.arch.skip = 0 → ringStep C now b = detect C now (ringUpdate C b)) ∧
    (b.arch.skip ≠ 0 → ringStep C now b = ({ ringUpdate C b with arch.skip := b.arch.skip - 1 }, .skipped)) ∧
    ∀ (b' : Block V) (o : StepOutcome), pairStep C now b = (b', o) →
      b'.arch.wr = (b.arch.wr + 1) % C.par.n ∧
      (∀ k, k ≠ b.arch.wr →
        Memory.read C.zero b'.arch.dring k = Memory.read C.zero b.arch.dring k ∧
        Memory.read C.zero b'.arch.mring k = Memory.read C.zero b.arch.mring k) ∧
      (Memory.wf C.zero b.arch.dring → Memory.read C.zero b'.arch.dring b.arch.wr = (frontEnd C b).lat.d) ∧
      (Memory.wf C.zero b.arch.mring → Memory.read C.zero b'.arch.mring b.arch.wr = (frontEnd C b).lat.mag) ∧
      b'.arch.phase = b.arch.phase ∧ b'.arch.ihold = b.arch.ihold ∧ b'.arch.run = b.arch.run ∧
      b'.arch.fi = (frontEnd C b).arch.fi ∧ b'.arch.fq = (frontEnd C b).arch.fq ∧
      b'.arch.fd = (frontEnd C b).arch.fd ∧ b'.arch.ip = (frontEnd C b).arch.ip ∧
      b'.arch.qp = (frontEnd C b).arch.qp ∧ b'.arch.sum = (ringUpdate C (frontEnd C b)).arch.sum ∧
      (o = .skipped → b'.arch.skip = b.arch.skip - 1) ∧
      (o = .noMatch ∨ o = .desync ∨ o = .overlen → b'.arch.skip = b.arch.skip) ∧
      (o ≠ .frame → b'.arch.out = b.arch.out ∧ b'.arch.outValid = b.arch.outValid ∧ b'.arch.outLen = b.arch.outLen ∧
        b'.arch.outData = b.arch.outData ∧ b'.arch.outRssi = b.arch.outRssi ∧ b'.arch.outTime = b.arch.outTime)

/-- 46 R180: a step reads `now` only when its outcome is FRAME. -/
def Obligations.NowMattersOnlyInAFrame : Prop :=
  ∀ (V : Type) [DecidableEq V] (C : Cfg V) (now now' : BitVec 64) (b : Block V),
    (pairStep C now b).2 = (pairStep C now' b).2 ∧
    ((pairStep C now b).2 ≠ .frame → pairStep C now b = pairStep C now' b)

/-- 42 R124, 70 R223: while SKIP lasts, whatever the samples, every pair is SKIPPED: SKIP counts them down one by one and
nothing is emitted. -/
def Obligations.WarmUpSkipsEveryPair : Prop :=
  ∀ (ps : List (Byte × Byte)) (s : State), s.blk.arch.run = true → s.blk.arch.phase = false →
    ps.length ≤ s.blk.arch.skip →
    ∃ t, execAll (samples ps) s = .next t ∧ t.blk.arch.skip = s.blk.arch.skip - ps.length ∧
      (ps ≠ [] → t.label = .outcome .skipped) ∧ t.blk.arch.out = s.blk.arch.out ∧
      t.blk.arch.wr % 8192 = (s.blk.arch.wr + ps.length) % 8192

/-- 95 S6, 43 R132 (a): from reset, pure silence of any length never produces output: every filter register, every ring
entry and SUM stay exactly zero. -/
def Obligations.SilenceNeverProducesOutput : Prop :=
  ∀ n : Nat, ∃ t, execAll (silence cfg n) State.reset = .next t ∧ t.blk.arch.out = [] ∧
    t.blk.arch.dring = [] ∧ t.blk.arch.mring = [] ∧ t.blk.arch.sum = 0 ∧
    t.blk.arch.fi = State.reset.blk.arch.fi ∧ t.blk.arch.fq = State.reset.blk.arch.fq ∧
    t.blk.arch.fd = State.reset.blk.arch.fd ∧ t.blk.arch.skip = 8192 - n ∧ t.blk.arch.wr = n % 8192

/-- 44 R151, 95 S1: in every legal configuration, when the half-bits of a preamble and a byte string stand at the anchor,
each on its side of the threshold, and the CRC register first reads 0 after the last byte, the attempt ends as FRAME and
emits exactly that byte string, in order. -/
def Obligations.TransmissionIsDecoded : Prop :=
  ∀ (V : Type) (C : Cfg V) (now : BitVec 64) (b : Block V) (bytes : List Byte), b.memOk C →
    bytes ≠ [] → bytes.length ≤ C.par.maxBytes →
    crcBytes C.par.crcPoly C.par.crcInit bytes = 0 →
    (∀ k, 0 < k → k < bytes.length → crcBytes C.par.crcPoly C.par.crcInit (bytes.take k) ≠ 0) →
    standsAtAnchor C b.arch (C.num.div b.arch.sum (C.num.ofInt C.par.w)) (airLevels C.par bytes) →
    ∃ (b' : Block V) (r : Record V), detect C now b = (b', .frame) ∧ b'.arch.out = b.arch.out ++ [r] ∧
      r.data = bytes ∧ r.len.toNat = bytes.length ∧ b'.arch.outValid = true ∧ b'.arch.outLen = r.len ∧
      b'.arch.outData.take bytes.length = bytes ∧
      b'.arch.skip = (C.par.preBits + 8 * bytes.length) * C.par.spb

/-! ### Invariants -/

/-- 10_state R36: the range invariants, with every emitted record sound (44 R149), hold of the reset state. -/
def Obligations.ResetIsSound : Prop := State.reset.blk.sound cfg

/-- 10_state R36, 44 R149: from every sound state with port commands presented, a transition gives a sound state. -/
def Obligations.PortStepsKeepSoundness : Prop :=
  ∀ s t : State, s.blk.sound cfg → s.portOnly = true → step s = .next t →
    t.blk.sound cfg ∧ t.portOnly = true

/-- 20_memory R50, R57: from every state whose memories are in form, every transition keeps them in form: both rings
canonical and inside their slots, the cursor a slot, the byte arrays of their length. Stage operations and PUSH
included. -/
def Obligations.EveryStepKeepsMemories : Prop :=
  ∀ s t : State, s.blk.memOk cfg → step s = .next t → t.blk.memOk cfg

/-- 10_state R33, R36; 93 U9: no port command reads a step-local register that it has not written: two blocks with the
same persistent state go on alike, whatever earlier steps left in those registers. -/
def Obligations.StepLocalsNeverLeak : Prop :=
  ∀ (i : Instr) (s s' t t' : State), i.format = .port ∨ i.format = .pair →
    s.blk.arch = s'.blk.arch → s.now = s'.now → s.blk.memOk cfg → s'.blk.memOk cfg →
    exec i s = .next t → exec i s' = .next t' →
    t.blk.arch = t'.blk.arch ∧ t.label = t'.label

/-! ### The reference number system -/

/-- 00_scope R12: `ofInt` is exact for |n| < 2^53. -/
def Obligations.OfIntIsExact : Prop :=
  ∀ z : Int, z.natAbs < 2 ^ 53 → f64Finite (f64OfInt z) = true ∧ f64Value (f64OfInt z) = (z : ℚ)

/-- 00_scope R12: the comparisons are the order of the values on finite data, and false when an operand is a NaN. -/
def Obligations.ComparisonsAreIeee : Prop :=
  (∀ x y : F64, f64IsNan x = true ∨ f64IsNan y = true → f64Gt x y = false ∧ f64Lt x y = false) ∧
  (∀ x y : F64, f64Finite x = true → f64Finite y = true →
    (f64Gt x y = true ↔ f64Value y < f64Value x) ∧ (f64Lt x y = true ↔ f64Value x < f64Value y))

/-- 00_scope R12: "round-to-nearest-even" on integers: the rounded quotient is within half a unit of the exact one, and
even on a tie. -/
def Obligations.RoundingIsNearestEven : Prop :=
  ∀ m k : Nat,
    2 * m ≤ (2 * roundShift m k + 1) * 2 ^ k ∧ 2 * roundShift m k * 2 ^ k ≤ 2 * m + 2 ^ k ∧
    (2 * m = (2 * roundShift m k + 1) * 2 ^ k ∨ 2 * roundShift m k * 2 ^ k = 2 * m + 2 ^ k → roundShift m k % 2 = 0)

/-- 00_scope R12: "`add sub mul div sqrt` are correctly rounded", and `lit` gives the nearest datum, in
round-to-nearest-even: the answer is infinite exactly from half a unit past the largest finite datum on (IEEE 754's,
log 17), otherwise no finite datum is nearer to the exact result, and on a tie the answer is the even one. -/
def Obligations.ArithmeticIsCorrectlyRounded : Prop :=
  (∀ x y : F64, f64Finite x = true → f64Finite y = true →
    f64Rounds (f64Value x + f64Value y) (f64Add x y) ∧
    f64Rounds (f64Value x - f64Value y) (f64Sub x y) ∧
    f64Rounds (f64Value x * f64Value y) (f64Mul x y) ∧
    (f64IsZero y = false → f64Rounds (f64Value x / f64Value y) (f64Div x y))) ∧
  (∀ x : F64, f64Finite x = true → 0 ≤ f64Value x → f64Rounds (Real.sqrt (f64Value x)) (f64Sqrt x)) ∧
  (∀ (m : Int) (k : Nat), f64Rounds ((m : ℝ) / 10 ^ k) (f64Lit m k))
end

