-- ==== Sys2Proof/Laws/Legal.lean ====
section
/-! SUPPORT. What every configuration satisfies, one lemma per constraint of 00_scope R7: the facts its proof of
well-formedness holds. -/

namespace Sys2Proof

variable {V : Type} (C : Cfg V)

/-- The checks of `Params.wf` as propositions, all at once. -/
theorem Cfg.legal_all :
    ((C.par.n = 2 ^ C.par.logN ∧ 1 ≤ C.par.logN) ∧
      (C.par.preBits + 8 * C.par.maxBytes) * C.par.spb + C.par.rssiOfs < C.par.n) ∧
    (1 ≤ C.par.w ∧ C.par.w ≤ C.par.n) ∧
    C.par.n - 1 ≤ C.par.skipInit ∧
    (1 ≤ C.par.minBytes ∧ C.par.minBytes ≤ C.par.maxBytes ∧ 2 ≤ C.par.maxBytes ∧ C.par.maxBytes ≤ 31) ∧
    (1 ≤ C.par.sph ∧ C.par.spb = 2 * C.par.sph ∧ C.par.symOfs < C.par.sph) ∧
    C.par.bias ≤ 255 ∧
    (C.par.preBits = 10 ∧ C.par.preSyms = 20 ∧ C.par.preamble.length = 10) := by
  have h := C.legal
  simp only [Params.wf, Params.capacityIsPow2, Params.ringHoldsLongestFrame, Params.windowFits, Params.warmUpFillsRing,
    Params.lengthsFit, Params.samplingFits, Params.biasIsByte, Params.preambleIsTenBits, Bool.and_eq_true,
    decide_eq_true_eq] at h
  tauto

theorem Cfg.n_eq_pow : C.par.n = 2 ^ C.par.logN := C.legal_all.1.1.1

theorem Cfg.n_pos : 0 < C.par.n := by rw [C.n_eq_pow]; exact Nat.two_pow_pos _

theorem Cfg.ring_holds_longest_frame :
    (C.par.preBits + 8 * C.par.maxBytes) * C.par.spb + C.par.rssiOfs < C.par.n := C.legal_all.1.2

theorem Cfg.w_pos : 1 ≤ C.par.w := C.legal_all.2.1.1

theorem Cfg.w_le_n : C.par.w ≤ C.par.n := C.legal_all.2.1.2

theorem Cfg.warm_up_fills_ring : C.par.n - 1 ≤ C.par.skipInit := C.legal_all.2.2.1

theorem Cfg.maxBytes_ge : 2 ≤ C.par.maxBytes := C.legal_all.2.2.2.1.2.2.1

theorem Cfg.maxBytes_le : C.par.maxBytes ≤ 31 := C.legal_all.2.2.2.1.2.2.2

theorem Cfg.sph_pos : 1 ≤ C.par.sph := C.legal_all.2.2.2.2.1.1

theorem Cfg.spb_eq : C.par.spb = 2 * C.par.sph := C.legal_all.2.2.2.2.1.2.1

theorem Cfg.symOfs_lt : C.par.symOfs < C.par.sph := C.legal_all.2.2.2.2.1.2.2

theorem Cfg.preBits_eq : C.par.preBits = 10 := C.legal_all.2.2.2.2.2.2.1

theorem Cfg.preSyms_eq : C.par.preSyms = 20 := C.legal_all.2.2.2.2.2.2.2.1

theorem Cfg.preamble_length : C.par.preamble.length = 10 := C.legal_all.2.2.2.2.2.2.2.2

end Sys2Proof
end

