-- ==== Sys2Proof/Laws/Air.lean ====
section
/-! SUPPORT. The format AIR by index: which level stands at which half-bit of a transmission (30_encoding R75, R78), and
what it means that the decoder reads a byte string at the anchor. -/

namespace Sys2Proof.Laws

open Sys2Proof.Machine

variable {V : Type}

@[simp] theorem manchester_length (o bit : Bool) : (manchester o bit).length = 2 := by
  unfold manchester
  split <;> rfl

/-- Half-bit `2j` of a coded bit string has the level of bit `j`'s first half, half-bit `2j + 1` the opposite one. -/
theorem coded_getElem? (o : Bool) (bits : List Bool) (h : Nat) :
    (bits.flatMap (manchester o))[h]? =
      bits[h / 2]?.map (fun bit => if h % 2 = 0 then bit == o else !(bit == o)) := by
  induction bits generalizing h with
  | nil => simp
  | cons b bs ih =>
    rw [List.flatMap_cons]
    match h with
    | 0 => by_cases hb : b = o <;> simp [manchester, hb]
    | 1 => by_cases hb : b = o <;> simp [manchester, hb]
    | k + 2 =>
      rw [List.getElem?_append_right (by simp), manchester_length, Nat.add_sub_cancel, ih]
      have h2 : (k + 2) / 2 = k / 2 + 1 := by omega
      have h3 : (k + 2) % 2 = k % 2 := by omega
      simp [h2, h3]

@[simp] theorem byteBits_length (b : Byte) : (byteBits b).length = 8 := by simp [byteBits]

/-- Bit `j` of a byte string in air order is bit `7 - j mod 8` of byte `j div 8` (30_encoding R79). -/
theorem bits_getElem? (bytes : List Byte) (j : Nat) :
    (bytes.flatMap byteBits)[j]? = bytes[j / 8]?.map (fun b => b.getLsbD (7 - j % 8)) := by
  induction bytes generalizing j with
  | nil => simp
  | cons b bs ih =>
    rw [List.flatMap_cons]
    by_cases hj : j < 8
    · have h0 : j / 8 = 0 := by omega
      have h1 : j % 8 = j := by omega
      rw [List.getElem?_append_left (by simpa using hj), h0, h1]
      simp [byteBits, hj]
    · have h0 : j / 8 = (j - 8) / 8 + 1 := by omega
      have h1 : j % 8 = (j - 8) % 8 := by omega
      rw [List.getElem?_append_right (by simpa using Nat.le_of_not_lt hj), byteBits_length, ih, h0, h1]
      simp

theorem preambleLevels_length (C : Cfg V) : (preambleLevels C.par).length = 20 := by
  have h : ∀ (bits : List Bool), (bits.flatMap (manchester C.par.manOneIsHl)).length = 2 * bits.length := by
    intro bits
    induction bits with
    | nil => rfl
    | cons b bs ih => simp [ih]; omega
  rw [preambleLevels, h, C.preamble_length]

/-- The two half-bits of data bit `j` are read as the given bit. -/
def BitReadAs (C : Cfg V) (a : Arch V) (thr : V) (j : Nat) (bit : Bool) : Prop :=
  above C (readD C a (firstHalfOfs C j)) thr = (bit == C.par.manOneIsHl) ∧
  above C (readD C a (secondHalfOfs C j)) thr = !(bit == C.par.manOneIsHl)

/-- Data bit `j` is sampled at half-bits `20 + 2j` and `21 + 2j` (44 R141). -/
theorem firstHalfOfs_eq_pos (C : Cfg V) (j : Nat) : firstHalfOfs C j = pos C (20 + 2 * j) := by
  rw [firstHalfOfs, pos, C.preBits_eq]

theorem secondHalfOfs_eq_pos (C : Cfg V) (j : Nat) : secondHalfOfs C j = pos C (21 + 2 * j) := by
  rw [secondHalfOfs, firstHalfOfs, pos, C.preBits_eq]
  ring

/-- A byte string is read at the anchor when each of its bits is. -/
theorem readsAs_of_bits {C : Cfg V} {a : Arch V} {thr : V} {bytes : List Byte}
    (h : ∀ j byte, bytes[j / 8]? = some byte → BitReadAs C a thr j (byte.getLsbD (7 - j % 8))) :
    readsAs C a thr 20 (airLevels C.par bytes) := by
  intro k level hk hl
  rw [airLevels, List.getElem?_append_right (by rw [preambleLevels_length]; exact hk), preambleLevels_length,
    coded_getElem?, bits_getElem?] at hl
  rcases hb : bytes[(k - 20) / 2 / 8]? with _ | byte
  · rw [hb] at hl
    simp at hl
  · have hr := h _ _ hb
    rw [hb] at hl
    simp only [Option.map_some, Option.some.injEq] at hl
    rcases Nat.mod_two_eq_zero_or_one (k - 20) with hm | hm
    · rw [if_pos hm] at hl
      have e : k = 20 + 2 * ((k - 20) / 2) := by omega
      rw [e, ← firstHalfOfs_eq_pos, hr.1, hl]
    · rw [if_neg (by omega)] at hl
      have e : k = 21 + 2 * ((k - 20) / 2) := by omega
      rw [e, ← secondHalfOfs_eq_pos, hr.2, hl]

end Sys2Proof.Laws
end

