-- ==== Sys2Proof/Laws/Float64.lean ====
section
/-! SUPPORT. The reference NUM (00_scope R12): the fields and the value of a packed datum, that rounding a number to
its grid of multiples of a power of two gives the correctly rounded datum, that `f64Round` and `f64RoundQuot` do so, and
what the integer square root computes. -/

namespace Sys2Proof.Laws

open Sys2Proof.Machine

/-! ### Packed data -/

theorem f64Pack_toNat (neg : Bool) (body : Nat) (h : body < 2 ^ 63) :
    (f64Pack neg body).toNat = (if neg then 2 ^ 63 else 0) + body := by
  cases neg <;> (simp [f64Pack]; omega)

theorem f64Pack_sign (neg : Bool) (body : Nat) (h : body < 2 ^ 63) : f64Sign (f64Pack neg body) = neg := by
  rw [f64Sign, f64Pack_toNat neg body h]
  cases neg
  · simpa using h
  · simp

theorem f64Pack_exp (neg : Bool) (body : Nat) (h : body < 2 ^ 63) : f64Exp (f64Pack neg body) = body / 2 ^ 52 := by
  rw [f64Exp, f64Pack_toNat neg body h]
  cases neg <;> (simp only [Bool.false_eq_true, ↓reduceIte]; omega)

theorem f64Pack_frac (neg : Bool) (body : Nat) (h : body < 2 ^ 63) : f64Frac (f64Pack neg body) = body % 2 ^ 52 := by
  rw [f64Frac, f64Pack_toNat neg body h]
  cases neg <;> (simp only [Bool.false_eq_true, ↓reduceIte]; omega)

/-- The word of a datum whose significand is `q` at the scale `T - 1074`, in the encoding's own terms. -/
theorem f64Pack_value (neg : Bool) (T q : Nat) (hq : q ≤ 2 ^ 53) (hlo : T = 0 ∨ 2 ^ 52 ≤ q)
    (h : T * 2 ^ 52 + q < 2047 * 2 ^ 52) :
    f64Finite (f64Pack neg (T * 2 ^ 52 + q)) = true ∧
    f64Value (f64Pack neg (T * 2 ^ 52 + q)) = (if neg then -1 else 1) * ((q : ℚ) * 2 ^ ((T : ℤ) - 1074)) := by
  have h63 : T * 2 ^ 52 + q < 2 ^ 63 := by omega
  refine ⟨?_, ?_⟩
  · rw [f64Finite, f64Pack_exp _ _ h63]
    simp
    omega
  · rw [f64Value, f64Pack_sign _ _ h63, f64Mant, f64Scale, f64Pack_exp _ _ h63, f64Pack_frac _ _ h63, mul_assoc]
    congr 1
    by_cases h1 : q < 2 ^ 52
    · obtain rfl : T = 0 := by omega
      have e : (0 * 2 ^ 52 + q) / 2 ^ 52 = 0 := by omega
      have f : (0 * 2 ^ 52 + q) % 2 ^ 52 = q := by omega
      rw [e, f]
      norm_num
    · by_cases h2 : q < 2 ^ 53
      · have e : (T * 2 ^ 52 + q) / 2 ^ 52 = T + 1 := by omega
        have f : (T * 2 ^ 52 + q) % 2 ^ 52 + 2 ^ 52 = q := by omega
        rw [e, if_neg (by omega), f, max_eq_left (by omega)]
        congr 2
        push_cast
        ring
      · obtain rfl : q = 2 ^ 53 := by omega
        have e : (T * 2 ^ 52 + 2 ^ 53) / 2 ^ 52 = T + 2 := by omega
        have f : (T * 2 ^ 52 + 2 ^ 53) % 2 ^ 52 + 2 ^ 52 = 2 ^ 52 := by omega
        rw [e, if_neg (by omega), f, max_eq_left (by omega)]
        have g : (((T + 2 : ℕ) : ℤ) - 1075) = ((T : ℤ) - 1074) + 1 := by push_cast; ring
        rw [g, zpow_add_one₀ (by norm_num)]
        push_cast
        ring

/-- A finite datum is `±M · 2^s` with `M` below 2^53, `s` at least -1074, and `M` at least 2^52 unless `s` is
least. -/
theorem f64_parts (w : F64) :
    f64Mant w < 2 ^ 53 ∧ -1074 ≤ f64Scale w ∧ (f64Scale w = -1074 ∨ 2 ^ 52 ≤ f64Mant w) := by
  have hf : f64Frac w < 2 ^ 52 := Nat.mod_lt _ (by norm_num)
  unfold f64Mant f64Scale
  split
  · rename_i h
    rw [h]
    exact ⟨by omega, by norm_num, Or.inl (by norm_num)⟩
  · have : 1 ≤ f64Exp w := Nat.one_le_iff_ne_zero.mpr ‹_›
    rw [max_eq_left this]
    exact ⟨by omega, by omega, Or.inr (by omega)⟩

/-! ### Rounding to a grid -/

/-- A multiple of `u` within half of `u` is a nearest one, and strictly nearest but on a tie. -/
theorem grid_nearest (v u : ℝ) (hu : 0 < u) (q k : ℤ) (h : |q * u - v| ≤ u / 2) :
    |q * u - v| ≤ |k * u - v| ∧ (|q * u - v| = |k * u - v| → k ≠ q → |q * u - v| = u / 2) := by
  by_cases hk : k = q
  · subst hk
    exact ⟨le_refl _, fun _ hne => absurd rfl hne⟩
  · have h1 : u ≤ |k * u - q * u| := by
      rw [← sub_mul, abs_mul, abs_of_pos hu]
      have : (1 : ℝ) ≤ |((k : ℝ) - q)| := by
        have hz : (1 : ℤ) ≤ |k - q| := Int.one_le_abs (sub_ne_zero.mpr hk)
        exact_mod_cast hz
      nlinarith
    have h2 : |k * u - q * u| ≤ |k * u - v| + |q * u - v| := by
      have := abs_sub_le ((k : ℝ) * u) v (q * u)
      rwa [abs_sub_comm v] at this
    exact ⟨by linarith, fun e _ => by linarith⟩

/-- The powers at the top of the range, all as multiples of one of them. -/
theorem top_powers : ∃ p : ℝ, 0 < p ∧ (2 : ℝ) ^ 1024 = 2 ^ 54 * p ∧ (2 : ℝ) ^ 970 = p ∧
    (2 : ℝ) ^ (970 : ℤ) = p ∧ (2 : ℝ) ^ (971 : ℤ) = 2 * p ∧ (2 : ℝ) ^ (972 : ℤ) = 4 * p := by
  have z970 : (2 : ℝ) ^ (970 : ℤ) = 2 ^ 970 := zpow_natCast 2 970
  have z971 : (2 : ℝ) ^ (971 : ℤ) = 2 * 2 ^ 970 := by
    rw [← z970, show (971 : ℤ) = 970 + 1 by norm_num, zpow_add_one₀ (by norm_num), mul_comm]
  have z972 : (2 : ℝ) ^ (972 : ℤ) = 4 * 2 ^ 970 := by
    rw [show (972 : ℤ) = 971 + 1 by norm_num, zpow_add_one₀ (by norm_num), z971]
    ring
  exact ⟨2 ^ 970, by positivity, by rw [← pow_add], rfl, z970, z971, z972⟩

/-- The datum on the grid of 2^t nearest to `v`, the even one on a tie, is `v` correctly rounded: `t` is the scale that
gives `v` 53 bits, or the least scale. -/
theorem f64Rounds_of_grid (neg : Bool) (v : ℝ) (t : ℤ) (q : Nat) (h0 : 0 ≤ v) (ht : -1074 ≤ t)
    (hlo : t = -1074 ∨ 2 ^ 52 * (2 : ℝ) ^ t ≤ v) (hhi : v < 2 ^ 53 * (2 : ℝ) ^ t)
    (hnear : |(q : ℝ) * 2 ^ t - v| ≤ 2 ^ t / 2) (heven : |(q : ℝ) * 2 ^ t - v| = 2 ^ t / 2 → q % 2 = 0) :
    f64Rounds (if neg then -v else v)
      (if 2047 * 2 ^ 52 ≤ (t + 1074).toNat * 2 ^ 52 + q then f64Inf neg
       else f64Pack neg ((t + 1074).toNat * 2 ^ 52 + q)) := by
  set u : ℝ := (2 : ℝ) ^ t with hu
  have hupos : 0 < u := by positivity
  obtain ⟨T, hT⟩ : ∃ T : Nat, (T : ℤ) = t + 1074 := ⟨(t + 1074).toNat, by omega⟩
  have hTn : (t + 1074).toNat = T := by omega
  rw [hTn]
  have hn := abs_le.mp hnear
  have hq : q ≤ 2 ^ 53 := by
    by_contra hc
    have : (2 ^ 53 + 1 : ℝ) ≤ q := by exact_mod_cast Nat.lt_of_not_le hc
    nlinarith
  have hq52 : T = 0 ∨ 2 ^ 52 ≤ q := by
    rcases hlo with h | h
    · exact Or.inl (by omega)
    · right
      by_contra hc
      have : (q : ℝ) + 1 ≤ 2 ^ 52 := by exact_mod_cast Nat.lt_of_not_le hc
      nlinarith
  have habs : |if neg then -v else v| = v := by cases neg <;> simp [abs_of_nonneg h0]
  -- overflow happens exactly from 2^1024 - 2^970 on
  have hover : 2047 * 2 ^ 52 ≤ T * 2 ^ 52 + q ↔ 2 ^ 1024 - 2 ^ 970 ≤ v := by
    obtain ⟨p, hp0, p1024, p970, z970, z971, z972⟩ := top_powers
    rw [p1024, p970]
    clear p1024 p970
    rcases lt_trichotomy T 2045 with hlt | heq | hgt
    · have hle : u ≤ p := by
        rw [← z970, hu]
        exact zpow_le_zpow_right₀ (by norm_num) (by omega)
      clear z970 z971 z972
      constructor
      · intro h
        omega
      · intro h
        exfalso
        nlinarith
    · have hue : u = 2 * p := by
        rw [← z971, hu]
        congr 1
        omega
      clear z970 z971 z972
      have key : 2047 * 2 ^ 52 ≤ T * 2 ^ 52 + q ↔ q = 2 ^ 53 := by omega
      rw [key]
      constructor
      · intro h
        rw [h] at hn
        have := hn.2
        push_cast at this
        nlinarith
      · intro h
        by_contra hc
        have hq' : q ≤ 2 ^ 53 - 1 := by omega
        have hqr : (q : ℝ) ≤ 2 ^ 53 - 1 := by
          have h1 : q + 1 ≤ 2 ^ 53 := by omega
          have h2 : (q : ℝ) + 1 ≤ 2 ^ 53 := by exact_mod_cast h1
          linarith
        have hv : 2 ^ 53 * u - u / 2 ≤ v := by nlinarith
        have hqe : (q : ℝ) = 2 ^ 53 - 1 := by nlinarith
        have htie : |(q : ℝ) * u - v| = u / 2 := by
          have hve : v = 2 ^ 53 * u - u / 2 := by
            have h1 := hn.1
            rw [hqe] at h1
            linarith
          rw [hqe, hve, abs_of_nonpos (by linarith)]
          ring
        have hqn : q = 2 ^ 53 - 1 := by
          have h1 : (q : ℝ) + 1 = 2 ^ 53 := by rw [hqe]; ring
          have h2 : q + 1 = 2 ^ 53 := by exact_mod_cast h1
          omega
        have := heven htie
        omega
    · have hge : 4 * p ≤ u := by
        rw [← z972, hu]
        exact zpow_le_zpow_right₀ (by norm_num) (by omega)
      clear z970 z971 z972
      have h52 : 2 ^ 52 ≤ q := by omega
      constructor
      · intro _
        rcases hlo with h | h
        · omega
        · nlinarith
      · intro _
        omega
  refine ⟨?_, ?_⟩
  · intro h
    rw [habs] at h
    rw [if_pos (hover.mpr h)]
    cases neg
    · exact ⟨fun _ => rfl, fun hneg => absurd hneg (by simpa using h0)⟩
    · refine ⟨fun hpos => ?_, fun _ => rfl⟩
      simp only [if_true, Left.neg_pos_iff] at hpos
      exact absurd hpos (not_lt.mpr h0)
  · intro h
    rw [habs] at h
    have hb : ¬ 2047 * 2 ^ 52 ≤ T * 2 ^ 52 + q := fun hc => absurd (hover.mp hc) (not_le.mpr h)
    rw [if_neg hb]
    obtain ⟨hfin, hval⟩ := f64Pack_value neg T q hq hq52 (by omega)
    refine ⟨hfin, ?_⟩
    intro w hw
    have hr : (f64Value (f64Pack neg (T * 2 ^ 52 + q)) : ℝ) = (if neg then -1 else 1) * ((q : ℝ) * u) := by
      have ht' : ((T : ℤ) - 1074) = t := by omega
      rw [hval, ht']
      cases neg <;> push_cast <;> simp [hu]
    have hodd : (f64Pack neg (T * 2 ^ 52 + q)).toNat % 2 = q % 2 := by
      rw [f64Pack_toNat _ _ (by omega)]
      cases neg <;> simp <;> omega
    -- the other datum seen from v's side of zero
    set x : ℝ := (if neg then -1 else 1) * (f64Value w : ℝ) with hx
    have hdist : ∀ z : ℝ, |(if neg then -1 else 1) * z - (if neg then -v else v)| = |z - v| := by
      intro z
      cases neg
      · simp
      · simp only [if_true]
        rw [← abs_neg]
        congr 1
        ring
    have hwx : (f64Value w : ℝ) = (if neg then -1 else 1) * x := by rw [hx]; cases neg <;> simp
    obtain ⟨hM, hs, hM52⟩ := f64_parts w
    -- either it is on the grid, or it is strictly farther
    have hcase : (∃ k : ℤ, x = k * u) ∨ |(q : ℝ) * u - v| < |x - v| := by
      by_cases hst : t ≤ f64Scale w
      · left
        refine ⟨(if neg then -1 else 1) * ((if f64Sign w then -1 else 1) *
          ((f64Mant w : ℤ) * 2 ^ (f64Scale w - t).toNat)), ?_⟩
        have hz : (2 : ℝ) ^ f64Scale w = 2 ^ (f64Scale w - t).toNat * u := by
          rw [hu, ← zpow_natCast, ← zpow_add₀ (by norm_num)]
          congr 1
          omega
        rw [hx, f64Value]
        cases neg <;> cases f64Sign w <;> push_cast <;> rw [hz] <;> simp <;> ring
      · right
        have hv52 : 2 ^ 52 * u ≤ v := by
          rcases hlo with h' | h'
          · omega
          · exact h'
        have hle : (2 : ℝ) ^ f64Scale w ≤ u / 2 := by
          have : (2 : ℝ) ^ f64Scale w ≤ 2 ^ (t - 1) := zpow_le_zpow_right₀ (by norm_num) (by omega)
          rw [zpow_sub_one₀ (by norm_num)] at this
          simpa [hu, div_eq_mul_inv] using this
        have hpos : 0 < (2 : ℝ) ^ f64Scale w := by positivity
        have hMr : (f64Mant w : ℝ) < 2 ^ 53 := by exact_mod_cast hM
        have hM0 : (0 : ℝ) ≤ f64Mant w := Nat.cast_nonneg _
        have hxlt : x < 2 ^ 52 * u := by
          have hax : |x| = (f64Mant w : ℝ) * 2 ^ f64Scale w := by
            rw [hx, f64Value]
            cases neg <;> cases f64Sign w <;> push_cast <;> simp [abs_mul, abs_of_pos hpos]
          have : |x| < 2 ^ 52 * u := by
            rw [hax]
            nlinarith
          exact lt_of_le_of_lt (le_abs_self x) this
        have hg : |(q : ℝ) * u - v| ≤ |2 ^ 52 * u - v| := by
          have := (grid_nearest v u hupos q (2 ^ 52) (by exact_mod_cast hnear)).1
          norm_num at this ⊢
          exact this
        have e1 : |2 ^ 52 * u - v| = v - 2 ^ 52 * u := by rw [abs_of_nonpos (by linarith)]; ring
        have e2 : |x - v| = v - x := by rw [abs_of_neg (by linarith)]; ring
        rw [e2]
        rw [e1] at hg
        linarith
    rw [hr, hwx, hdist, hdist, hodd]
    rcases hcase with ⟨k, hk⟩ | hlt
    · obtain ⟨g1, g2⟩ := grid_nearest v u hupos q k (by exact_mod_cast hnear)
      rw [hk]
      refine ⟨by exact_mod_cast g1, ?_⟩
      intro e
      by_cases hkq : k = q
      · left
        have hreal : (f64Value w : ℝ) = (f64Value (f64Pack neg (T * 2 ^ 52 + q)) : ℝ) := by
          rw [hwx, hr, hk, hkq]
          push_cast
          rfl
        exact_mod_cast hreal
      · right
        exact heven (by exact_mod_cast g2 (by exact_mod_cast e) hkq)
    · exact ⟨le_of_lt hlt, fun e => absurd e (ne_of_lt hlt)⟩

/-! ### Rounding once -/

/-- The value of a datum, as a real. -/
theorem f64Value_eq (x : F64) : (f64Value x : ℝ) = (if f64Sign x then -1 else 1) * f64Mant x * 2 ^ f64Scale x := by
  rw [f64Value]
  cases f64Sign x <;> push_cast <;> simp

/-- At a scale not above its own a datum's significand is an integer. -/
theorem f64IntAt_value (x : F64) (e : ℤ) (h : e ≤ f64Scale x) : (f64IntAt x e : ℝ) * 2 ^ e = f64Value x := by
  have : (2 : ℝ) ^ f64Scale x = 2 ^ (f64Scale x - e).toNat * 2 ^ e := by
    rw [← zpow_natCast, ← zpow_add₀ (by norm_num)]
    congr 1
    omega
  rw [f64Value_eq, f64IntAt, this]
  cases f64Sign x <;> simp <;> ring

/-- A zero of either sign is the correctly rounded 0. -/
theorem f64Rounds_zero (neg : Bool) : f64Rounds 0 (f64Zero neg) := by
  have hf : f64Finite (f64Zero neg) = true := by cases neg <;> decide
  have hv : f64Value (f64Zero neg) = 0 := by
    rw [f64Value]
    cases neg <;> simp [show f64Mant (f64Zero true) = 0 by decide, show f64Mant (f64Zero false) = 0 by decide]
  refine ⟨fun _ => ⟨fun h => absurd h (lt_irrefl _), fun h => absurd h (lt_irrefl _)⟩,
    fun _ => ⟨hf, fun w _ => ⟨by rw [hv]; simp, fun _ => Or.inr (by cases neg <;> decide)⟩⟩⟩

/-- `roundShift` gives a nearest multiple of 2^k, the even one on a tie, of the number itself or, where the number is odd
and 4 divides 2^k, of any real within 1 of it: the odd last bit stands for a remainder. -/
theorem roundShift_nearest (m k : Nat) (x : ℝ) (hk : 1 ≤ k)
    (hx : x = m ∨ (m % 2 = 1 ∧ 2 ≤ k ∧ (m : ℝ) - 1 < x ∧ x < m + 1)) :
    |(roundShift m k : ℝ) * 2 ^ k - x| ≤ 2 ^ k / 2 ∧
    (|(roundShift m k : ℝ) * 2 ^ k - x| = 2 ^ k / 2 → roundShift m k % 2 = 0) := by
  obtain ⟨j, rfl⟩ : ∃ j, k = j + 1 := ⟨k - 1, by omega⟩
  have hdiv := Nat.div_add_mod m (2 ^ (j + 1))
  have hrlt := Nat.mod_lt m (Nat.two_pow_pos (j + 1))
  unfold roundShift
  generalize m / 2 ^ (j + 1) = q at *
  generalize m % 2 ^ (j + 1) = r at *
  have h2 : 2 ^ (j + 1) = 2 * 2 ^ j := by rw [Nat.pow_succ, Nat.mul_comm]
  have h4 : 2 ≤ j + 1 → 2 ^ j % 2 = 0 := by
    intro h
    obtain ⟨i, rfl⟩ : ∃ i, j = i + 1 := ⟨j - 1, by omega⟩
    rw [Nat.pow_succ]
    omega
  have h2r : (2 : ℝ) ^ (j + 1) = 2 * ((2 ^ j : ℕ) : ℝ) := by push_cast; ring
  rw [h2] at hdiv hrlt ⊢
  rw [h2r]
  generalize 2 ^ j = h at *
  have hm : (m : ℝ) = 2 * h * q + r := by exact_mod_cast hdiv.symm
  have hr1 : (r : ℝ) + 1 ≤ 2 * h := by exact_mod_cast hrlt
  have hr0 : (0 : ℝ) ≤ r := Nat.cast_nonneg _
  -- the part of x past the last multiple, and on which side of one half it lies
  obtain ⟨y, hy⟩ : ∃ y : ℝ, x = 2 * h * q + y := ⟨x - 2 * h * q, by ring⟩
  have hy0 : 0 ≤ y ∧ y ≤ 2 * h := by
    rcases hx with hx | ⟨ho, hk2, hx1, hx2⟩
    · constructor <;> linarith
    · have hev : (2 * h * q) % 2 = 0 := by rw [Nat.mul_assoc]; omega
      have : r % 2 = 1 := by omega
      have h1 : (1 : ℝ) ≤ r := by exact_mod_cast (show 1 ≤ r by omega)
      constructor <;> linarith
  have hyr : (h < r → (h : ℝ) < y) ∧ (r < h → y < h) ∧ (r = h → y = h) := by
    rcases hx with hx | ⟨ho, hk2, hx1, hx2⟩
    · have : y = r := by linarith
      rw [this]
      exact ⟨fun h => by exact_mod_cast h, fun h => by exact_mod_cast h, fun h => by rw [h]⟩
    · have hev : (2 * h * q) % 2 = 0 := by rw [Nat.mul_assoc]; omega
      have hro : r % 2 = 1 := by omega
      have hhe := h4 hk2
      refine ⟨fun hl => ?_, fun hl => ?_, fun he => ?_⟩
      · have : (h : ℝ) + 1 ≤ r := by exact_mod_cast hl
        linarith
      · have : (r : ℝ) + 1 ≤ h := by exact_mod_cast hl
        linarith
      · omega
  rw [hy]
  simp only
  split
  · rename_i hc
    have hge : (h : ℝ) ≤ y := by
      rcases hc with hc | ⟨hc, -⟩
      · exact le_of_lt (hyr.1 (by omega))
      · exact le_of_eq (hyr.2.2 (by omega)).symm
    have e : |((q + 1 : ℕ) : ℝ) * (2 * h) - (2 * h * q + y)| = 2 * h - y := by
      rw [show ((q + 1 : ℕ) : ℝ) * (2 * h) - (2 * h * q + y) = 2 * h - y by push_cast; ring,
        abs_of_nonneg (by linarith [hy0.2])]
    rw [e]
    refine ⟨by linarith, fun ht => ?_⟩
    rcases hc with hc | ⟨-, hc⟩
    · have := hyr.1 (by omega)
      linarith
    · omega
  · rename_i hc
    push Not at hc
    have hle : y ≤ h := by
      rcases Nat.lt_or_eq_of_le (show r ≤ h by omega) with hl | hl
      · exact le_of_lt (hyr.2.1 hl)
      · exact le_of_eq (hyr.2.2 hl)
    have e : |(q : ℝ) * (2 * h) - (2 * h * q + y)| = y := by
      rw [show (q : ℝ) * (2 * h) - (2 * h * q + y) = -y by ring, abs_neg, abs_of_nonneg hy0.1]
    rw [e]
    refine ⟨by linarith, fun ht => ?_⟩
    have hrh : r = h := by
      rcases Nat.lt_or_eq_of_le (show r ≤ h by omega) with hl | hl
      · have := hyr.2.1 hl
        linarith
      · exact hl
    have := hc.2 (by omega)
    omega

/-- `f64Round` is correct rounding: of `m · 2^e` exactly, and, where `m` is odd and has 56 bits or more, of any real
strictly between `(m - 1) · 2^e` and `(m + 1) · 2^e`. -/
theorem f64Round_rounds (neg : Bool) (v : ℝ) (m : Nat) (e : ℤ) (hm : m ≠ 0)
    (hv : v = m * 2 ^ e ∨
      (m % 2 = 1 ∧ 2 ^ 55 ≤ m ∧ ((m : ℝ) - 1) * 2 ^ e < v ∧ v < ((m : ℝ) + 1) * 2 ^ e)) :
    f64Rounds (if neg then -v else v) (f64Round neg m e) := by
  have hwpos : (0 : ℝ) < 2 ^ e := by positivity
  have hlog1 : 2 ^ Nat.log2 m ≤ m := Nat.log2_self_le hm
  have hlog2 : m < 2 ^ (Nat.log2 m + 1) := Nat.lt_log2_self
  have hl1 : (2 : ℝ) ^ Nat.log2 m ≤ m := by exact_mod_cast hlog1
  have hl2 : (m : ℝ) + 1 ≤ 2 ^ (Nat.log2 m + 1) := by exact_mod_cast hlog2
  have hm1 : (1 : ℝ) ≤ m := by exact_mod_cast Nat.one_le_iff_ne_zero.mpr hm
  -- the range of v in terms of the leading bit
  have hvlo : (2 : ℝ) ^ Nat.log2 m * 2 ^ e ≤ v := by
    rcases hv with hv | ⟨ho, h55, hv, -⟩
    · rw [hv]
      nlinarith
    · have h1 : 2 ^ Nat.log2 m ≤ m - 1 := by
        have hne : Nat.log2 m ≠ 0 := by
          intro h0
          rw [h0] at hlog2
          omega
        obtain ⟨i, hi⟩ : ∃ i, Nat.log2 m = i + 1 := ⟨Nat.log2 m - 1, by omega⟩
        rw [hi, Nat.pow_succ] at hlog1 ⊢
        omega
      have h2 : (2 : ℝ) ^ Nat.log2 m + 1 ≤ m := by
        have h3 : 2 ^ Nat.log2 m + 1 ≤ m := by omega
        exact_mod_cast h3
      nlinarith
  have hvhi : v < (2 : ℝ) ^ (Nat.log2 m + 1) * 2 ^ e := by
    rcases hv with hv | ⟨-, -, -, hv⟩
    · rw [hv]
      nlinarith
    · nlinarith
  have hv0 : 0 ≤ v := le_trans (by positivity) hvlo
  unfold f64Round
  rw [if_neg hm]
  simp only
  generalize hL : Nat.log2 m = L at *
  have ht1074 : -1074 ≤ max (e + (L : ℤ) - 52) (-1074) := le_max_right _ _
  have htL : e + (L : ℤ) - 52 ≤ max (e + (L : ℤ) - 52) (-1074) := le_max_left _ _
  have htor : max (e + (L : ℤ) - 52) (-1074) = -1074 ∨ max (e + (L : ℤ) - 52) (-1074) = e + L - 52 := by omega
  generalize max (e + (L : ℤ) - 52) (-1074) = t at *
  have hlo : t = -1074 ∨ 2 ^ 52 * (2 : ℝ) ^ t ≤ v := by
    refine htor.imp_right fun h => le_trans (le_of_eq ?_) hvlo
    rw [h, ← zpow_natCast, ← zpow_natCast, ← zpow_add₀ (by norm_num), ← zpow_add₀ (by norm_num)]
    congr 1
    push_cast
    ring
  have hhi : v < 2 ^ 53 * (2 : ℝ) ^ t := by
    refine lt_of_lt_of_le hvhi ?_
    rw [← zpow_natCast, ← zpow_natCast, ← zpow_add₀ (by norm_num), ← zpow_add₀ (by norm_num)]
    exact zpow_le_zpow_right₀ (by norm_num) (by push_cast; omega)
  have key : ∀ q : Nat, q = (if t ≤ e then m * 2 ^ (e - t).toNat else roundShift m (t - e).toNat) →
      |(q : ℝ) * 2 ^ t - v| ≤ 2 ^ t / 2 ∧ (|(q : ℝ) * 2 ^ t - v| = 2 ^ t / 2 → q % 2 = 0) := by
    rintro q rfl
    have htpos : (0 : ℝ) < 2 ^ t := by positivity
    have h55 : 2 ^ 55 ≤ m → 55 ≤ L := by
      intro h
      by_contra hc
      have : 2 ^ (L + 1) ≤ 2 ^ 55 := Nat.pow_le_pow_right (by norm_num) (by omega)
      omega
    by_cases hte : t ≤ e
    · -- on the grid: the product is exact
      have hve : v = m * 2 ^ e := by
        rcases hv with hv | ⟨-, h, -, -⟩
        · exact hv
        · have := h55 h
          omega
      have hex : ((m * 2 ^ (e - t).toNat : ℕ) : ℝ) * 2 ^ t - v = 0 := by
        have : (2 : ℝ) ^ e = 2 ^ (e - t).toNat * 2 ^ t := by
          rw [← zpow_natCast, ← zpow_add₀ (by norm_num)]
          congr 1
          omega
        rw [hve, this]
        push_cast
        ring
      rw [if_pos hte, hex, abs_zero]
      exact ⟨by positivity, fun h => absurd h (by positivity)⟩
    · -- below the grid: `roundShift` on the number scaled by 2^e
      rw [if_neg hte]
      have hscale : (2 : ℝ) ^ t = 2 ^ (t - e).toNat * 2 ^ e := by
        rw [← zpow_natCast, ← zpow_add₀ (by norm_num)]
        congr 1
        omega
      have hvx : v = v / 2 ^ e * 2 ^ e := by field_simp
      obtain ⟨g1, g2⟩ := roundShift_nearest m (t - e).toNat (v / 2 ^ e) (by omega) (by
        rcases hv with hv | ⟨ho, h, h1, h2⟩
        · left
          rw [hv]
          field_simp
        · right
          have := h55 h
          refine ⟨ho, by omega, ?_, ?_⟩
          · rwa [lt_div_iff₀ hwpos]
          · rwa [div_lt_iff₀ hwpos])
      have hd : |(roundShift m (t - e).toNat : ℝ) * 2 ^ t - v| =
          |(roundShift m (t - e).toNat : ℝ) * 2 ^ (t - e).toNat - v / 2 ^ e| * 2 ^ e := by
        rw [← abs_of_pos hwpos, ← abs_mul, abs_of_pos hwpos]
        congr 1
        rw [sub_mul, ← hvx, hscale]
        ring
      rw [hd]
      refine ⟨by rw [hscale]; nlinarith, fun h => g2 ?_⟩
      rw [hscale] at h
      have : (|(roundShift m (t - e).toNat : ℝ) * 2 ^ (t - e).toNat - v / 2 ^ e| - 2 ^ (t - e).toNat / 2) * 2 ^ e = 0 := by
        rw [sub_mul]
        linarith
      have := (mul_eq_zero.mp this).resolve_right (ne_of_gt hwpos)
      linarith
  obtain ⟨k1, k2⟩ := key _ rfl
  exact f64Rounds_of_grid neg v t _ hv0 ht1074 hlo hhi k1 k2

/-- `f64RoundQuot` is correct rounding of the quotient. -/
theorem f64RoundQuot_rounds (neg : Bool) (num den : Nat) (e : ℤ) (hn : num ≠ 0) (hd : den ≠ 0) :
    f64Rounds (if neg then -((num : ℝ) / den * 2 ^ e) else (num : ℝ) / den * 2 ^ e) (f64RoundQuot neg num den e) := by
  unfold f64RoundQuot
  simp only
  generalize hk : 64 + Nat.log2 den = k
  have hden : den < 2 ^ (k - 63) := by
    have := @Nat.lt_log2_self den
    rwa [show k - 63 = den.log2 + 1 by omega]
  have hdiv := Nat.div_add_mod (num * 2 ^ k) den
  have hrlt := Nat.mod_lt (num * 2 ^ k) (Nat.pos_of_ne_zero hd)
  have hq63 : 2 ^ 63 ≤ num * 2 ^ k / den := by
    rw [Nat.le_div_iff_mul_le (Nat.pos_of_ne_zero hd)]
    calc 2 ^ 63 * den ≤ 2 ^ 63 * 2 ^ (k - 63) := Nat.mul_le_mul_left _ (le_of_lt hden)
      _ = 2 ^ k := by rw [← Nat.pow_add]; congr 1; omega
      _ ≤ num * 2 ^ k := Nat.le_mul_of_pos_left _ (Nat.pos_of_ne_zero hn)
  generalize num * 2 ^ k / den = q at *
  generalize hr : num * 2 ^ k % den = r at *
  have hdr : (0 : ℝ) < den := by exact_mod_cast Nat.pos_of_ne_zero hd
  have hdivr : (den : ℝ) * q + r = num * 2 ^ k := by exact_mod_cast hdiv
  have hrr : (r : ℝ) < den := by exact_mod_cast hrlt
  have hz : (0 : ℝ) < 2 ^ (e - k - 1) := by positivity
  have hv : (num : ℝ) / den * 2 ^ e = (2 * q + 2 * (r / den)) * 2 ^ (e - (k : ℤ) - 1) := by
    have h1 : (2 : ℝ) ^ e = 2 ^ (e - (k : ℤ) - 1) * (2 * 2 ^ k) := by
      rw [← zpow_natCast, ← zpow_one_add₀ (by norm_num), ← zpow_add₀ (by norm_num)]
      congr 1
      ring
    have h2 : (num : ℝ) / den * (2 * 2 ^ k) = 2 * q + 2 * (r / den) := by
      field_simp
      linarith
    rw [h1, ← h2]
    ring
  apply f64Round_rounds
  · omega
  · rw [hv]
    by_cases h0 : r = 0
    · left
      rw [if_pos h0, h0]
      push_cast
      simp
    · right
      rw [if_neg h0]
      have hr0 : (0 : ℝ) < r := by exact_mod_cast Nat.pos_of_ne_zero h0
      have hp : 0 < (r : ℝ) / den := by positivity
      have hl : (r : ℝ) / den < 1 := by rwa [div_lt_one hdr]
      refine ⟨by omega, by omega, ?_, ?_⟩ <;> push_cast <;> nlinarith

/-! ### The integer square root -/

/-- Newton's iteration reaches the integer square root: the distance of the guess at least halves. -/
theorem isqrtFrom_eq (n fuel g : Nat) (hg : Nat.sqrt n ≤ g) (hf : g < Nat.sqrt n + 2 ^ fuel) :
    isqrtFrom n fuel g = Nat.sqrt n := by
  have h1 : Nat.sqrt n * Nat.sqrt n ≤ n := Nat.sqrt_le n
  have h2 : n < (Nat.sqrt n + 1) * (Nat.sqrt n + 1) := Nat.lt_succ_sqrt n
  generalize Nat.sqrt n = r at *
  induction fuel generalizing g with
  | zero => simp only [isqrtFrom]; omega
  | succ fuel ih =>
    simp only [isqrtFrom]
    by_cases hgr : g = r
    · have : r ≤ n / r := by
        by_cases h0 : r = 0
        · rw [h0]
          exact Nat.zero_le _
        · exact (Nat.le_div_iff_mul_le (Nat.pos_of_ne_zero h0)).mpr h1
      subst hgr
      generalize n / g = w at *
      exact if_neg (by omega)
    · have hg0 : 0 < g := by omega
      have hup : n / g ≤ r := by
        have : n / g < r + 1 := by
          rw [Nat.div_lt_iff_lt_mul hg0]
          exact lt_of_lt_of_le h2 (Nat.mul_le_mul_left _ (by omega))
        omega
      have hlo : 2 * r ≤ g + n / g := by
        by_cases h : 2 * r ≤ g
        · exact le_trans h (Nat.le_add_right _ _)
        · obtain ⟨c, hc⟩ : ∃ c, 2 * r = g + c := ⟨2 * r - g, by omega⟩
          have : c ≤ n / g := by
            rw [Nat.le_div_iff_mul_le hg0]
            have : c * g ≤ r * r := by
              zify at *
              nlinarith [sq_nonneg ((r : ℤ) - g)]
            omega
          omega
      generalize n / g = w at *
      have hlt : (g + w) / 2 < g := by omega
      rw [if_pos hlt]
      rw [Nat.pow_succ] at hf
      exact ih _ (by omega) (by omega)

theorem isqrt_eq (n : Nat) : isqrt n = Nat.sqrt n := by
  unfold isqrt
  split
  · rename_i h
    rw [h, Nat.sqrt_zero]
  · have hlt : n < 2 ^ (Nat.log2 n + 1) := Nat.lt_log2_self
    have hs : Nat.sqrt n < 2 ^ (Nat.log2 n / 2 + 1) := by
      rw [Nat.sqrt_lt, ← Nat.pow_add]
      exact lt_of_lt_of_le hlt (Nat.pow_le_pow_right (by norm_num) (by omega))
    have hp : 2 ^ (Nat.log2 n / 2 + 1) ≤ 2 ^ (Nat.log2 n + 2) := Nat.pow_le_pow_right (by norm_num) (by omega)
    have h0 : 0 < Nat.sqrt n := Nat.sqrt_pos.mpr (by omega)
    exact isqrtFrom_eq n _ _ (le_of_lt hs) (by omega)

end Sys2Proof.Laws
end

