-- ==== Sys2Proof/Laws/Memory.lean ====
section
/-! SUPPORT. The laws of the ring memory: what a write changes, and that it keeps the canonical form. -/

namespace Sys2Proof.Laws

open Sys2Proof.Machine

variable {V : Type}

@[simp] theorem read_nil (z : V) (k : Nat) : Memory.read z [] k = z := rfl

theorem read_cons (z : V) (a : Nat) (x : V) (m : Memory V) (k : Nat) :
    Memory.read z ((a, x) :: m) k = if a = k then x else Memory.read z m k := rfl

/-- A slot below every listed one reads what an unlisted slot reads. -/
theorem read_eq_default (z : V) (m : Memory V) (k : Nat) (h : ∀ c ∈ m, c.1 ≠ k) : Memory.read z m k = z := by
  induction m with
  | nil => rfl
  | cons c m ih =>
    obtain ⟨a, x⟩ := c
    have ha : a ≠ k := h (a, x) (by simp)
    rw [read_cons, if_neg ha]
    exact ih fun c hc => h c (by simp [hc])

variable [DecidableEq V]

theorem write_nil (z : V) (k : Nat) (v : V) :
    Memory.write z [] k v = if v = z then [] else [(k, v)] := rfl

theorem write_cons (z : V) (a : Nat) (x : V) (m : Memory V) (k : Nat) (v : V) :
    Memory.write z ((a, x) :: m) k v =
      if k < a then (if v = z then (a, x) :: m else (k, v) :: (a, x) :: m)
      else if k = a then (if v = z then m else (k, v) :: m)
      else (a, x) :: Memory.write z m k v := rfl

/-- A write leaves every other slot alone, whatever the form of the list. -/
theorem read_write_other (z : V) (m : Memory V) (k k' : Nat) (v : V) (h : k' ≠ k) :
    Memory.read z (Memory.write z m k v) k' = Memory.read z m k' := by
  induction m with
  | nil =>
    rw [write_nil]
    split
    · rfl
    · rw [read_cons, if_neg (Ne.symm h)]
  | cons c m ih =>
    obtain ⟨a, x⟩ := c
    rw [write_cons]
    split
    · split
      · rfl
      · rw [read_cons, if_neg (Ne.symm h)]
    · split
      · rename_i hka
        subst hka
        split
        · rw [read_cons, if_neg (Ne.symm h)]
        · rw [read_cons, read_cons, if_neg (Ne.symm h), if_neg (Ne.symm h)]
      · rw [read_cons, read_cons, ih]

/-- In a memory whose slots rise, the written slot reads the written value. -/
theorem read_write_same (z : V) (m : Memory V) (k : Nat) (v : V) (h : m.Pairwise (fun a b => a.1 < b.1)) :
    Memory.read z (Memory.write z m k v) k = v := by
  induction m with
  | nil =>
    rw [write_nil]
    split
    · simp_all
    · rw [read_cons, if_pos rfl]
  | cons c m ih =>
    obtain ⟨a, x⟩ := c
    obtain ⟨hhead, htail⟩ := List.pairwise_cons.1 h
    rw [write_cons]
    split
    · rename_i hka
      split
      · rename_i hv
        rw [hv]
        refine read_eq_default z _ k ?_
        rintro c hc
        rcases List.mem_cons.1 hc with rfl | hc
        · exact (Nat.ne_of_lt hka).symm
        · exact (Nat.ne_of_lt (Nat.lt_trans hka (hhead c hc))).symm
      · rw [read_cons, if_pos rfl]
    · split
      · rename_i hka
        split
        · rename_i hv
          rw [hv]
          refine read_eq_default z _ k fun c hc => ?_
          rw [hka]
          exact (Nat.ne_of_lt (hhead c hc)).symm
        · rw [read_cons, if_pos rfl]
      · rename_i hka
        rw [read_cons, if_neg (Ne.symm hka), ih htail]

/-- The listed slots after a write are the old ones and the written one. -/
theorem mem_write {z : V} {m : Memory V} {k : Nat} {v : V} {c : Nat × V} (h : c ∈ Memory.write z m k v) :
    c ∈ m ∨ (c = (k, v) ∧ v ≠ z) := by
  induction m with
  | nil =>
    rw [write_nil] at h
    split at h
    · simp at h
    · right
      exact ⟨by simpa using h, ‹_›⟩
  | cons d m ih =>
    obtain ⟨a, x⟩ := d
    rw [write_cons] at h
    split at h
    · split at h
      · exact Or.inl h
      · rcases List.mem_cons.1 h with h | h
        · exact Or.inr ⟨h, ‹_›⟩
        · exact Or.inl h
    · split at h
      · split at h
        · exact Or.inl (List.mem_cons_of_mem _ h)
        · rcases List.mem_cons.1 h with h | h
          · exact Or.inr ⟨h, ‹_›⟩
          · exact Or.inl (List.mem_cons_of_mem _ h)
      · rcases List.mem_cons.1 h with h | h
        · exact Or.inl (h ▸ List.mem_cons_self ..)
        · rcases ih h with h | h
          · exact Or.inl (List.mem_cons_of_mem _ h)
          · exact Or.inr h

/-- A write keeps the slots strictly rising. -/
theorem write_rising (z : V) (m : Memory V) (k : Nat) (v : V) (h : m.Pairwise (fun a b => a.1 < b.1)) :
    (Memory.write z m k v).Pairwise (fun a b => a.1 < b.1) := by
  induction m with
  | nil =>
    rw [write_nil]
    split <;> simp
  | cons c m ih =>
    obtain ⟨a, x⟩ := c
    obtain ⟨hhead, htail⟩ := List.pairwise_cons.1 h
    rw [write_cons]
    split
    · rename_i hka
      split
      · exact h
      · refine List.pairwise_cons.2 ⟨fun c hc => ?_, h⟩
        rcases List.mem_cons.1 hc with rfl | hc
        · exact hka
        · exact Nat.lt_trans hka (hhead c hc)
    · split
      · rename_i hka
        split
        · exact htail
        · refine List.pairwise_cons.2 ⟨fun c hc => ?_, htail⟩
          exact hka ▸ hhead c hc
      · rename_i hlt hne
        refine List.pairwise_cons.2 ⟨fun c hc => ?_, ih htail⟩
        rcases mem_write hc with hc | ⟨rfl, -⟩
        · exact hhead c hc
        · exact Nat.lt_of_le_of_ne (Nat.le_of_not_lt hlt) (Ne.symm hne)

/-- Every write keeps the canonical form. -/
theorem write_wf (z : V) (m : Memory V) (k : Nat) (v : V) (h : Memory.wf z m) :
    Memory.wf z (Memory.write z m k v) := by
  refine ⟨write_rising z m k v h.1, fun c hc => ?_⟩
  rcases mem_write hc with hc | ⟨rfl, hv⟩
  · exact h.2 c hc
  · exact hv

/-- A write inside the ring keeps every listed slot inside it. -/
theorem write_within (z : V) (n : Nat) (m : Memory V) (k : Nat) (v : V) (h : Memory.within n m) (hk : k < n) :
    Memory.within n (Memory.write z m k v) := by
  intro c hc
  rcases mem_write hc with hc | ⟨rfl, -⟩
  · exact h c hc
  · exact hk

omit [DecidableEq V] in
/-- In the canonical form, equal contents are equal lists: the list is a function of what its slots read. -/
theorem wf_ext (z : V) (m m' : Memory V) (h : Memory.wf z m) (h' : Memory.wf z m')
    (e : ∀ k, Memory.read z m k = Memory.read z m' k) : m = m' := by
  induction m generalizing m' with
  | nil =>
    cases m' with
    | nil => rfl
    | cons c m' =>
      have := e c.1
      rw [read_nil, read_cons, if_pos rfl] at this
      exact absurd this.symm (h'.2 c (by simp))
  | cons c m ih =>
    obtain ⟨a, x⟩ := c
    obtain ⟨hhead, htail⟩ := List.pairwise_cons.1 h.1
    have hx : x ≠ z := h.2 (a, x) (by simp)
    cases m' with
    | nil =>
      have := e a
      rw [read_nil, read_cons, if_pos rfl] at this
      exact absurd this hx
    | cons d m' =>
      obtain ⟨b, y⟩ := d
      obtain ⟨hhead', htail'⟩ := List.pairwise_cons.1 h'.1
      have hy : y ≠ z := h'.2 (b, y) (by simp)
      have hab : a = b := by
        rcases Nat.lt_trichotomy a b with hlt | heq | hlt
        · have := e a
          rw [read_cons, if_pos rfl, read_eq_default z ((b, y) :: m') a] at this
          · exact absurd this hx
          · rintro c hc
            rcases List.mem_cons.1 hc with rfl | hc
            · exact (Nat.ne_of_lt hlt).symm
            · exact (Nat.ne_of_lt (Nat.lt_trans hlt (hhead' c hc))).symm
        · exact heq
        · have := e b
          rw [read_eq_default z ((a, x) :: m) b, read_cons, if_pos rfl] at this
          · exact absurd this.symm hy
          · rintro c hc
            rcases List.mem_cons.1 hc with rfl | hc
            · exact (Nat.ne_of_lt hlt).symm
            · exact (Nat.ne_of_lt (Nat.lt_trans hlt (hhead c hc))).symm
      subst hab
      have hxy : x = y := by
        have := e a
        rwa [read_cons, read_cons, if_pos rfl, if_pos rfl] at this
      subst hxy
      congr 1
      refine ih m' ⟨htail, fun c hc => h.2 c (List.mem_cons_of_mem _ hc)⟩
        ⟨htail', fun c hc => h'.2 c (List.mem_cons_of_mem _ hc)⟩ fun k => ?_
      by_cases hk : a = k
      · subst hk
        rw [read_eq_default z m a fun c hc => (Nat.ne_of_lt (hhead c hc)).symm,
          read_eq_default z m' a fun c hc => (Nat.ne_of_lt (hhead' c hc)).symm]
      · have := e k
        rwa [read_cons, read_cons, if_neg hk, if_neg hk] at this

end Sys2Proof.Laws
end

