-- ==== Sys2Proof/Laws/State.lean ====
section
/-! SUPPORT. One lemma per field and update of the state, and one per operation of the block that leaves a whole part of
it alone; all true by definition. -/

namespace Sys2Proof.Laws

open Sys2Proof.Machine

/-! ### Updates of the whole state -/

@[simp] theorem put_blk (s : State) (b : Block F64) (l : Label) : (s.put b l).blk = b := rfl
@[simp] theorem put_label (s : State) (b : Block F64) (l : Label) : (s.put b l).label = l := rfl
@[simp] theorem put_input (s : State) (b : Block F64) (l : Label) : (s.put b l).input = s.input := rfl
@[simp] theorem put_now (s : State) (b : Block F64) (l : Label) : (s.put b l).now = s.now := rfl

@[simp] theorem present_blk (c : Code) (s : State) : (present c s).blk = s.blk := rfl
@[simp] theorem present_label (c : Code) (s : State) : (present c s).label = s.label := rfl
@[simp] theorem present_input (c : Code) (s : State) : (present c s).input = ⟨.code c, s.now⟩ :: s.input := rfl
@[simp] theorem present_now (c : Code) (s : State) : (present c s).now = s.now := rfl

/-! ### Updates of the block

`arch` is what persists, `lat` is local to a step. -/

variable {V : Type}

@[simp] theorem opCenter_arch (C : Cfg V) (b : Block V) : (opCenter C b).arch = b.arch := rfl

@[simp] theorem opLpfI_fq (C : Cfg V) (b : Block V) : (opLpfI C b).arch.fq = b.arch.fq := rfl
@[simp] theorem opLpfI_fd (C : Cfg V) (b : Block V) : (opLpfI C b).arch.fd = b.arch.fd := rfl
@[simp] theorem opLpfI_ip (C : Cfg V) (b : Block V) : (opLpfI C b).arch.ip = b.arch.ip := rfl
@[simp] theorem opLpfI_qp (C : Cfg V) (b : Block V) : (opLpfI C b).arch.qp = b.arch.qp := rfl
@[simp] theorem opLpfI_dring (C : Cfg V) (b : Block V) : (opLpfI C b).arch.dring = b.arch.dring := rfl
@[simp] theorem opLpfI_mring (C : Cfg V) (b : Block V) : (opLpfI C b).arch.mring = b.arch.mring := rfl
@[simp] theorem opLpfI_wr (C : Cfg V) (b : Block V) : (opLpfI C b).arch.wr = b.arch.wr := rfl
@[simp] theorem opLpfI_sum (C : Cfg V) (b : Block V) : (opLpfI C b).arch.sum = b.arch.sum := rfl
@[simp] theorem opLpfI_skip (C : Cfg V) (b : Block V) : (opLpfI C b).arch.skip = b.arch.skip := rfl
@[simp] theorem opLpfI_phase (C : Cfg V) (b : Block V) : (opLpfI C b).arch.phase = b.arch.phase := rfl
@[simp] theorem opLpfI_ihold (C : Cfg V) (b : Block V) : (opLpfI C b).arch.ihold = b.arch.ihold := rfl
@[simp] theorem opLpfI_run (C : Cfg V) (b : Block V) : (opLpfI C b).arch.run = b.arch.run := rfl
@[simp] theorem opLpfI_outValid (C : Cfg V) (b : Block V) : (opLpfI C b).arch.outValid = b.arch.outValid := rfl
@[simp] theorem opLpfI_outLen (C : Cfg V) (b : Block V) : (opLpfI C b).arch.outLen = b.arch.outLen := rfl
@[simp] theorem opLpfI_outData (C : Cfg V) (b : Block V) : (opLpfI C b).arch.outData = b.arch.outData := rfl
@[simp] theorem opLpfI_outRssi (C : Cfg V) (b : Block V) : (opLpfI C b).arch.outRssi = b.arch.outRssi := rfl
@[simp] theorem opLpfI_outTime (C : Cfg V) (b : Block V) : (opLpfI C b).arch.outTime = b.arch.outTime := rfl
@[simp] theorem opLpfI_out (C : Cfg V) (b : Block V) : (opLpfI C b).arch.out = b.arch.out := rfl

@[simp] theorem opLpfQ_fi (C : Cfg V) (b : Block V) : (opLpfQ C b).arch.fi = b.arch.fi := rfl
@[simp] theorem opLpfQ_fd (C : Cfg V) (b : Block V) : (opLpfQ C b).arch.fd = b.arch.fd := rfl
@[simp] theorem opLpfQ_ip (C : Cfg V) (b : Block V) : (opLpfQ C b).arch.ip = b.arch.ip := rfl
@[simp] theorem opLpfQ_qp (C : Cfg V) (b : Block V) : (opLpfQ C b).arch.qp = b.arch.qp := rfl
@[simp] theorem opLpfQ_dring (C : Cfg V) (b : Block V) : (opLpfQ C b).arch.dring = b.arch.dring := rfl
@[simp] theorem opLpfQ_mring (C : Cfg V) (b : Block V) : (opLpfQ C b).arch.mring = b.arch.mring := rfl
@[simp] theorem opLpfQ_wr (C : Cfg V) (b : Block V) : (opLpfQ C b).arch.wr = b.arch.wr := rfl
@[simp] theorem opLpfQ_sum (C : Cfg V) (b : Block V) : (opLpfQ C b).arch.sum = b.arch.sum := rfl
@[simp] theorem opLpfQ_skip (C : Cfg V) (b : Block V) : (opLpfQ C b).arch.skip = b.arch.skip := rfl
@[simp] theorem opLpfQ_phase (C : Cfg V) (b : Block V) : (opLpfQ C b).arch.phase = b.arch.phase := rfl
@[simp] theorem opLpfQ_ihold (C : Cfg V) (b : Block V) : (opLpfQ C b).arch.ihold = b.arch.ihold := rfl
@[simp] theorem opLpfQ_run (C : Cfg V) (b : Block V) : (opLpfQ C b).arch.run = b.arch.run := rfl
@[simp] theorem opLpfQ_outValid (C : Cfg V) (b : Block V) : (opLpfQ C b).arch.outValid = b.arch.outValid := rfl
@[simp] theorem opLpfQ_outLen (C : Cfg V) (b : Block V) : (opLpfQ C b).arch.outLen = b.arch.outLen := rfl
@[simp] theorem opLpfQ_outData (C : Cfg V) (b : Block V) : (opLpfQ C b).arch.outData = b.arch.outData := rfl
@[simp] theorem opLpfQ_outRssi (C : Cfg V) (b : Block V) : (opLpfQ C b).arch.outRssi = b.arch.outRssi := rfl
@[simp] theorem opLpfQ_outTime (C : Cfg V) (b : Block V) : (opLpfQ C b).arch.outTime = b.arch.outTime := rfl
@[simp] theorem opLpfQ_out (C : Cfg V) (b : Block V) : (opLpfQ C b).arch.out = b.arch.out := rfl

@[simp] theorem opMag_arch (C : Cfg V) (b : Block V) : (opMag C b).arch = b.arch := rfl

@[simp] theorem opDisc_arch (C : Cfg V) (b : Block V) : (opDisc C b).arch = b.arch := rfl

@[simp] theorem opLpfD_fi (C : Cfg V) (b : Block V) : (opLpfD C b).arch.fi = b.arch.fi := rfl
@[simp] theorem opLpfD_fq (C : Cfg V) (b : Block V) : (opLpfD C b).arch.fq = b.arch.fq := rfl
@[simp] theorem opLpfD_ip (C : Cfg V) (b : Block V) : (opLpfD C b).arch.ip = b.arch.ip := rfl
@[simp] theorem opLpfD_qp (C : Cfg V) (b : Block V) : (opLpfD C b).arch.qp = b.arch.qp := rfl
@[simp] theorem opLpfD_dring (C : Cfg V) (b : Block V) : (opLpfD C b).arch.dring = b.arch.dring := rfl
@[simp] theorem opLpfD_mring (C : Cfg V) (b : Block V) : (opLpfD C b).arch.mring = b.arch.mring := rfl
@[simp] theorem opLpfD_wr (C : Cfg V) (b : Block V) : (opLpfD C b).arch.wr = b.arch.wr := rfl
@[simp] theorem opLpfD_sum (C : Cfg V) (b : Block V) : (opLpfD C b).arch.sum = b.arch.sum := rfl
@[simp] theorem opLpfD_skip (C : Cfg V) (b : Block V) : (opLpfD C b).arch.skip = b.arch.skip := rfl
@[simp] theorem opLpfD_phase (C : Cfg V) (b : Block V) : (opLpfD C b).arch.phase = b.arch.phase := rfl
@[simp] theorem opLpfD_ihold (C : Cfg V) (b : Block V) : (opLpfD C b).arch.ihold = b.arch.ihold := rfl
@[simp] theorem opLpfD_run (C : Cfg V) (b : Block V) : (opLpfD C b).arch.run = b.arch.run := rfl
@[simp] theorem opLpfD_outValid (C : Cfg V) (b : Block V) : (opLpfD C b).arch.outValid = b.arch.outValid := rfl
@[simp] theorem opLpfD_outLen (C : Cfg V) (b : Block V) : (opLpfD C b).arch.outLen = b.arch.outLen := rfl
@[simp] theorem opLpfD_outData (C : Cfg V) (b : Block V) : (opLpfD C b).arch.outData = b.arch.outData := rfl
@[simp] theorem opLpfD_outRssi (C : Cfg V) (b : Block V) : (opLpfD C b).arch.outRssi = b.arch.outRssi := rfl
@[simp] theorem opLpfD_outTime (C : Cfg V) (b : Block V) : (opLpfD C b).arch.outTime = b.arch.outTime := rfl
@[simp] theorem opLpfD_out (C : Cfg V) (b : Block V) : (opLpfD C b).arch.out = b.arch.out := rfl

@[simp] theorem opPrev_fi (b : Block V) : (opPrev b).arch.fi = b.arch.fi := rfl
@[simp] theorem opPrev_fq (b : Block V) : (opPrev b).arch.fq = b.arch.fq := rfl
@[simp] theorem opPrev_fd (b : Block V) : (opPrev b).arch.fd = b.arch.fd := rfl
@[simp] theorem opPrev_dring (b : Block V) : (opPrev b).arch.dring = b.arch.dring := rfl
@[simp] theorem opPrev_mring (b : Block V) : (opPrev b).arch.mring = b.arch.mring := rfl
@[simp] theorem opPrev_wr (b : Block V) : (opPrev b).arch.wr = b.arch.wr := rfl
@[simp] theorem opPrev_sum (b : Block V) : (opPrev b).arch.sum = b.arch.sum := rfl
@[simp] theorem opPrev_skip (b : Block V) : (opPrev b).arch.skip = b.arch.skip := rfl
@[simp] theorem opPrev_phase (b : Block V) : (opPrev b).arch.phase = b.arch.phase := rfl
@[simp] theorem opPrev_ihold (b : Block V) : (opPrev b).arch.ihold = b.arch.ihold := rfl
@[simp] theorem opPrev_run (b : Block V) : (opPrev b).arch.run = b.arch.run := rfl
@[simp] theorem opPrev_outValid (b : Block V) : (opPrev b).arch.outValid = b.arch.outValid := rfl
@[simp] theorem opPrev_outLen (b : Block V) : (opPrev b).arch.outLen = b.arch.outLen := rfl
@[simp] theorem opPrev_outData (b : Block V) : (opPrev b).arch.outData = b.arch.outData := rfl
@[simp] theorem opPrev_outRssi (b : Block V) : (opPrev b).arch.outRssi = b.arch.outRssi := rfl
@[simp] theorem opPrev_outTime (b : Block V) : (opPrev b).arch.outTime = b.arch.outTime := rfl
@[simp] theorem opPrev_out (b : Block V) : (opPrev b).arch.out = b.arch.out := rfl
@[simp] theorem opPrev_lat (b : Block V) : (opPrev b).lat = b.lat := rfl

@[simp] theorem opRingPush_fi [DecidableEq V] (C : Cfg V) (b : Block V) : (opRingPush C b).arch.fi = b.arch.fi := rfl
@[simp] theorem opRingPush_fq [DecidableEq V] (C : Cfg V) (b : Block V) : (opRingPush C b).arch.fq = b.arch.fq := rfl
@[simp] theorem opRingPush_fd [DecidableEq V] (C : Cfg V) (b : Block V) : (opRingPush C b).arch.fd = b.arch.fd := rfl
@[simp] theorem opRingPush_ip [DecidableEq V] (C : Cfg V) (b : Block V) : (opRingPush C b).arch.ip = b.arch.ip := rfl
@[simp] theorem opRingPush_qp [DecidableEq V] (C : Cfg V) (b : Block V) : (opRingPush C b).arch.qp = b.arch.qp := rfl
@[simp] theorem opRingPush_sum [DecidableEq V] (C : Cfg V) (b : Block V) : (opRingPush C b).arch.sum = b.arch.sum := rfl
@[simp] theorem opRingPush_skip [DecidableEq V] (C : Cfg V) (b : Block V) : (opRingPush C b).arch.skip = b.arch.skip := rfl
@[simp] theorem opRingPush_phase [DecidableEq V] (C : Cfg V) (b : Block V) : (opRingPush C b).arch.phase = b.arch.phase := rfl
@[simp] theorem opRingPush_ihold [DecidableEq V] (C : Cfg V) (b : Block V) : (opRingPush C b).arch.ihold = b.arch.ihold := rfl
@[simp] theorem opRingPush_run [DecidableEq V] (C : Cfg V) (b : Block V) : (opRingPush C b).arch.run = b.arch.run := rfl
@[simp] theorem opRingPush_outValid [DecidableEq V] (C : Cfg V) (b : Block V) : (opRingPush C b).arch.outValid = b.arch.outValid := rfl
@[simp] theorem opRingPush_outLen [DecidableEq V] (C : Cfg V) (b : Block V) : (opRingPush C b).arch.outLen = b.arch.outLen := rfl
@[simp] theorem opRingPush_outData [DecidableEq V] (C : Cfg V) (b : Block V) : (opRingPush C b).arch.outData = b.arch.outData := rfl
@[simp] theorem opRingPush_outRssi [DecidableEq V] (C : Cfg V) (b : Block V) : (opRingPush C b).arch.outRssi = b.arch.outRssi := rfl
@[simp] theorem opRingPush_outTime [DecidableEq V] (C : Cfg V) (b : Block V) : (opRingPush C b).arch.outTime = b.arch.outTime := rfl
@[simp] theorem opRingPush_out [DecidableEq V] (C : Cfg V) (b : Block V) : (opRingPush C b).arch.out = b.arch.out := rfl

@[simp] theorem opThrUpd_fi (C : Cfg V) (b : Block V) : (opThrUpd C b).arch.fi = b.arch.fi := rfl
@[simp] theorem opThrUpd_fq (C : Cfg V) (b : Block V) : (opThrUpd C b).arch.fq = b.arch.fq := rfl
@[simp] theorem opThrUpd_fd (C : Cfg V) (b : Block V) : (opThrUpd C b).arch.fd = b.arch.fd := rfl
@[simp] theorem opThrUpd_ip (C : Cfg V) (b : Block V) : (opThrUpd C b).arch.ip = b.arch.ip := rfl
@[simp] theorem opThrUpd_qp (C : Cfg V) (b : Block V) : (opThrUpd C b).arch.qp = b.arch.qp := rfl
@[simp] theorem opThrUpd_dring (C : Cfg V) (b : Block V) : (opThrUpd C b).arch.dring = b.arch.dring := rfl
@[simp] theorem opThrUpd_mring (C : Cfg V) (b : Block V) : (opThrUpd C b).arch.mring = b.arch.mring := rfl
@[simp] theorem opThrUpd_wr (C : Cfg V) (b : Block V) : (opThrUpd C b).arch.wr = b.arch.wr := rfl
@[simp] theorem opThrUpd_skip (C : Cfg V) (b : Block V) : (opThrUpd C b).arch.skip = b.arch.skip := rfl
@[simp] theorem opThrUpd_phase (C : Cfg V) (b : Block V) : (opThrUpd C b).arch.phase = b.arch.phase := rfl
@[simp] theorem opThrUpd_ihold (C : Cfg V) (b : Block V) : (opThrUpd C b).arch.ihold = b.arch.ihold := rfl
@[simp] theorem opThrUpd_run (C : Cfg V) (b : Block V) : (opThrUpd C b).arch.run = b.arch.run := rfl
@[simp] theorem opThrUpd_outValid (C : Cfg V) (b : Block V) : (opThrUpd C b).arch.outValid = b.arch.outValid := rfl
@[simp] theorem opThrUpd_outLen (C : Cfg V) (b : Block V) : (opThrUpd C b).arch.outLen = b.arch.outLen := rfl
@[simp] theorem opThrUpd_outData (C : Cfg V) (b : Block V) : (opThrUpd C b).arch.outData = b.arch.outData := rfl
@[simp] theorem opThrUpd_outRssi (C : Cfg V) (b : Block V) : (opThrUpd C b).arch.outRssi = b.arch.outRssi := rfl
@[simp] theorem opThrUpd_outTime (C : Cfg V) (b : Block V) : (opThrUpd C b).arch.outTime = b.arch.outTime := rfl
@[simp] theorem opThrUpd_out (C : Cfg V) (b : Block V) : (opThrUpd C b).arch.out = b.arch.out := rfl
@[simp] theorem opThrUpd_lat (C : Cfg V) (b : Block V) : (opThrUpd C b).lat = b.lat := rfl

@[simp] theorem opThrDiv_arch (C : Cfg V) (b : Block V) : (opThrDiv C b).arch = b.arch := rfl

@[simp] theorem opDecInit_arch (C : Cfg V) (b : Block V) : (opDecInit C b).arch = b.arch := rfl

@[simp] theorem classifyBit_arch (C : Cfg V) (b : Block V) : (classifyBit C b).arch = b.arch := rfl

@[simp] theorem opCrcUpd_arch (C : Cfg V) (b : Block V) : (opCrcUpd C b).arch = b.arch := rfl

@[simp] theorem opRssi_arch (C : Cfg V) (b : Block V) : (opRssi C b).arch = b.arch := rfl

@[simp] theorem opTstamp_arch (C : Cfg V) (now : BitVec 64) (b : Block V) : (opTstamp C now b).arch = b.arch := rfl

@[simp] theorem opEmit_fi (b : Block V) : (opEmit b).arch.fi = b.arch.fi := rfl
@[simp] theorem opEmit_fq (b : Block V) : (opEmit b).arch.fq = b.arch.fq := rfl
@[simp] theorem opEmit_fd (b : Block V) : (opEmit b).arch.fd = b.arch.fd := rfl
@[simp] theorem opEmit_ip (b : Block V) : (opEmit b).arch.ip = b.arch.ip := rfl
@[simp] theorem opEmit_qp (b : Block V) : (opEmit b).arch.qp = b.arch.qp := rfl
@[simp] theorem opEmit_dring (b : Block V) : (opEmit b).arch.dring = b.arch.dring := rfl
@[simp] theorem opEmit_mring (b : Block V) : (opEmit b).arch.mring = b.arch.mring := rfl
@[simp] theorem opEmit_wr (b : Block V) : (opEmit b).arch.wr = b.arch.wr := rfl
@[simp] theorem opEmit_sum (b : Block V) : (opEmit b).arch.sum = b.arch.sum := rfl
@[simp] theorem opEmit_skip (b : Block V) : (opEmit b).arch.skip = b.arch.skip := rfl
@[simp] theorem opEmit_phase (b : Block V) : (opEmit b).arch.phase = b.arch.phase := rfl
@[simp] theorem opEmit_ihold (b : Block V) : (opEmit b).arch.ihold = b.arch.ihold := rfl
@[simp] theorem opEmit_run (b : Block V) : (opEmit b).arch.run = b.arch.run := rfl
@[simp] theorem opEmit_lat (b : Block V) : (opEmit b).lat = b.lat := rfl

@[simp] theorem opSkipSet_fi (C : Cfg V) (b : Block V) : (opSkipSet C b).arch.fi = b.arch.fi := rfl
@[simp] theorem opSkipSet_fq (C : Cfg V) (b : Block V) : (opSkipSet C b).arch.fq = b.arch.fq := rfl
@[simp] theorem opSkipSet_fd (C : Cfg V) (b : Block V) : (opSkipSet C b).arch.fd = b.arch.fd := rfl
@[simp] theorem opSkipSet_ip (C : Cfg V) (b : Block V) : (opSkipSet C b).arch.ip = b.arch.ip := rfl
@[simp] theorem opSkipSet_qp (C : Cfg V) (b : Block V) : (opSkipSet C b).arch.qp = b.arch.qp := rfl
@[simp] theorem opSkipSet_dring (C : Cfg V) (b : Block V) : (opSkipSet C b).arch.dring = b.arch.dring := rfl
@[simp] theorem opSkipSet_mring (C : Cfg V) (b : Block V) : (opSkipSet C b).arch.mring = b.arch.mring := rfl
@[simp] theorem opSkipSet_wr (C : Cfg V) (b : Block V) : (opSkipSet C b).arch.wr = b.arch.wr := rfl
@[simp] theorem opSkipSet_sum (C : Cfg V) (b : Block V) : (opSkipSet C b).arch.sum = b.arch.sum := rfl
@[simp] theorem opSkipSet_phase (C : Cfg V) (b : Block V) : (opSkipSet C b).arch.phase = b.arch.phase := rfl
@[simp] theorem opSkipSet_ihold (C : Cfg V) (b : Block V) : (opSkipSet C b).arch.ihold = b.arch.ihold := rfl
@[simp] theorem opSkipSet_run (C : Cfg V) (b : Block V) : (opSkipSet C b).arch.run = b.arch.run := rfl
@[simp] theorem opSkipSet_outValid (C : Cfg V) (b : Block V) : (opSkipSet C b).arch.outValid = b.arch.outValid := rfl
@[simp] theorem opSkipSet_outLen (C : Cfg V) (b : Block V) : (opSkipSet C b).arch.outLen = b.arch.outLen := rfl
@[simp] theorem opSkipSet_outData (C : Cfg V) (b : Block V) : (opSkipSet C b).arch.outData = b.arch.outData := rfl
@[simp] theorem opSkipSet_outRssi (C : Cfg V) (b : Block V) : (opSkipSet C b).arch.outRssi = b.arch.outRssi := rfl
@[simp] theorem opSkipSet_outTime (C : Cfg V) (b : Block V) : (opSkipSet C b).arch.outTime = b.arch.outTime := rfl
@[simp] theorem opSkipSet_out (C : Cfg V) (b : Block V) : (opSkipSet C b).arch.out = b.arch.out := rfl
@[simp] theorem opSkipSet_lat (C : Cfg V) (b : Block V) : (opSkipSet C b).lat = b.lat := rfl

@[simp] theorem clearValid_fi (b : Block V) : (clearValid b).arch.fi = b.arch.fi := rfl
@[simp] theorem clearValid_fq (b : Block V) : (clearValid b).arch.fq = b.arch.fq := rfl
@[simp] theorem clearValid_fd (b : Block V) : (clearValid b).arch.fd = b.arch.fd := rfl
@[simp] theorem clearValid_ip (b : Block V) : (clearValid b).arch.ip = b.arch.ip := rfl
@[simp] theorem clearValid_qp (b : Block V) : (clearValid b).arch.qp = b.arch.qp := rfl
@[simp] theorem clearValid_dring (b : Block V) : (clearValid b).arch.dring = b.arch.dring := rfl
@[simp] theorem clearValid_mring (b : Block V) : (clearValid b).arch.mring = b.arch.mring := rfl
@[simp] theorem clearValid_wr (b : Block V) : (clearValid b).arch.wr = b.arch.wr := rfl
@[simp] theorem clearValid_sum (b : Block V) : (clearValid b).arch.sum = b.arch.sum := rfl
@[simp] theorem clearValid_skip (b : Block V) : (clearValid b).arch.skip = b.arch.skip := rfl
@[simp] theorem clearValid_phase (b : Block V) : (clearValid b).arch.phase = b.arch.phase := rfl
@[simp] theorem clearValid_ihold (b : Block V) : (clearValid b).arch.ihold = b.arch.ihold := rfl
@[simp] theorem clearValid_run (b : Block V) : (clearValid b).arch.run = b.arch.run := rfl
@[simp] theorem clearValid_outLen (b : Block V) : (clearValid b).arch.outLen = b.arch.outLen := rfl
@[simp] theorem clearValid_outData (b : Block V) : (clearValid b).arch.outData = b.arch.outData := rfl
@[simp] theorem clearValid_outRssi (b : Block V) : (clearValid b).arch.outRssi = b.arch.outRssi := rfl
@[simp] theorem clearValid_outTime (b : Block V) : (clearValid b).arch.outTime = b.arch.outTime := rfl
@[simp] theorem clearValid_out (b : Block V) : (clearValid b).arch.out = b.arch.out := rfl
@[simp] theorem clearValid_lat (b : Block V) : (clearValid b).lat = b.lat := rfl

end Sys2Proof.Laws
end

