-- ==== Sys2Proof/Laws/Ops.lean ====
section
/-! SUPPORT. One lemma per shared operation that says everything it can do: the ring primitives, the operations that may
end a step, and the byte buffer. -/

namespace Sys2Proof.Laws

open Sys2Proof.Machine

variable {V : Type}

/-! ### The rings -/

@[simp] theorem ringWrite_wr [DecidableEq V] (C : Cfg V) (d m : V) (a : Arch V) :
    (ringWrite C d m a).wr = (a.wr + 1) % C.par.n := rfl

/-- RING.PUSH keeps the memories in form. -/
theorem opRingPush_memOk [DecidableEq V] (C : Cfg V) (b : Block V) (h : b.arch.wr < C.par.n)
    (hd : Memory.wf C.zero b.arch.dring) (hm : Memory.wf C.zero b.arch.mring)
    (wd : Memory.within C.par.n b.arch.dring) (wm : Memory.within C.par.n b.arch.mring) :
    Memory.wf C.zero (opRingPush C b).arch.dring ∧ Memory.wf C.zero (opRingPush C b).arch.mring ∧
    Memory.within C.par.n (opRingPush C b).arch.dring ∧ Memory.within C.par.n (opRingPush C b).arch.mring ∧
    (opRingPush C b).arch.wr < C.par.n :=
  ⟨write_wf _ _ _ _ hd, write_wf _ _ _ _ hm, write_within _ _ _ _ _ wd h, write_within _ _ _ _ _ wm h,
    Nat.mod_lt _ (Nat.zero_lt_of_lt h)⟩

/-- The slot of an offset after the cursor advanced is the slot of the next offset before. -/
theorem slotAt_succ (C : Cfg V) (a a' : Arch V) (off : Nat) (h : a'.wr = (a.wr + 1) % C.par.n) :
    slotAt C a' off = slotAt C a (off + 1) := by
  unfold slotAt
  rw [h, Nat.mod_add_mod]
  congr 1
  omega

/-! ### Operations that may end the step -/

/-- SKIP.TICK ends the step exactly when SKIP is nonzero, and then only decrements it. -/
theorem opSkipTick_cases (b : Block V) :
    (b.arch.skip = 0 ∧ opSkipTick b = (b, none)) ∨
    (b.arch.skip ≠ 0 ∧ opSkipTick b =
      ({ b with arch.skip := b.arch.skip - 1 }, some .skipped)) := by
  unfold opSkipTick
  split
  · exact Or.inl ⟨‹_›, rfl⟩
  · exact Or.inr ⟨‹_›, rfl⟩

/-- CORR changes nothing; it ends the step unless the preamble matches. -/
theorem opCorr_cases (C : Cfg V) (b : Block V) :
    (preambleMatches C b.arch b.lat.thr = true ∧ opCorr C b = (b, none)) ∨
    (preambleMatches C b.arch b.lat.thr = false ∧ opCorr C b = (b, some .noMatch)) := by
  unfold opCorr
  cases h : preambleMatches C b.arch b.lat.thr <;> simp

/-- A symbol desynchronises without writing anything, or yields one bit. -/
theorem decodeSymbol_cases (C : Cfg V) (b : Block V) :
    (b.lat.m1 = b.lat.m2 ∧ decodeSymbol C b = (b, some .desync)) ∨
    (b.lat.m1 ≠ b.lat.m2 ∧ decodeSymbol C b =
      ({ b with
         lat.bit := if C.par.manOneIsHl then b.lat.m1 else b.lat.m2
         lat.nbits := b.lat.nbits + 1 }, none)) := by
  unfold decodeSymbol
  split
  · exact Or.inl ⟨‹_›, rfl⟩
  · exact Or.inr ⟨‹_›, rfl⟩

@[simp] theorem decodeSymbol_arch (C : Cfg V) (b : Block V) : (decodeSymbol C b).1.arch = b.arch := by
  rcases decodeSymbol_cases C b with ⟨-, h⟩ | ⟨-, h⟩ <;> rw [h]

@[simp] theorem opManBit_arch (C : Cfg V) (b : Block V) : (opManBit C b).1.arch = b.arch := decodeSymbol_arch C _

/-- BYTE.ACC off a byte boundary, and on one. -/
theorem opByteAcc_cases (b : Block V) :
    (b.lat.nbits % 8 ≠ 0 ∧ opByteAcc b = { b with lat.cur := shiftIn b.lat.cur b.lat.bit }) ∨
    (b.lat.nbits % 8 = 0 ∧ opByteAcc b =
      { b with
        lat.cur := shiftIn b.lat.cur b.lat.bit
        lat.buf := b.lat.buf.set b.lat.len.toNat (shiftIn b.lat.cur b.lat.bit)
        lat.len := b.lat.len + 1 }) := by
  unfold opByteAcc
  split
  · exact Or.inr ⟨‹_›, rfl⟩
  · exact Or.inl ⟨‹_›, rfl⟩

@[simp] theorem opByteAcc_arch (b : Block V) : (opByteAcc b).arch = b.arch := by
  rcases opByteAcc_cases b with ⟨-, h⟩ | ⟨-, h⟩ <;> rw [h]

@[simp] theorem opByteAcc_nbits (b : Block V) : (opByteAcc b).lat.nbits = b.lat.nbits := by
  rcases opByteAcc_cases b with ⟨-, h⟩ | ⟨-, h⟩ <;> rw [h]

@[simp] theorem opByteAcc_buf_length (b : Block V) : (opByteAcc b).lat.buf.length = b.lat.buf.length := by
  rcases opByteAcc_cases b with ⟨-, h⟩ | ⟨-, h⟩ <;> simp [h]

/-- LEN.CHK: the zero test first, then the length test. -/
theorem opLenChk_cases (C : Cfg V) (b : Block V) :
    (b.lat.crc = 0 ∧ opLenChk C b = .success) ∨
    (b.lat.crc ≠ 0 ∧ b.lat.len.toNat = C.par.maxBytes ∧ opLenChk C b = .overlen) ∨
    (b.lat.crc ≠ 0 ∧ b.lat.len.toNat ≠ C.par.maxBytes ∧ opLenChk C b = .goOn) := by
  unfold opLenChk lenVerdict
  by_cases h : b.lat.crc = 0
  · exact Or.inl ⟨h, by simp [h]⟩
  · by_cases h' : b.lat.len.toNat = C.par.maxBytes
    · exact Or.inr (Or.inl ⟨h, h', by rw [if_neg h, if_pos h']⟩)
    · exact Or.inr (Or.inr ⟨h, h', by rw [if_neg h, if_neg h']⟩)

/-! ### The byte buffer -/

/-- An entry that exists reads what it holds. -/
theorem bufRead_of_lt (l : Latch V) (k : Nat) (b : Byte) (h : l.buf[k]? = some b) : bufRead l k = b := by
  unfold bufRead
  rw [h]

/-- With LEN inside the buffer, the frame is the first LEN bytes. -/
theorem bufFrame_eq_take (l : Latch V) (h : l.len.toNat ≤ l.buf.length) : bufFrame l = l.buf.take l.len.toNat := by
  apply List.ext_getElem?
  intro k
  unfold bufFrame
  by_cases hk : k < l.len.toNat
  · have hb : k < l.buf.length := Nat.lt_of_lt_of_le hk h
    simp [hk, bufRead_of_lt l k l.buf[k] (List.getElem?_eq_getElem hb), List.getElem?_eq_getElem hb]
  · simp [hk]

@[simp] theorem loadOutData_length (old frame : List Byte) : (loadOutData old frame).length = old.length := by
  simp [loadOutData]
  omega

/-! ### The CRC register -/

@[simp] theorem crcBytes_nil (poly r : BitVec 16) : crcBytes poly r [] = r := rfl

@[simp] theorem crcBytes_cons (poly r : BitVec 16) (b : Byte) (bs : List Byte) :
    crcBytes poly r (b :: bs) = crcBytes poly (crcByte poly r b) bs := rfl

theorem crcBytes_append (poly r : BitVec 16) (bs cs : List Byte) :
    crcBytes poly r (bs ++ cs) = crcBytes poly (crcBytes poly r bs) cs := by
  simp [crcBytes]

end Sys2Proof.Laws
end

