-- ==== Sys2Proof/Laws/PerInstr.lean ====
section
/-! SUPPORT. Statements about every operation as syntax, one lemma per constructor. -/

namespace Sys2Proof.Laws

/-- An operation's word is a well-formed word of its own format and fits the format's width. -/
def EncodeFits.Statement (i : Instr) : Prop :=
  (encode i).format = i.format ∧ (encode i).toNat < 2 ^ i.format.width ∧ (encode i).wf = true

theorem EncodeFits.nop (d : Byte) : EncodeFits.Statement (.nop d) := ⟨rfl, BitVec.isLt _, rfl⟩

theorem EncodeFits.byte (d : Byte) : EncodeFits.Statement (.byte d) := ⟨rfl, BitVec.isLt _, rfl⟩

theorem EncodeFits.eos (d : Byte) : EncodeFits.Statement (.eos d) := ⟨rfl, BitVec.isLt _, rfl⟩

theorem EncodeFits.reset (d : Byte) : EncodeFits.Statement (.reset d) := ⟨rfl, BitVec.isLt _, rfl⟩

theorem EncodeFits.sample (i q : Byte) : EncodeFits.Statement (.sample i q) := ⟨rfl, BitVec.isLt _, rfl⟩

theorem EncodeFits.symHL : EncodeFits.Statement .symHL := ⟨rfl, BitVec.isLt _, rfl⟩

theorem EncodeFits.symLH : EncodeFits.Statement .symLH := ⟨rfl, BitVec.isLt _, rfl⟩

theorem EncodeFits.symLL : EncodeFits.Statement .symLL := ⟨rfl, BitVec.isLt _, rfl⟩

theorem EncodeFits.symHH : EncodeFits.Statement .symHH := ⟨rfl, BitVec.isLt _, rfl⟩

theorem EncodeFits.center : EncodeFits.Statement .center := ⟨rfl, BitVec.isLt _, rfl⟩

theorem EncodeFits.lpfI : EncodeFits.Statement .lpfI := ⟨rfl, BitVec.isLt _, rfl⟩

theorem EncodeFits.lpfQ : EncodeFits.Statement .lpfQ := ⟨rfl, BitVec.isLt _, rfl⟩

theorem EncodeFits.mag : EncodeFits.Statement .mag := ⟨rfl, BitVec.isLt _, rfl⟩

theorem EncodeFits.disc : EncodeFits.Statement .disc := ⟨rfl, BitVec.isLt _, rfl⟩

theorem EncodeFits.lpfD : EncodeFits.Statement .lpfD := ⟨rfl, BitVec.isLt _, rfl⟩

theorem EncodeFits.prev : EncodeFits.Statement .prev := ⟨rfl, BitVec.isLt _, rfl⟩

theorem EncodeFits.ringPush : EncodeFits.Statement .ringPush := ⟨rfl, BitVec.isLt _, rfl⟩

theorem EncodeFits.thrUpd : EncodeFits.Statement .thrUpd := ⟨rfl, BitVec.isLt _, rfl⟩

theorem EncodeFits.skipTick : EncodeFits.Statement .skipTick := ⟨rfl, BitVec.isLt _, rfl⟩

theorem EncodeFits.thrDiv : EncodeFits.Statement .thrDiv := ⟨rfl, BitVec.isLt _, rfl⟩

theorem EncodeFits.corr : EncodeFits.Statement .corr := ⟨rfl, BitVec.isLt _, rfl⟩

theorem EncodeFits.decInit : EncodeFits.Statement .decInit := ⟨rfl, BitVec.isLt _, rfl⟩

theorem EncodeFits.manBit : EncodeFits.Statement .manBit := ⟨rfl, BitVec.isLt _, rfl⟩

theorem EncodeFits.byteAcc : EncodeFits.Statement .byteAcc := ⟨rfl, BitVec.isLt _, rfl⟩

theorem EncodeFits.crcUpd : EncodeFits.Statement .crcUpd := ⟨rfl, BitVec.isLt _, rfl⟩

theorem EncodeFits.lenChk : EncodeFits.Statement .lenChk := ⟨rfl, BitVec.isLt _, rfl⟩

theorem EncodeFits.rssi : EncodeFits.Statement .rssi := ⟨rfl, BitVec.isLt _, rfl⟩

theorem EncodeFits.tstamp : EncodeFits.Statement .tstamp := ⟨rfl, BitVec.isLt _, rfl⟩

theorem EncodeFits.emit : EncodeFits.Statement .emit := ⟨rfl, BitVec.isLt _, rfl⟩

theorem EncodeFits.skipSet : EncodeFits.Statement .skipSet := ⟨rfl, BitVec.isLt _, rfl⟩

end Sys2Proof.Laws
end

