-- ==== Sys2Proof/Laws/Profile.lean ====
section
/-! SUPPORT. The parameters of the machine's own configuration (00_scope R6, column P0), one by one, and that the
configuration is a legal one. -/

namespace Sys2Proof.Machine

@[simp] theorem cfg_n : cfg.par.n = 8192 := rfl
@[simp] theorem cfg_sph : cfg.par.sph = 16 := rfl
@[simp] theorem cfg_spb : cfg.par.spb = 32 := rfl
@[simp] theorem cfg_preBits : cfg.par.preBits = 10 := rfl
@[simp] theorem cfg_preSyms : cfg.par.preSyms = 20 := rfl
@[simp] theorem cfg_manOneIsHl : cfg.par.manOneIsHl = true := rfl
@[simp] theorem cfg_symOfs : cfg.par.symOfs = 0 := rfl
@[simp] theorem cfg_maxBytes : cfg.par.maxBytes = 29 := rfl
@[simp] theorem cfg_w : cfg.par.w = 1088 := rfl
@[simp] theorem cfg_bias : cfg.par.bias = 128 := rfl
@[simp] theorem cfg_crcPoly : cfg.par.crcPoly = 0x1021#16 := rfl
@[simp] theorem cfg_crcInit : cfg.par.crcInit = 0xFFFF#16 := rfl
@[simp] theorem cfg_rssiOfs : cfg.par.rssiOfs = 0 := rfl
@[simp] theorem cfg_latencyUs : cfg.par.latencyUs = 5120 := rfl
@[simp] theorem cfg_skipInit : cfg.par.skipInit = 8192 := rfl

@[simp] theorem cfg_add : cfg.num.add = f64Add := rfl
@[simp] theorem cfg_sub : cfg.num.sub = f64Sub := rfl
@[simp] theorem cfg_mul : cfg.num.mul = f64Mul := rfl
@[simp] theorem cfg_div : cfg.num.div = f64Div := rfl
@[simp] theorem cfg_sqrt : cfg.num.sqrt = f64Sqrt := rfl
@[simp] theorem cfg_gt : cfg.num.gt = f64Gt := rfl
@[simp] theorem cfg_lt : cfg.num.lt = f64Lt := rfl
@[simp] theorem cfg_ofInt : cfg.num.ofInt = f64OfInt := rfl
@[simp] theorem cfg_log10 : cfg.num.log10 = f64Log10 := rfl

/-- THR.DIV's divisor. -/
theorem cfg_ofInt_w : cfg.num.ofInt cfg.par.w = f64OfInt 1088 := by simp

theorem cfg_zero : cfg.zero = 0 := by decide +kernel

end Sys2Proof.Machine
end

