-- ==== Sys2Proof/Laws/Schedule.lean ====
section
/-! SUPPORT. What the decode loop and a whole step can do, said once: the loop's frame, what its success means, and the
ways a step can end. -/

namespace Sys2Proof.Laws

open Sys2Proof.Machine

variable {V : Type}

/-! ### The decode loop -/

/-- The loop with passes left, as one equation over its operations. -/
theorem decodeLoop_succ (C : Cfg V) (n : Nat) (b : Block V) :
    decodeLoop C (n + 1) b =
      match opManBit C b with
      | (b, some o) => (b, some o)
      | (b, none) =>
        if (opByteAcc b).lat.nbits % 8 = 0 then
          match opLenChk C (opCrcUpd C (opByteAcc b)) with
          | .success => (opCrcUpd C (opByteAcc b), none)
          | .overlen => (opCrcUpd C (opByteAcc b), some .overlen)
          | .goOn => decodeLoop C n (opCrcUpd C (opByteAcc b))
        else decodeLoop C n (opByteAcc b) := rfl

/-- MAN.BIT ends the step only as DESYNC. -/
theorem opManBit_some {C : Cfg V} {b b' : Block V} {o : StepOutcome} (h : opManBit C b = (b', some o)) : o = .desync := by
  rcases decodeSymbol_cases C (classifyBit C b) with ⟨-, e⟩ | ⟨-, e⟩ <;>
    rw [show opManBit C b = _ from e] at h <;> simp_all

/-- One pass of the loop: it desynchronises; or it takes a bit inside a byte; or it completes a byte, and then succeeds,
abandons or goes on. -/
theorem decodeLoop_cases (C : Cfg V) (n : Nat) (b : Block V) :
    (∃ b', opManBit C b = (b', some .desync) ∧ decodeLoop C (n + 1) b = (b', some .desync)) ∨
    (∃ b', opManBit C b = (b', none) ∧ b'.lat.nbits % 8 ≠ 0 ∧
      decodeLoop C (n + 1) b = decodeLoop C n (opByteAcc b')) ∨
    (∃ b' c, opManBit C b = (b', none) ∧ b'.lat.nbits % 8 = 0 ∧ c = opCrcUpd C (opByteAcc b') ∧
      ((c.lat.crc = 0 ∧ decodeLoop C (n + 1) b = (c, none)) ∨
       (c.lat.crc ≠ 0 ∧ c.lat.len.toNat = C.par.maxBytes ∧ decodeLoop C (n + 1) b = (c, some .overlen)) ∨
       (c.lat.crc ≠ 0 ∧ c.lat.len.toNat ≠ C.par.maxBytes ∧ decodeLoop C (n + 1) b = decodeLoop C n c))) := by
  rw [decodeLoop_succ]
  rcases hm : opManBit C b with ⟨b', o⟩
  cases o with
  | some o => exact Or.inl (opManBit_some hm ▸ ⟨b', rfl, rfl⟩)
  | none =>
    by_cases h8 : b'.lat.nbits % 8 = 0
    · refine Or.inr (Or.inr ⟨b', _, rfl, h8, rfl, ?_⟩)
      simp only [opByteAcc_nbits, if_pos h8]
      rcases opLenChk_cases C (opCrcUpd C (opByteAcc b')) with ⟨hc, e⟩ | ⟨hc, hl, e⟩ | ⟨hc, hl, e⟩
      · exact Or.inl ⟨hc, by rw [e]⟩
      · exact Or.inr (Or.inl ⟨hc, hl, by rw [e]⟩)
      · exact Or.inr (Or.inr ⟨hc, hl, by rw [e]⟩)
    · exact Or.inr (Or.inl ⟨b', rfl, h8, by simp only [opByteAcc_nbits, if_neg h8]⟩)

theorem opManBit_none {C : Cfg V} {b b' : Block V} (h : opManBit C b = (b', none)) :
    b'.arch = b.arch ∧ b'.lat.nbits = b.lat.nbits + 1 ∧ b'.lat.buf = b.lat.buf ∧ b'.lat.len = b.lat.len ∧
    b'.lat.crc = b.lat.crc ∧ b'.lat.cur = b.lat.cur ∧ b'.lat.thr = b.lat.thr := by
  rcases decodeSymbol_cases C (classifyBit C b) with ⟨-, e⟩ | ⟨-, e⟩
  · rw [show opManBit C b = _ from e] at h
    simp at h
  · rw [show opManBit C b = _ from e, Prod.mk.injEq] at h
    obtain ⟨rfl, -⟩ := h
    exact ⟨rfl, rfl, rfl, rfl, rfl, rfl, rfl⟩

/-- The decode loop writes the candidate frame only. -/
@[simp] theorem decodeLoop_arch (C : Cfg V) (n : Nat) (b : Block V) : (decodeLoop C n b).1.arch = b.arch := by
  induction n generalizing b with
  | zero => rfl
  | succ n ih =>
    rcases decodeLoop_cases C n b with ⟨b', h, e⟩ | ⟨b', h, -, e⟩ | ⟨b', c, h, -, hc, hcase⟩
    · rw [e]
      have := opManBit_arch C b
      rwa [h] at this
    · rw [e, ih, opByteAcc_arch, (opManBit_none h).1]
    · have hca : c.arch = b.arch := by
        rw [hc, opCrcUpd_arch, opByteAcc_arch, (opManBit_none h).1]
      rcases hcase with ⟨-, e⟩ | ⟨-, -, e⟩ | ⟨-, -, e⟩
      · rw [e, hca]
      · rw [e, hca]
      · rw [e, ih, hca]

/-- The decode loop keeps the length of the byte buffer. -/
@[simp] theorem decodeLoop_buf_length (C : Cfg V) (n : Nat) (b : Block V) :
    (decodeLoop C n b).1.lat.buf.length = b.lat.buf.length := by
  induction n generalizing b with
  | zero => rfl
  | succ n ih =>
    rcases decodeLoop_cases C n b with ⟨b', h, e⟩ | ⟨b', h, -, e⟩ | ⟨b', c, h, -, hc, hcase⟩
    · rw [e]
      rcases decodeSymbol_cases C (classifyBit C b) with ⟨-, e'⟩ | ⟨-, e'⟩
      · rw [show opManBit C b = _ from e', Prod.mk.injEq] at h
        rw [← h.1]
        rfl
      · rw [show opManBit C b = _ from e'] at h
        simp at h
    · rw [e, ih, opByteAcc_buf_length, (opManBit_none h).2.2.1]
    · have hcb : c.lat.buf.length = b.lat.buf.length := by
        rw [hc]
        show (opByteAcc b').lat.buf.length = _
        rw [opByteAcc_buf_length, (opManBit_none h).2.2.1]
      rcases hcase with ⟨-, e⟩ | ⟨-, -, e⟩ | ⟨-, -, e⟩
      · rw [e, hcb]
      · rw [e, hcb]
      · rw [e, ih, hcb]

/-- Data bit `j` as the candidate frame holds it: in a completed byte, or in the byte being assembled. -/
def heldBit (l : Latch V) (j : Nat) : Bool :=
  if j < 8 * l.len.toNat then (l.buf.getD (j / 8) 0).getLsbD (7 - j % 8) else l.cur.getLsbD (l.nbits - 1 - j)

/-- The candidate frame at the head of a pass: the bits counted fill LEN whole bytes and part of the next, LEN is inside
the buffer, the CRC register has run over the whole bytes and read 0 after none, and every bit held is the bit the ring
reads. -/
structure Candidate (C : Cfg V) (b : Block V) : Prop where
  buf : b.lat.buf.length = C.par.maxBytes
  room : b.lat.len.toNat < C.par.maxBytes
  bytes : b.lat.nbits / 8 = b.lat.len.toNat
  crc : b.lat.crc = crcBytes C.par.crcPoly C.par.crcInit (b.lat.buf.take b.lat.len.toNat)
  zeros : noEarlyZero C b.lat.buf b.lat.len.toNat
  reads : ∀ j, j < b.lat.nbits → BitReadAs C b.arch b.lat.thr j (heldBit b.lat j)

/-- DEC.INIT starts a candidate frame. -/
theorem candidate_init (C : Cfg V) (b : Block V) (h : b.lat.buf.length = C.par.maxBytes) :
    Candidate C (opDecInit C b) where
  buf := h
  room := Nat.lt_of_lt_of_le (show 0 < 2 by decide) C.maxBytes_ge
  bytes := by simp [opDecInit]
  crc := by simp [opDecInit]
  zeros := by
    intro k h0 hk
    simp [opDecInit] at hk
    omega
  reads := by simp [opDecInit]

/-- MAN.BIT decodes the bit its two half-bits read as. -/
theorem opManBit_reads {C : Cfg V} {b b' : Block V} (h : opManBit C b = (b', none)) :
    BitReadAs C b.arch b.lat.thr b.lat.nbits b'.lat.bit := by
  rcases decodeSymbol_cases C (classifyBit C b) with ⟨-, e⟩ | ⟨hne, e⟩
  · rw [show opManBit C b = _ from e] at h
    simp at h
  · rw [show opManBit C b = _ from e, Prod.mk.injEq] at h
    obtain ⟨rfl, -⟩ := h
    simp only [classifyBit, BitReadAs] at hne ⊢
    generalize above C (readD C b.arch (firstHalfOfs C b.lat.nbits)) b.lat.thr = m1 at hne ⊢
    generalize above C (readD C b.arch (secondHalfOfs C b.lat.nbits)) b.lat.thr = m2 at hne ⊢
    cases C.par.manOneIsHl <;> cases m1 <;> cases m2 <;> simp_all

/-- MAN.BIT that ends the step found two equal classes. -/
theorem opManBit_some_classes {C : Cfg V} {b b' : Block V} {o : StepOutcome} (h : opManBit C b = (b', some o)) :
    above C (readD C b.arch (firstHalfOfs C b.lat.nbits)) b.lat.thr =
      above C (readD C b.arch (secondHalfOfs C b.lat.nbits)) b.lat.thr := by
  rcases decodeSymbol_cases C (classifyBit C b) with ⟨he, -⟩ | ⟨-, e⟩
  · exact he
  · rw [show opManBit C b = _ from e] at h
    simp at h

/-- The bits of a byte after a shift: the new one in bit 0, the others one place up. -/
theorem shiftIn_getLsbD (cur : Byte) (bit : Bool) (i : Nat) (hi : i < 8) :
    (shiftIn cur bit).getLsbD i = if i = 0 then bit else cur.getLsbD (i - 1) := by
  rcases i with _ | i
  · cases bit <;> simp [shiftIn]
  · have h1 : ((BitVec.ofBool bit).setWidth 8).getLsbD (i + 1) = false := by cases bit <;> simp
    simp only [shiftIn, BitVec.getLsbD_or, h1, BitVec.getLsbD_shiftLeft]
    simp [hi]

/-- A pass inside a byte keeps the candidate frame. -/
theorem candidate_bit {C : Cfg V} {b b' : Block V} (h : Candidate C b) (hm : opManBit C b = (b', none))
    (h8 : b'.lat.nbits % 8 ≠ 0) : Candidate C (opByteAcc b') := by
  have hread := opManBit_reads hm
  obtain ⟨ha, hn, hb, hl, hcrc, hcur, ht⟩ := opManBit_none hm
  have hbytes := h.bytes
  rcases opByteAcc_cases b' with ⟨-, e⟩ | ⟨h0, -⟩
  · rw [e]
    refine ⟨?_, ?_, ?_, ?_, ?_, ?_⟩ <;> simp only [hb, hl, hcrc]
    · exact h.buf
    · exact h.room
    · omega
    · exact h.crc
    · exact h.zeros
    · intro j hj
      simp only [hn] at hj
      simp only [ha, ht, heldBit, hcur, hn]
      by_cases hjn : j < b.lat.nbits
      · have hr := h.reads j hjn
        simp only [heldBit] at hr
        split
        · rwa [if_pos ‹_›] at hr
        · rw [if_neg ‹_›] at hr
          rw [shiftIn_getLsbD _ _ _ (by omega), if_neg (by omega)]
          rwa [show b.lat.nbits + 1 - 1 - j - 1 = b.lat.nbits - 1 - j by omega]
      · obtain rfl : j = b.lat.nbits := by omega
        rw [if_neg (by omega), shiftIn_getLsbD _ _ _ (by omega), if_pos (by omega)]
        exact hread
  · exact absurd h0 h8

/-- A pass that completes a byte: the byte is in the buffer, LEN counts it, the CRC register has run over it, and every
bit held is the bit the ring reads. -/
theorem candidate_byte {C : Cfg V} {b b' c : Block V} (h : Candidate C b) (hm : opManBit C b = (b', none))
    (h8 : b'.lat.nbits % 8 = 0) (hc : c = opCrcUpd C (opByteAcc b')) :
    c.arch = b.arch ∧ c.lat.thr = b.lat.thr ∧ c.lat.buf.length = C.par.maxBytes ∧
    c.lat.len.toNat = b.lat.len.toNat + 1 ∧ c.lat.nbits = 8 * c.lat.len.toNat ∧
    c.lat.crc = crcBytes C.par.crcPoly C.par.crcInit (c.lat.buf.take c.lat.len.toNat) ∧
    noEarlyZero C c.lat.buf b.lat.len.toNat ∧
    (∀ j, j < c.lat.nbits → BitReadAs C c.arch c.lat.thr j (heldBit c.lat j)) := by
  have hread := opManBit_reads hm
  obtain ⟨ha, hn, hb, hl, hcrc, hcur, ht⟩ := opManBit_none hm
  have hroom := h.room
  have hbytes := h.bytes
  have hlen : (b.lat.len + 1).toNat = b.lat.len.toNat + 1 := by
    have := C.maxBytes_le
    rw [BitVec.toNat_add]
    simp
    omega
  have hpred : (b.lat.len + 1 - 1 : BitVec 5) = b.lat.len := by simp
  have hn8 : b.lat.nbits + 1 = 8 * (b.lat.len.toNat + 1) := by omega
  rcases opByteAcc_cases b' with ⟨h0, -⟩ | ⟨-, e⟩
  · exact absurd h8 h0
  · generalize hcv : shiftIn b.lat.cur b'.lat.bit = cur
    have hget : (b.lat.buf.set b.lat.len.toNat cur)[b.lat.len.toNat]? = some cur := by
      rw [List.getElem?_set_self]
      rw [h.buf]
      exact hroom
    have htake : ∀ k, k ≤ b.lat.len.toNat → (b.lat.buf.set b.lat.len.toNat cur).take k = b.lat.buf.take k := by
      intro k hk
      rw [List.take_set_of_le hk]
    have hcd : c = { b' with
        lat.cur := cur
        lat.buf := b.lat.buf.set b.lat.len.toNat cur
        lat.len := b.lat.len + 1
        lat.crc := crcByte C.par.crcPoly b.lat.crc cur } := by
      rw [hc, e, hb, hl, hcur, hcv]
      simp only [opCrcUpd, hpred, hcrc]
      rw [bufRead_of_lt _ _ _ hget]
    subst hcd
    simp only
    refine ⟨ha, ht, ?_, hlen, ?_, ?_, ?_, ?_⟩
    · rw [List.length_set, h.buf]
    · omega
    · rw [hlen, List.take_add_one, htake _ (Nat.le_refl _), hget, h.crc, Option.toList_some, crcBytes_append]
      rfl
    · intro k h0 hk
      rw [htake k hk]
      exact h.zeros k h0 hk
    · intro j hj
      rw [hn] at hj
      simp only [ha, ht, heldBit, hlen, hn]
      rw [if_pos (by omega)]
      by_cases hj8 : j < 8 * b.lat.len.toNat
      · have hr := h.reads j (by omega)
        rw [heldBit, if_pos hj8] at hr
        rw [List.getD_eq_getElem?_getD, List.getElem?_set_ne (by omega), ← List.getD_eq_getElem?_getD]
        exact hr
      · have hdiv : j / 8 = b.lat.len.toNat := by omega
        rw [hdiv, List.getD_eq_getElem?_getD, hget, Option.getD_some, ← hcv, shiftIn_getLsbD _ _ _ (by omega)]
        by_cases hjn : j < b.lat.nbits
        · have hr := h.reads j hjn
          rw [heldBit, if_neg hj8] at hr
          rw [if_neg (by omega), show 7 - j % 8 - 1 = b.lat.nbits - 1 - j by omega]
          exact hr
        · obtain rfl : j = b.lat.nbits := by omega
          rw [if_pos (by omega)]
          exact hread

/-- The whole bytes of a candidate frame are read at the anchor. -/
theorem held_bytes_read {C : Cfg V} {b : Block V} {len : Nat} (hbuf : len ≤ b.lat.buf.length)
    (hlen : len = b.lat.len.toNat) (hn : 8 * len ≤ b.lat.nbits)
    (h : ∀ j, j < b.lat.nbits → BitReadAs C b.arch b.lat.thr j (heldBit b.lat j)) :
    readsAs C b.arch b.lat.thr 20 (airLevels C.par (b.lat.buf.take len)) := by
  refine readsAs_of_bits ?_
  intro j byte hj
  have hlt : j / 8 < len := by
    have := (List.getElem?_eq_some_iff.mp hj).1
    rw [List.length_take] at this
    omega
  have hr := h j (by omega)
  rw [heldBit, if_pos (by omega), List.getD_eq_getElem?_getD] at hr
  rw [List.getElem?_take_of_lt hlt] at hj
  rwa [hj, Option.getD_some] at hr

/-- What the decode loop can do from a candidate frame with enough passes left. Success: whole bytes, over which the CRC
register first reads 0 at the end, and which the ring reads at the anchor. DESYNC: a bit whose halves are of one class,
the first such. OVERLEN: MAX_BYTES bytes read without a zero. -/
theorem decodeLoop_spec {C : Cfg V} (n : Nat) (b b' : Block V) (o : Option StepOutcome) (h : Candidate C b)
    (hp : 8 * C.par.maxBytes ≤ b.lat.nbits + n) (e : decodeLoop C n b = (b', o)) :
    (o = none ∧ b'.lat.buf.length = C.par.maxBytes ∧ 1 ≤ b'.lat.len.toNat ∧ b'.lat.len.toNat ≤ C.par.maxBytes ∧
      b'.lat.nbits = 8 * b'.lat.len.toNat ∧
      crcBytes C.par.crcPoly C.par.crcInit (b'.lat.buf.take b'.lat.len.toNat) = 0 ∧
      noEarlyZero C (b'.lat.buf.take b'.lat.len.toNat) (b'.lat.len.toNat - 1) ∧
      readsAs C b.arch b.lat.thr 20 (airLevels C.par (b'.lat.buf.take b'.lat.len.toNat))) ∨
    (o = some .desync ∧ ∃ (j : Nat) (bytes : List Byte), j < 8 * C.par.maxBytes ∧ bytes.length = j / 8 ∧
      readsAs C b.arch b.lat.thr 20 (airLevels C.par bytes) ∧ noEarlyZero C bytes (j / 8) ∧
      above C (readD C b.arch (firstHalfOfs C j)) b.lat.thr = above C (readD C b.arch (secondHalfOfs C j)) b.lat.thr ∧
      ∀ k, k < j → above C (readD C b.arch (firstHalfOfs C k)) b.lat.thr ≠
        above C (readD C b.arch (secondHalfOfs C k)) b.lat.thr) ∨
    (o = some .overlen ∧ ∃ bytes : List Byte, bytes.length = C.par.maxBytes ∧
      readsAs C b.arch b.lat.thr 20 (airLevels C.par bytes) ∧ noEarlyZero C bytes C.par.maxBytes) := by
  have take_zeros : ∀ (l : List Byte) (len k : Nat), k ≤ len → noEarlyZero C l k → noEarlyZero C (l.take len) k := by
    intro l len k hk hz i h0 hi
    rw [List.take_take, Nat.min_eq_left (by omega)]
    exact hz i h0 hi
  induction n generalizing b with
  | zero =>
    have := h.room
    have := h.bytes
    omega
  | succ n ih =>
    have hroom := h.room
    have hbytes := h.bytes
    have hbuf := h.buf
    rcases decodeLoop_cases C n b with ⟨c, hm, e'⟩ | ⟨c, hm, h8, e'⟩ | ⟨c, d, hm, h8, hd, hcase⟩
    · rw [e', Prod.mk.injEq] at e
      obtain ⟨rfl, rfl⟩ := e
      refine Or.inr (Or.inl ⟨rfl, b.lat.nbits, b.lat.buf.take b.lat.len.toNat, by omega, ?_, ?_, ?_,
        opManBit_some_classes hm, ?_⟩)
      · rw [List.length_take]
        omega
      · exact held_bytes_read (by omega) rfl (by omega) h.reads
      · rw [hbytes]
        exact take_zeros _ _ _ (Nat.le_refl _) h.zeros
      · intro k hk
        obtain ⟨h1, h2⟩ := h.reads k hk
        rw [h1, h2]
        cases (heldBit b.lat k == C.par.manOneIsHl) <;> decide
    · obtain ⟨ha, hn, -, -, -, -, ht⟩ := opManBit_none hm
      have hc := candidate_bit h hm h8
      have hat : (opByteAcc c).lat.thr = b.lat.thr := by
        rcases opByteAcc_cases c with ⟨-, g⟩ | ⟨-, g⟩ <;> rw [g] <;> exact ht
      have := ih (opByteAcc c) hc (by rw [opByteAcc_nbits, hn]; omega) (e'.symm.trans e)
      rwa [opByteAcc_arch, ha, hat] at this
    · obtain ⟨ha, ht, h1, h2, h3, h4, h5, h6⟩ := candidate_byte h hm h8 hd
      have hall : d.lat.crc ≠ 0 → noEarlyZero C d.lat.buf d.lat.len.toNat := by
        intro hz k h0 hk
        by_cases hkl : k ≤ b.lat.len.toNat
        · exact h5 k h0 hkl
        · obtain rfl : k = d.lat.len.toNat := by omega
          rwa [← h4]
      rcases hcase with ⟨hz, e'⟩ | ⟨hz, hl, e'⟩ | ⟨hz, hl, e'⟩
      · rw [e', Prod.mk.injEq] at e
        obtain ⟨rfl, rfl⟩ := e
        refine Or.inl ⟨rfl, h1, by omega, by omega, h3, by rw [← h4, hz], ?_, ?_⟩
        · rw [h2]
          exact take_zeros _ _ _ (by omega) h5
        · rw [← ha, ← ht]
          exact held_bytes_read (by omega) rfl (by omega) h6
      · rw [e', Prod.mk.injEq] at e
        obtain ⟨rfl, rfl⟩ := e
        refine Or.inr (Or.inr ⟨rfl, d.lat.buf.take d.lat.len.toNat, ?_, ?_, ?_⟩)
        · rw [List.length_take]
          omega
        · rw [← ha, ← ht]
          exact held_bytes_read (by omega) rfl (by omega) h6
        · rw [← hl]
          exact take_zeros _ _ _ (Nat.le_refl _) (hall hz)
      · have hcn := (opManBit_none hm).2.1
        have hn : d.lat.nbits = b.lat.nbits + 1 := by omega
        have := ih d ⟨h1, by omega, by omega, h4, hall hz, h6⟩ (by omega) (e'.symm.trans e)
        rwa [ha, ht] at this

/-- A decode attempt that does not succeed ends as DESYNC or as OVERLEN. -/
theorem decodeLoop_some {C : Cfg V} (n : Nat) (b b' : Block V) (o : StepOutcome)
    (e : decodeLoop C n b = (b', some o)) : o = .desync ∨ o = .overlen := by
  induction n generalizing b with
  | zero =>
    simp only [decodeLoop, Prod.mk.injEq, Option.some.injEq] at e
    exact Or.inr e.2.symm
  | succ n ih =>
    rcases decodeLoop_cases C n b with ⟨c, -, g⟩ | ⟨c, -, -, g⟩ | ⟨c, d, -, -, -, ⟨-, g⟩ | ⟨-, -, g⟩ | ⟨-, -, g⟩⟩
    · rw [g, Prod.mk.injEq, Option.some.injEq] at e
      exact Or.inl e.2.symm
    · exact ih _ (g.symm.trans e)
    · rw [g] at e
      simp at e
    · rw [g, Prod.mk.injEq, Option.some.injEq] at e
      exact Or.inr e.2.symm
    · exact ih _ (g.symm.trans e)

/-! ### The step -/

@[simp] theorem opSkipTick_none {b : Block V} (h : b.arch.skip = 0) : opSkipTick b = (b, none) := by
  simp [opSkipTick, h]

/-- The threshold of a step: SUM / W after THR.UPD (43 R130). -/
def stepThr [DecidableEq V] (C : Cfg V) (b : Block V) : V :=
  C.num.div (ringUpdate C b).arch.sum (C.num.ofInt C.par.w)

/-- The four ways a step can end, each with the preamble's verdict and with everything it writes. -/
theorem ringStep_cases [DecidableEq V] (C : Cfg V) (now : BitVec 64) (b : Block V) :
    (b.arch.skip ≠ 0 ∧ ringStep C now b =
      ({ ringUpdate C b with arch.skip := b.arch.skip - 1 }, .skipped)) ∨
    (b.arch.skip = 0 ∧ preambleMatches C (ringUpdate C b).arch (stepThr C b) = false ∧
      ringStep C now b = (opThrDiv C (ringUpdate C b), .noMatch)) ∨
    (b.arch.skip = 0 ∧ preambleMatches C (ringUpdate C b).arch (stepThr C b) = true ∧
      ∃ b' o, decodeFrame C (opThrDiv C (ringUpdate C b)) = (b', some o) ∧ ringStep C now b = (b', o)) ∨
    (b.arch.skip = 0 ∧ preambleMatches C (ringUpdate C b).arch (stepThr C b) = true ∧
      ∃ b', decodeFrame C (opThrDiv C (ringUpdate C b)) = (b', none) ∧
        ringStep C now b = (report C now b', .frame)) := by
  have hs : (ringUpdate C b).arch.skip = b.arch.skip := rfl
  have hcorr : opCorr C (opThrDiv C (ringUpdate C b)) = (opThrDiv C (ringUpdate C b),
      if preambleMatches C (ringUpdate C b).arch (stepThr C b) then none else some .noMatch) := rfl
  unfold ringStep
  rcases opSkipTick_cases (ringUpdate C b) with ⟨h0, e⟩ | ⟨h0, e⟩
  · rw [e]
    rw [hs] at h0
    simp only [detect, hcorr]
    cases preambleMatches C (ringUpdate C b).arch (stepThr C b)
    · exact Or.inr (Or.inl ⟨h0, rfl, rfl⟩)
    · simp only [attempt, if_true]
      rcases decodeFrame C (opThrDiv C (ringUpdate C b)) with ⟨b', o⟩
      cases o with
      | none => exact Or.inr (Or.inr (Or.inr ⟨h0, trivial, b', rfl, rfl⟩))
      | some o => exact Or.inr (Or.inr (Or.inl ⟨h0, trivial, b', o, rfl, rfl⟩))
  · rw [e, hs]
    exact Or.inl ⟨hs ▸ h0, rfl⟩

/-- What the attempt of a step that matched can do, in terms of the ring and the threshold of that step. -/
theorem decodeFrame_spec [DecidableEq V] {C : Cfg V} {b b' : Block V} {o : Option StepOutcome}
    (hbuf : b.lat.buf.length = C.par.maxBytes) (e : decodeFrame C (opThrDiv C (ringUpdate C b)) = (b', o)) :
    b'.arch = (ringUpdate C b).arch ∧
    ((o = none ∧ b'.lat.buf.length = C.par.maxBytes ∧ 1 ≤ b'.lat.len.toNat ∧ b'.lat.len.toNat ≤ C.par.maxBytes ∧
      b'.lat.nbits = 8 * b'.lat.len.toNat ∧
      crcBytes C.par.crcPoly C.par.crcInit (b'.lat.buf.take b'.lat.len.toNat) = 0 ∧
      noEarlyZero C (b'.lat.buf.take b'.lat.len.toNat) (b'.lat.len.toNat - 1) ∧
      readsAs C (ringUpdate C b).arch (stepThr C b) 20 (airLevels C.par (b'.lat.buf.take b'.lat.len.toNat))) ∨
    (o = some .desync ∧ ∃ (j : Nat) (bytes : List Byte), j < 8 * C.par.maxBytes ∧ bytes.length = j / 8 ∧
      readsAs C (ringUpdate C b).arch (stepThr C b) 20 (airLevels C.par bytes) ∧ noEarlyZero C bytes (j / 8) ∧
      above C (readD C (ringUpdate C b).arch (firstHalfOfs C j)) (stepThr C b) =
        above C (readD C (ringUpdate C b).arch (secondHalfOfs C j)) (stepThr C b) ∧
      ∀ k, k < j → above C (readD C (ringUpdate C b).arch (firstHalfOfs C k)) (stepThr C b) ≠
        above C (readD C (ringUpdate C b).arch (secondHalfOfs C k)) (stepThr C b)) ∨
    (o = some .overlen ∧ ∃ bytes : List Byte, bytes.length = C.par.maxBytes ∧
      readsAs C (ringUpdate C b).arch (stepThr C b) 20 (airLevels C.par bytes) ∧
      noEarlyZero C bytes C.par.maxBytes)) := by
  refine ⟨?_, ?_⟩
  · have := decodeLoop_arch C (8 * C.par.maxBytes) (opDecInit C (opThrDiv C (ringUpdate C b)))
    rw [decodeFrame] at e
    rw [e] at this
    exact this
  · exact decodeLoop_spec _ _ b' o (candidate_init C (opThrDiv C (ringUpdate C b)) hbuf) (by simp [opDecInit]) e

/-! ### The memories through a step -/

/-- RING.PUSH with THR.UPD keeps the memories in form. -/
theorem ringUpdate_memOk [DecidableEq V] {C : Cfg V} {b : Block V} (h : b.memOk C) : (ringUpdate C b).memOk C := by
  obtain ⟨hd, hm, wd, wm, hw, ho, hb⟩ := h
  obtain ⟨hd', hm', wd', wm', hw'⟩ := opRingPush_memOk C b hw hd hm wd wm
  exact ⟨hd', hm', wd', wm', hw', ho, hb⟩

/-- The back half of a step keeps the memories in form, and after RING.PUSH and THR.UPD it writes neither a ring nor the
cursor nor SUM. -/
theorem ringStep_memOk [DecidableEq V] {C : Cfg V} (now : BitVec 64) {b b' : Block V} {o : StepOutcome}
    (h : b.memOk C) (e : ringStep C now b = (b', o)) :
    b'.memOk C ∧ b'.arch.dring = (ringUpdate C b).arch.dring ∧ b'.arch.mring = (ringUpdate C b).arch.mring ∧
      b'.arch.wr = (ringUpdate C b).arch.wr ∧ b'.arch.sum = (ringUpdate C b).arch.sum := by
  have hu := ringUpdate_memOk h
  have hdec : ∀ (c : Block V) (r : Option StepOutcome), decodeFrame C (opThrDiv C (ringUpdate C b)) = (c, r) →
      c.arch = (ringUpdate C b).arch ∧ c.lat.buf.length = C.par.maxBytes := by
    intro c r hc
    have h1 := decodeLoop_arch C (8 * C.par.maxBytes) (opDecInit C (opThrDiv C (ringUpdate C b)))
    have h2 := decodeLoop_buf_length C (8 * C.par.maxBytes) (opDecInit C (opThrDiv C (ringUpdate C b)))
    rw [decodeFrame] at hc
    rw [hc] at h1 h2
    exact ⟨h1, h2.trans hu.2.2.2.2.2.2⟩
  obtain ⟨u1, u2, u3, u4, u5, u6, u7⟩ := hu
  rcases ringStep_cases C now b with ⟨-, g⟩ | ⟨-, -, g⟩ | ⟨-, -, c, r, hc, g⟩ | ⟨-, -, c, hc, g⟩ <;>
    rw [g] at e <;> obtain ⟨rfl, rfl⟩ := Prod.mk.inj e
  · exact ⟨⟨u1, u2, u3, u4, u5, u6, u7⟩, rfl, rfl, rfl, rfl⟩
  · exact ⟨⟨u1, u2, u3, u4, u5, u6, u7⟩, rfl, rfl, rfl, rfl⟩
  · obtain ⟨ha, hb⟩ := hdec c _ hc
    simp only [Block.memOk, ha, hb]
    exact ⟨⟨u1, u2, u3, u4, u5, u6, trivial⟩, trivial, trivial, trivial, trivial⟩
  · obtain ⟨ha, hb⟩ := hdec c _ hc
    rw [← ha] at u1 u2 u3 u4 u5 u6 ⊢
    exact ⟨⟨u1, u2, u3, u4, u5, (loadOutData_length _ _).trans u6, hb⟩, rfl, rfl, rfl, rfl⟩

end Sys2Proof.Laws
end

