-- ==== Sys2Proof/Tests/Slice0.lean ====
section
/-! SUPPORT. The model's own tests. Expected values come from the spec's worked examples and its vectors (95 §2); words are
written out from 30_encoding R71, R73, R76 and R83. Then, for each obligation with hypotheses, a state that meets
them. -/

-- One theorem is checked after the other: the kernel evaluations below run on deep stacks of their own.
set_option Elab.async false

namespace Sys2Proof.Tests

open Sys2Proof Sys2Proof.Machine

/-! ### Helpers -/

/-- An integer as a binary64 datum. -/
def num (z : Int) : F64 := f64OfInt z

/-- Profile T1 over the reference NUM. -/
def t1 : Cfg F64 := ⟨num64, Config.t1 num64, by decide +kernel⟩

/-- The reset state with its step-local registers changed. -/
def withLat (f : Latch F64 → Latch F64) : State :=
  { State.reset with blk := { State.reset.blk with lat := f State.reset.blk.lat } }

/-- The reset state with its architectural state changed. -/
def withArch (f : Arch F64 → Arch F64) : State :=
  { State.reset with blk := { State.reset.blk with arch := f State.reset.blk.arch } }

/-- One value of the state an operation answers. -/
def after {α : Type} (i : Instr) (s : State) (get : State → α) : Option α :=
  match exec i s with
  | .next t => some (get t)
  | .fault _ => none
  | .refused _ => none

/-- Ring entries on consecutive slots from `first` on, every `spacing` slots; a `false` level is left unlisted. -/
def placed (first spacing : Nat) (high : F64) (levels : List Bool) : Memory F64 :=
  ((List.range levels.length).filter (fun h => levels[h]? == some true)).map (fun h => (first + h * spacing, high))

/-- A block of T1 about to write slot 0, with SKIP = 0 and half-bit levels standing at the next anchor: 1 for high, 0 for
low, and a SUM that makes the step's threshold 1/2. -/
def t1Block (sumBefore : Int) (levels : List Bool) : Block F64 :=
  { arch := { Arch.reset t1 with dring := placed 1 1 (num 1) levels, skip := 0, sum := num sumBefore },
    lat := Latch.reset t1 }

/-- The same in P0, where the window has 1088 samples. -/
def p0Block (sumBefore : Int) (levels : List Bool) : Block F64 :=
  { arch := { Arch.reset cfg with dring := placed 1 16 (num 1) levels, skip := 0, sum := num sumBefore },
    lat := Latch.reset cfg }

/-- Ten half-bit pairs of the default preamble (30_encoding R78: H L H L H L H L L H H L L H H L L H H L). -/
def preamble20 : List Bool :=
  [true, false, true, false, true, false, true, false, false, true,
   true, false, false, true, true, false, false, true, true, false]

/-- The half-bits of the two bytes FF FF: sixteen times high then low. -/
def onesFFFF : List Bool := (List.replicate 16 [true, false]).flatten

/-- The half-bits of four bytes 00: thirty-two times low then high. -/
def zeros4 : List Bool := (List.replicate 32 [false, true]).flatten

/-! ### Decoding: every operation's word written out from the spec -/

theorem test_decode_port :
    decode (.port 0b00_11111111#10) = .ok (.nop 255) ∧ decode (.port 0b01_11100100#10) = .ok (.byte 228) ∧
    decode (.port 0b10_00000000#10) = .ok (.eos 0) ∧ decode (.port 0b11_00000001#10) = .ok (.reset 1) := by decide

theorem test_decode_pair : decode (.pair 0b11011100_10100110#16) = .ok (.sample 220 166) := by decide

theorem test_decode_sym :
    decode (.sym 0b10#2) = .ok .symHL ∧ decode (.sym 0b01#2) = .ok .symLH ∧
    decode (.sym 0b00#2) = .ok .symLL ∧ decode (.sym 0b11#2) = .ok .symHH := by decide

theorem test_decode_stage_front :
    decode (.stage 0b00001#5) = .ok .center ∧ decode (.stage 0b00010#5) = .ok .lpfI ∧
    decode (.stage 0b00011#5) = .ok .lpfQ ∧ decode (.stage 0b00100#5) = .ok .mag ∧
    decode (.stage 0b00101#5) = .ok .disc ∧ decode (.stage 0b00110#5) = .ok .lpfD ∧
    decode (.stage 0b00111#5) = .ok .prev ∧ decode (.stage 0b01000#5) = .ok .ringPush ∧
    decode (.stage 0b01001#5) = .ok .thrUpd ∧ decode (.stage 0b01010#5) = .ok .skipTick := by decide

theorem test_decode_stage_back :
    decode (.stage 0b01011#5) = .ok .thrDiv ∧ decode (.stage 0b01100#5) = .ok .corr ∧
    decode (.stage 0b01101#5) = .ok .decInit ∧ decode (.stage 0b01110#5) = .ok .manBit ∧
    decode (.stage 0b01111#5) = .ok .byteAcc ∧ decode (.stage 0b10000#5) = .ok .crcUpd ∧
    decode (.stage 0b10001#5) = .ok .lenChk ∧ decode (.stage 0b10010#5) = .ok .rssi ∧
    decode (.stage 0b10011#5) = .ok .tstamp ∧ decode (.stage 0b10100#5) = .ok .emit ∧
    decode (.stage 0b10101#5) = .ok .skipSet := by decide

theorem test_decode_no_such_slot :
    decode (.stage 0#5) = .error (.noSuchSlot 0) ∧ decode (.stage 22#5) = .error (.noSuchSlot 22) ∧
    decode (.stage 31#5) = .error (.noSuchSlot 31) := by decide

theorem test_decode_bytes :
    decodeBytes .port [0xE4, 0x01] = .ok (.byte 228) ∧ decodeBytes .pair [0xA6, 0xDC] = .ok (.sample 220 166) ∧
    decodeBytes .port [0xE4, 0x05] = .error (.strayBits .port) ∧ decodeBytes .sym [4] = .error (.strayBits .sym) ∧
    decodeBytes .stage [32] = .error (.strayBits .stage) ∧ decodeBytes .port [0xE4] = .error (.wrongLength .port) ∧
    decodeBytes .sym [] = .error (.wrongLength .sym) := by decide

theorem test_table_words :
    decodeTableWord 10 0x1E4 = some (.byte 228) ∧ decodeTableWord 16 0x1E4 = some (.byte 228) ∧
    decodeTableWord 16 0xDCA6 = some (.sample 220 166) ∧ decodeTableWord 2 2 = some .symHL ∧
    decodeTableWord 8 2 = some .symHL ∧ decodeTableWord 5 2 = some .lpfI ∧ decodeTableWord 8 21 = some .skipSet ∧
    decodeTableWord 5 22 = none ∧ decodeTableWord 7 1 = none := by decide

/-! ### Well-formedness: one ill-formed term for each check -/

theorem test_wf_code_refuses :
    (Code.stage 0#5).wf = false ∧ (Code.stage 22#5).wf = false ∧ (Code.stage 21#5).wf = true ∧
    (Code.port 0x3FF#10).wf = true := by decide

theorem test_wf_capacity_refused : ({ Config.t1 num64 with n := 120 } : Params F64).wf num64 = false := by
  decide +kernel
theorem test_wf_ring_refused : ({ Config.t1 num64 with rssiOfs := 44 } : Params F64).wf num64 = false := by
  decide +kernel
theorem test_wf_window_refused : ({ Config.t1 num64 with w := 0, minBytes := 1 } : Params F64).wf num64 = false := by
  decide +kernel
theorem test_wf_warm_up_refused : ({ Config.t1 num64 with skipInit := 126 } : Params F64).wf num64 = false := by
  decide +kernel
theorem test_wf_lengths_refused : ({ Config.p0 num64 with maxBytes := 2 } : Params F64).wf num64 = false := by
  decide +kernel
theorem test_wf_five_bit_length_refused :
    ({ Config.p0 num64 with
       n := 16384, logN := 14, skipInit := 16384, latencyUs := 10240, maxBytes := 32 } : Params F64).wf num64 = false := by
  decide +kernel
theorem test_wf_sampling_refused : ({ Config.t1 num64 with symOfs := 1 } : Params F64).wf num64 = false := by
  decide +kernel
theorem test_wf_bias_refused : ({ Config.t1 num64 with bias := 256 } : Params F64).wf num64 = false := by
  decide +kernel
theorem test_wf_eps_refused : ({ Config.t1 num64 with eps := num 0 } : Params F64).wf num64 = false := by
  decide +kernel
theorem test_wf_preamble_refused : ({ Config.t1 num64 with preamble := [true] } : Params F64).wf num64 = false := by
  decide +kernel
theorem test_wf_calibration_refused : ({ Config.t1 num64 with kCal := num (-1) } : Params F64).wf num64 = false := by
  decide +kernel
theorem test_wf_latency_refused : ({ Config.t1 num64 with latencyUs := 1281 } : Params F64).wf num64 = false := by
  decide +kernel

/-- 00_scope R7, 93 U8: no configuration has an ill-formed set, so none of its behaviours exists. -/
theorem test_ill_formed_set_has_no_configuration :
    ¬ ∃ C : Cfg F64, C.num = num64 ∧ C.par = ({ Config.t1 num64 with n := 120 } : Params F64) := by
  rintro ⟨C, hn, hp⟩
  have h := C.legal
  rw [hn, hp, test_wf_capacity_refused] at h
  exact absurd h (by decide)

/-! ### Port commands (95 §2.10) -/

/-- BYTE 228 from reset: LATCHED, (RUN, PHASE, IHOLD) = (1, 1, 228). -/
theorem test_byte_latches : after (.byte 228) State.reset
    (fun t => (t.label, t.blk.arch.run, t.blk.arch.phase, t.blk.arch.ihold, t.blk.arch.wr)) =
      some (.latched, true, true, 228, 0) := by decide +kernel

/-- The Q byte runs a step, which the warm-up ends as SKIPPED; IHOLD keeps 228. -/
theorem test_byte_steps : after (.byte 128) (withArch fun a => { a with phase := true, ihold := 228 })
    (fun t => (t.label, t.blk.arch.phase, t.blk.arch.ihold, t.blk.arch.skip, t.blk.arch.wr)) =
      some (.outcome .skipped, false, 228, 8191, 1) := by decide +kernel

theorem test_nop_keeps_held_byte : after (.nop 255)
    (withArch fun a => { a with phase := true, ihold := 228, outValid := true })
    (fun t => (t.blk.arch.phase, t.blk.arch.ihold, t.blk.arch.outValid)) = some (true, 228, false) := by decide +kernel

/-- EOS keeps the held byte; a BYTE after it is IGNORED. -/
theorem test_eos_keeps_held_byte : after (.eos 0) (withArch fun a => { a with phase := true, ihold := 127 })
    (fun t => (t.blk.arch.run, t.blk.arch.phase, t.blk.arch.ihold)) = some (false, true, 127) := by decide +kernel

theorem test_byte_after_eos : after (.byte 128) (withArch fun a => { a with run := false, phase := true })
    (fun t => (t.label, t.blk.arch.phase, t.blk.arch.wr)) = some (.ignored, true, 0) := by decide +kernel

theorem test_reset_after_eos : after (.reset 9) (withArch fun a => { a with run := false, wr := 5, skip := 0 })
    (fun t => (t.blk.arch.run, t.blk.arch.wr, t.blk.arch.skip)) = some (true, 0, 8192) := by decide +kernel

/-- SAMPLE 228 128 (40 R100, R104): the first conditioned value is 100 times IQ_B[0]. -/
theorem test_sample_filters : after (.sample 228 128) State.reset
    (fun t => (t.label, t.blk.arch.fi.x.h0, t.blk.arch.fi.y.h0, t.blk.arch.ip, t.blk.arch.phase)) =
      some (.outcome .skipped, num 100, f64Lit 10209480791203138 16, f64Lit 10209480791203138 16, false) := by
  decide +kernel

/-! ### Stage operations -/

/-- 95 §2.1, the extremes. -/
theorem test_center : after .center { withLat (fun l => { l with qin := 255 }) with }
    (fun t => (t.blk.lat.xi, t.blk.lat.xq)) = some (num (-128), num 127) := by decide +kernel

/-- V-LPF-1, the first two outputs. -/
theorem test_lpfI_impulse : after .lpfI (withLat fun l => { l with xi := num 1 })
    (fun t => (t.blk.lat.i, t.blk.arch.fi.y.h0)) =
      some (f64Lit 10209480791203138 18, f64Lit 10209480791203138 18) := by decide +kernel

theorem test_lpfI_second : after .lpfI
    (withArch fun a => { a with fi := ⟨⟨num 1, 0, 0, 0, 0⟩, ⟨f64Lit 10209480791203138 18, 0, 0, 0, 0⟩⟩ })
    (fun t => (t.blk.lat.i, t.blk.arch.fi.x.h1, t.blk.arch.fq.y.h0)) =
      some (f64Lit 6093454884443185 17, num 1, 0) := by decide +kernel

theorem test_lpfQ_impulse : after .lpfQ (withLat fun l => { l with xq := num 1 })
    (fun t => (t.blk.lat.q, t.blk.arch.fq.y.h0, t.blk.arch.fi.y.h0)) =
      some (f64Lit 10209480791203138 18, f64Lit 10209480791203138 18, 0) := by decide +kernel

/-- V-LPF-E3, in binary64: from the histories after its first three inputs 16, 16, 0, the input -16 gives 14. -/
theorem test_filter_step :
    lpfOut num64
      ⟨f64Lit 625 4, f64Lit 25 2, f64Lit 375 3, f64Lit 25 2, f64Lit 625 4⟩
      ⟨f64Lit (-5) 1, f64Lit 25 2, f64Lit (-125) 3, f64Lit 625 4⟩
      ⟨⟨0, num 16, num 16, 0, 0⟩, ⟨f64Lit 125 1, f64Lit 55 1, num 1, 0, 0⟩⟩ (num (-16)) = num 14 := by decide +kernel

/-- V-LPF-2, the first output. -/
theorem test_lpfD_impulse : after .lpfD (withLat fun l => { l with dev := num 1 })
    (fun t => (t.blk.lat.d, t.blk.arch.fd.y.h0)) =
      some (f64Lit 9334986129548443 19, f64Lit 9334986129548443 19) := by decide +kernel

/-- 41 R111: i = 3, q = 4 gives 25. -/
theorem test_mag : after .mag (withLat fun l => { l with i := num 3, q := num 4 })
    (fun t => t.blk.lat.mag) = some (num 25) := by decide +kernel

/-- 95 §2.3, the first row, and the quarter turn. -/
theorem test_disc : after .disc
    { withLat (fun l => { l with i := num 3, q := num 4, mag := num 25 }) with blk.arch.ip := num 3 }
    (fun t => t.blk.lat.dev) = some (f64Lit 47999999999998255 17) := by decide +kernel

theorem test_disc_clockwise : deviation cfg (num 0) (num (-100)) (num 100) (num 0) (num 10000) = num (-1) := by
  decide +kernel

theorem test_prev : after .prev (withLat fun l => { l with i := num 3, q := num 4 })
    (fun t => (t.blk.arch.ip, t.blk.arch.qp)) = some (num 3, num 4) := by decide +kernel

/-- V-RING-1, in P0's last slot: the cursor wraps. -/
theorem test_ring_push_wraps : after .ringPush
    { withArch (fun a => { a with wr := 8191, dring := [(8191, num 2)] }) with
      blk.lat.d := num 3, blk.lat.mag := num 16 }
    (fun t => (t.blk.lat.old, t.blk.arch.dring, t.blk.arch.mring, t.blk.arch.wr)) =
      some (num 2, [(8191, num 3)], [(8191, num 16)], 0) := by decide +kernel

/-- Pushing zero over an entry leaves the canonical form. -/
theorem test_ring_push_zero : after .ringPush (withArch fun a => { a with wr := 7, dring := [(3, num 1), (7, num 2)] })
    (fun t => (t.blk.lat.old, t.blk.arch.dring, t.blk.arch.wr)) = some (num 2, [(3, num 1)], 8) := by decide +kernel

/-- 42 R122: SUM = 136, old = 2, entering value 3 gives 137. -/
theorem test_thr_upd : after .thrUpd
    { withArch (fun a => { a with wr := 10, sum := num 136, dring := [(1097, num 3)] }) with blk.lat.old := num 2 }
    (fun t => t.blk.arch.sum) = some (num 137) := by decide +kernel

/-- V-SKIP-1. -/
theorem test_skip_tick_one : after .skipTick (withArch fun a => { a with skip := 1 })
    (fun t => (t.label, t.blk.arch.skip)) = some (.outcome .skipped, 0) := by decide +kernel

theorem test_skip_tick_zero : after .skipTick (withArch fun a => { a with skip := 0 })
    (fun t => (t.label, t.blk.arch.skip)) = some (.plain, 0) := by decide +kernel

/-- 43 R130 with P0's window: 2176 / 1088 = 2. -/
theorem test_thr_div : after .thrDiv (withArch fun a => { a with sum := num 2176 })
    (fun t => t.blk.lat.thr) = some (num 2) := by decide +kernel

/-- A T1 ring holding the given values from the anchor on, with the threshold 2. -/
def corrOn (values : List Int) : Option StepOutcome :=
  (opCorr t1
    { arch := { Arch.reset t1 with dring := (List.range values.length).map (fun k => (k, num (values.getD k 0))) },
      lat := { Latch.reset t1 with thr := num 2 } }).2

/-- V-COR-1, V-COR-2, V-COR-3. -/
theorem test_corr_vectors :
    corrOn [3, 1, 3, 1, 3, 1, 3, 1, 1, 3, 3, 1, 1, 3, 3, 1, 1, 3, 3, 1] = none ∧
    corrOn [3, 1, 3, 1, 3, 1, 3, 1, 2, 3, 3, 1, 1, 3, 3, 1, 1, 3, 3, 1] = some .noMatch ∧
    corrOn [3, 1, 3, 1, 3, 1, 3, 1, 1, 2, 3, 1, 1, 3, 3, 1, 1, 3, 3, 1] = some .noMatch := by decide +kernel

/-- V-COR-5 and V-COR-6. -/
theorem test_corr_flat_and_inverted :
    corrOn (List.replicate 20 5) = some .noMatch ∧
    corrOn [1, 3, 1, 3, 1, 3, 1, 3, 3, 1, 1, 3, 3, 1, 1, 3, 3, 1, 1, 3] = some .noMatch := by decide +kernel

theorem test_dec_init : after .decInit (withLat fun l => { l with crc := 7, nbits := 9, cur := 3, len := 2 })
    (fun t => (t.blk.lat.crc, t.blk.lat.nbits, t.blk.lat.cur, t.blk.lat.len)) = some (0xFFFF, 0, 0, 0) := by
  decide +kernel

/-- MAN.BIT with threshold 2 on the two half-bits of bit 0 in P0 (offsets 320 and 336). -/
def manBitOn (first second : Int) : Option (Label × Bool × Nat) :=
  after .manBit
    { withArch (fun a => { a with dring := [(320, num first), (336, num second)] }) with blk.lat.thr := num 2 }
    (fun t => (t.label, t.blk.lat.bit, t.blk.lat.nbits))

/-- 95 §2.6: one, zero, and a value equal to the threshold on either side. -/
theorem test_man_bit_bits :
    manBitOn 3 1 = some (.plain, true, 1) ∧ manBitOn 1 3 = some (.plain, false, 1) ∧
    manBitOn 2 3 = some (.plain, false, 1) ∧ manBitOn 3 2 = some (.plain, true, 1) := by decide +kernel

theorem test_man_bit_desyncs :
    manBitOn 3 3 = some (.outcome .desync, false, 0) ∧ manBitOn 1 1 = some (.outcome .desync, false, 0) ∧
    manBitOn 2 2 = some (.outcome .desync, false, 0) ∧ manBitOn 2 1 = some (.outcome .desync, false, 0) := by
  decide +kernel

theorem test_sym_hl : after .symHL State.reset (fun t => (t.label, t.blk.lat.bit, t.blk.lat.nbits)) =
    some (.plain, true, 1) := by decide +kernel
theorem test_sym_lh : after .symLH (withLat fun l => { l with bit := true })
    (fun t => (t.label, t.blk.lat.bit, t.blk.lat.nbits)) = some (.plain, false, 1) := by decide +kernel
theorem test_sym_ll : after .symLL State.reset (fun t => (t.label, t.blk.lat.nbits)) = some (.outcome .desync, 0) := by
  decide +kernel
theorem test_sym_hh : after .symHH State.reset (fun t => (t.label, t.blk.lat.nbits)) = some (.outcome .desync, 0) := by
  decide +kernel

/-- 44 R145: the bits 0,1,0,0,1,0,0,0 give 0x48, stored at index 0. -/
theorem test_byte_acc :
    shiftIn (shiftIn (shiftIn (shiftIn (shiftIn (shiftIn (shiftIn (shiftIn 0xFF
      false) true) false) false) true) false) false) false = 0x48 := by decide +kernel

theorem test_byte_acc_stores : after .byteAcc (withLat fun l => { l with cur := 0x24, nbits := 8 })
    (fun t => (t.blk.lat.cur, t.blk.lat.len, t.blk.lat.buf.take 2)) = some (0x48, 1, [0x48, 0]) := by decide +kernel

/-- 44 R147: 0xFFFF with byte 0x00, as an operation; then the bytes 48 69 64 E5. -/
theorem test_crc_upd : after .crcUpd (withLat fun l => { l with crc := 0xFFFF, len := 1 })
    (fun t => t.blk.lat.crc) = some 0xE1F0 := by decide +kernel

theorem test_crc_message :
    crcBytes 0x1021 0xFFFF [0x48] = 0x283C ∧ crcBytes 0x1021 0xFFFF [0x48, 0x69] = 0x64E5 ∧
    crcBytes 0x1021 0xFFFF [0x48, 0x69, 0x64] = 0xE500 ∧ crcBytes 0x1021 0xFFFF [0x48, 0x69, 0x64, 0xE5] = 0 ∧
    crcBytes 0x1021 0xFFFF [0x31, 0x32, 0x33, 0x34, 0x35, 0x36, 0x37, 0x38, 0x39] = 0x29B1 := by decide +kernel

/-- 44 R148: a zero at the last byte is accepted; without it the length ends the attempt. -/
theorem test_len_chk_zero_first : after .lenChk (withLat fun l => { l with crc := 0, len := 29 })
    (fun t => t.label) = some .crcZero := by decide +kernel

theorem test_len_chk_overlen : after .lenChk (withLat fun l => { l with crc := 0x3730, len := 29 })
    (fun t => t.label) = some (.outcome .overlen) := by decide +kernel

/-- V-RSSI-1: the sum over 84 entries of 16 is 336, the average 4, and its square root 2 (the logarithm is free). -/
theorem test_rssi_sum :
    amplitudeSum t1 { Arch.reset t1 with mring := (List.range 84).map (fun k => (k, num 16)) } 84 0 (num 0) = num 336 ∧
    f64Sqrt (f64Div (num 336) (num 84)) = num 2 := by decide +kernel

/-- A ring with one magnitude 4 and 319 zeros. -/
def oneFour : State := withArch fun a => { a with mring := [(0, num 4)] }

theorem after_rssi (s : State) : after .rssi s (fun t => t.blk.lat.rssi) =
    some (signalLevel cfg s.blk.arch s.blk.lat.nbits) := rfl

/-- The amplitudes sum to 2, over 320 samples. -/
theorem test_rssi : after .rssi oneFour (fun t => t.blk.lat.rssi) =
    some (f64Mul (num 20) (f64Log10 (f64Div (f64Sqrt (f64Div (num 2) (num 320))) (num 1)))) := by
  have hs : span cfg oneFour.blk.lat.nbits = 320 := by decide +kernel
  have h : amplitudeSum cfg oneFour.blk.arch 320 0 cfg.zero = num 2 := by decide +kernel
  have hk : cfg.par.kCal = num 1 := rfl
  rw [after_rssi, signalLevel, hs, h, hk]
  simp only [cfg_mul, cfg_ofInt, cfg_log10, cfg_div, cfg_sqrt, Nat.cast_ofNat, num]

/-- V-RSSI-6: a window of zeros gives minus infinity. -/
theorem test_rssi_of_zeros : after .rssi State.reset (fun t => t.blk.lat.rssi) = some 0xFFF0000000000000 := by
  decide +kernel

/-- 45 R163 and 95 §2.9. -/
theorem test_tstamp : after .tstamp { State.reset with now := 1700000000005188 } (fun t => t.blk.lat.time) =
    some 1700000000000068 := by decide +kernel

theorem test_tstamp_wraps : after .tstamp State.reset (fun t => t.blk.lat.time) = some 18446744073709546496 := by
  decide +kernel

/-- 45 R165: BUF = 48 69 64 E5, LEN = 4; entries of OUT_DATA past the frame stay. -/
theorem test_emit : after .emit
    { withLat (fun l => { l with buf := [0x48, 0x69, 0x64, 0xE5, 7] ++ List.replicate 24 0, len := 4, time := 1000030 })
      with blk.arch.outData := List.replicate 29 9 }
    (fun t => (t.blk.arch.outLen, t.blk.arch.outData.take 5, t.blk.arch.outValid, t.blk.arch.out)) =
      some (4, [0x48, 0x69, 0x64, 0xE5, 9], true, [⟨4, [0x48, 0x69, 0x64, 0xE5], 1000030, 0⟩]) := by decide +kernel

/-- 95 §2.8: P0, LEN = 29. -/
theorem test_skip_set : after .skipSet (withLat fun l => { l with nbits := 232 }) (fun t => t.blk.arch.skip) =
    some 7744 := by decide +kernel

theorem test_skip_set_shortest : after .skipSet (withLat fun l => { l with nbits := 16 }) (fun t => t.blk.arch.skip) =
    some 832 := by decide +kernel

/-! ### The step's outcomes, on hand-placed rings -/

/-- 44 R149 (c): FF FF is the shortest frame; T1 sets SKIP to 52 and emits the two bytes. -/
theorem test_step_frame :
    let r := ringStep t1 1001310 (t1Block 34 (preamble20 ++ onesFFFF))
    r.2 = .frame ∧ r.1.arch.out.map (·.data) = [[0xFF, 0xFF]] ∧ r.1.arch.outTime = 1000030 ∧ r.1.arch.skip = 52 := by
  decide +kernel

theorem test_step_overlen :
    let r := ringStep t1 0 (t1Block 33 (preamble20 ++ zeros4))
    r.2 = .overlen ∧ r.1.arch.out = [] ∧ r.1.arch.skip = 0 ∧ r.1.lat.len = 4 := by decide +kernel

theorem test_step_desync :
    let r := ringStep t1 0 (t1Block 34 preamble20)
    r.2 = .desync ∧ r.1.arch.out = [] ∧ r.1.arch.skip = 0 ∧ r.1.lat.nbits = 0 := by decide +kernel

theorem test_step_no_match : (ringStep t1 0 (t1Block 34 [])).2 = .noMatch := by decide +kernel

/-! ### Memory and reset -/

theorem test_reset_memory_in_form :
    Memory.wf cfg.zero State.reset.blk.arch.dring ∧ Memory.wf cfg.zero State.reset.blk.arch.mring := by decide

theorem test_placed_word_runs : step (State.reset.withFetchWord 5 10) = exec .skipTick State.reset := by rfl

/-! ### Witnesses: every obligation's hypotheses can be met -/

theorem witness_EachWordNamesOneOperation : decode (.stage 21#5) = .ok .skipSet ∧ decode (.port 0x3FF#10) = .ok (.reset 255) :=
  by decide

theorem witness_StepRunsDecodedOperation :
    ∃ (s : State) (c : Code) (now : BitVec 64) (rest : List Xact) (i : Instr),
      s.input = ⟨.code c, now⟩ :: rest ∧ decode c = .ok i :=
  ⟨{ State.reset with input := [⟨.code (.port 0x1E4#10), 5⟩] }, .port 0x1E4#10, 5, [], .byte 228, rfl, by decide⟩

theorem witness_StepWithoutAnOperation :
    State.reset.input = [] ∧
    (∃ (s : State) (d g : F64) (now : BitVec 64) (rest : List Xact) (b' : Block F64) (o : StepOutcome),
      s.input = ⟨.push d g, now⟩ :: rest ∧ s.blk.arch.run = false ∧ o ≠ .frame ∧
      ringStep cfg now { s.blk with lat.d := d, lat.mag := g } = (b', o)) ∧
    (∃ (s : State) (now : BitVec 64) (rest : List Xact), s.input = ⟨.code (.stage 22#5), now⟩ :: rest ∧
      (Code.stage 22#5).wf = false) ∧
    (∃ (s : State) (now : BitVec 64) (rest : List Xact), s.input = ⟨.code (.stage 0#5), now⟩ :: rest ∧
      (Code.stage 0#5).wf = false) :=
  ⟨rfl, ⟨{ State.reset with input := [⟨.push 3 16, 0⟩], blk.arch.run := false }, 3, 16, 0, [], _, .skipped, rfl, rfl,
      by decide, rfl⟩,
    ⟨{ State.reset with input := [⟨.code (.stage 22#5), 0⟩] }, 0, [], rfl, by decide⟩,
    ⟨{ State.reset with input := [⟨.code (.stage 0#5), 0⟩] }, 0, [], rfl, by decide⟩⟩

/-- Each format at both widths, at the words where the formats that share a container meet. -/
theorem witness_PlacedWordRunsNext :
    (encode (.reset 255)).toNat = 2 ^ 10 - 1 ∧ (encode (.sample 4 0)).toNat = 2 ^ 10 ∧ (encode .symHH).toNat = 3 ∧
    (encode .mag).toNat = 2 ^ 2 ∧ (encode .center).toNat = 1 ∧
    (16 : Nat) = 8 * (Instr.reset 255).format.bytes ∧ (16 : Nat) = (Instr.sample 4 0).format.width ∧
    (8 : Nat) = 8 * Instr.symHH.format.bytes ∧ (8 : Nat) = 8 * Instr.mag.format.bytes ∧
    (5 : Nat) = Instr.center.format.width := by decide

theorem witness_OffsetsStayBelowCapacity :
    (19 : Nat) < 20 ∧ 231 < 8 * cfg.par.maxBytes ∧ 232 ≤ 8 * cfg.par.maxBytes ∧
    7743 < span cfg 232 ∧ pos cfg 19 = 304 ∧ secondHalfOfs cfg 231 = 7728 := by decide +kernel

theorem witness_TablesPartitionThePreamble :
    cfg.par.preSyms = 20 ∧ cfg.par.preamble.length = 10 ∧ cfg.par.preamble[9]? = some true ∧
    cfg.par.preamble[4]? = some false ∧ (19 : Nat) < 20 := by decide

theorem witness_ByteCommandCases :
    (∃ s : State, s.blk.arch.run = false) ∧
    (∃ s : State, s.blk.arch.run = true ∧ s.blk.arch.phase = false) ∧
    (∃ s : State, s.blk.arch.run = true ∧ s.blk.arch.phase = true) :=
  ⟨⟨withArch fun a => { a with run := false }, rfl⟩, ⟨State.reset, rfl, rfl⟩,
    ⟨withArch fun a => { a with phase := true }, rfl, rfl⟩⟩

theorem witness_SampleIsTwoBytes : State.reset.blk.arch.run = true ∧ State.reset.blk.arch.phase = false := ⟨rfl, rfl⟩

theorem witness_HaltedUntilReset : ∃ (is : List Instr) (s : State), s.blk.arch.run = false ∧
    (∀ i ∈ is, (∃ d, i = .nop d) ∨ (∃ d, i = .byte d) ∨ (∃ d, i = .eos d) ∨ (∃ a b, i = .sample a b)) ∧
    is.length = 4 :=
  ⟨[.nop 0, .byte 1, .eos 2, .sample 3 4], withArch fun a => { a with run := false }, rfl, by simp, rfl⟩

theorem witness_FilterStepOrder : ∃ (x y : Hist F64) (u out : F64),
    out = lpfOut num64 (Config.iqB num64) (Config.iqA num64) ⟨x, y⟩ u ∧ out ≠ 0 :=
  ⟨Hist.const 0, Hist.const 0, num 1, _, rfl, by decide +kernel⟩

theorem witness_RingPushWritesOneSlot : ∃ s : State, s.blk.arch.wr = 8191 ∧
    Memory.wf cfg.zero s.blk.arch.dring ∧ Memory.wf cfg.zero s.blk.arch.mring ∧ s.blk.arch.dring ≠ [] :=
  ⟨withArch fun a => { a with wr := 8191, dring := [(8191, num 2)] }, by decide +kernel⟩

theorem witness_PushAgesEveryEntry : ∃ b : Block F64, b.arch.wr < t1.par.n ∧
    Memory.wf t1.zero b.arch.dring ∧ Memory.wf t1.zero b.arch.mring ∧ 126 + 1 < t1.par.n ∧ 0 + 1 < t1.par.n :=
  ⟨t1Block 34 preamble20, by decide +kernel⟩

/-- Exact arithmetic over the rationals; `sqrt` and `log10` are not used. -/
def ratNum : Num ℚ where
  ofInt z := (z : ℚ)
  lit m k := (m : ℚ) / 10 ^ k
  add x y := x + y
  sub x y := x - y
  mul x y := x * y
  div x y := x / y
  sqrt x := x
  log10 x := x
  gt x y := decide (y < x)
  lt x y := decide (x < y)

/-- Profile T1 over the rationals. -/
def t1Rat : Cfg ℚ := ⟨ratNum, Config.t1 ratNum, by decide +kernel⟩

theorem witness_SumIsTheWindowSum : ExactNum t1Rat.num ∧ (Block.reset t1Rat).memOk t1Rat ∧
    (Block.reset t1Rat).arch.sum = windowSum t1Rat (Block.reset t1Rat).arch :=
  ⟨⟨fun _ => rfl, fun _ _ => rfl, fun _ _ => rfl, fun _ _ => rfl, fun _ _ => rfl, fun _ _ => rfl, fun _ _ => rfl⟩,
    by decide +kernel, by decide +kernel⟩

theorem witness_SkipTickGates : State.reset.blk.arch.skip ≠ 0 ∧ ∃ s : State, s.blk.arch.skip = 0 :=
  ⟨by decide, withArch fun a => { a with skip := 0 }, rfl⟩

/-- A P0 state whose ring holds the preamble at the anchor, with the threshold 1/2. -/
def matchingState : State :=
  { withArch (fun a => { a with dring := placed 0 16 (num 1) preamble20 }) with blk.lat.thr := f64Lit 5 1 }

theorem witness_CorrelatorVerdict :
    ((∀ h ∈ [0, 2, 4, 6, 9, 10, 13, 14, 17, 18],
        f64Gt (readD cfg matchingState.blk.arch (h * 16)) matchingState.blk.lat.thr = true) ∧
      (∀ h ∈ [1, 3, 5, 7, 8, 11, 12, 15, 16, 19],
        f64Lt (readD cfg matchingState.blk.arch (h * 16)) matchingState.blk.lat.thr = true)) ∧
    ¬ ((∀ h ∈ [0, 2, 4, 6, 9, 10, 13, 14, 17, 18],
        f64Gt (readD cfg State.reset.blk.arch (h * 16)) State.reset.blk.lat.thr = true) ∧
      (∀ h ∈ [1, 3, 5, 7, 8, 11, 12, 15, 16, 19],
        f64Lt (readD cfg State.reset.blk.arch (h * 16)) State.reset.blk.lat.thr = true)) := by decide +kernel

/-- The quiet NaN with an empty payload. -/
def someNan : F64 := 0x7FF8000000000000

theorem witness_FlatOrNanNeverMatches :
    (∃ s : State, ∃ v, ∀ h, h < 20 → readD cfg s.blk.arch (pos cfg h) = v) ∧
    (∃ s : State, f64IsNan s.blk.lat.thr = true) ∧
    (∃ s : State, ∃ h, h < 20 ∧ f64IsNan (readD cfg s.blk.arch (pos cfg h)) = true) :=
  ⟨⟨State.reset, cfg.zero, fun _ _ => rfl⟩, ⟨withLat fun l => { l with thr := someNan }, by decide +kernel⟩,
    ⟨withArch fun a => { a with dring := [(304, someNan)] }, 19, by decide +kernel⟩⟩

theorem witness_ManchesterBit :
    (∃ (s : State) (m : Bool), m = f64Gt (readD cfg s.blk.arch ((20 + 2 * s.blk.lat.nbits) * 16)) s.blk.lat.thr ∧
      m = f64Gt (readD cfg s.blk.arch ((20 + 2 * s.blk.lat.nbits) * 16 + 16)) s.blk.lat.thr) ∧
    (∃ (s : State) (m1 m2 : Bool), s.blk.lat.nbits = 231 ∧ m1 ≠ m2 ∧
      m1 = f64Gt (readD cfg s.blk.arch ((20 + 2 * s.blk.lat.nbits) * 16)) s.blk.lat.thr ∧
      m2 = f64Gt (readD cfg s.blk.arch ((20 + 2 * s.blk.lat.nbits) * 16 + 16)) s.blk.lat.thr) :=
  ⟨⟨State.reset, false, by decide +kernel⟩,
    ⟨{ withArch (fun a => { a with dring := [(7712, num 1)] }) with blk.lat.nbits := 231 }, true, false, rfl,
      by decide +kernel⟩⟩

theorem witness_SymbolsDecode : (∃ m1 m2 : Bool, m1 = m2) ∧ ∃ m1 m2 : Bool, m1 ≠ m2 :=
  ⟨⟨true, true, rfl⟩, true, false, by decide⟩

theorem witness_ByteAccumulate :
    (∃ (s : State) (cur : Byte), cur.getLsbD 0 = s.blk.lat.bit ∧
      (∀ k, k < 7 → cur.getLsbD (k + 1) = s.blk.lat.cur.getLsbD k) ∧ s.blk.lat.nbits % 8 ≠ 0) ∧
    (∃ (s : State) (cur : Byte), cur.getLsbD 0 = s.blk.lat.bit ∧
      (∀ k, k < 7 → cur.getLsbD (k + 1) = s.blk.lat.cur.getLsbD k) ∧ s.blk.lat.nbits % 8 = 0 ∧
      s.blk.lat.len = 28 ∧ s.blk.lat.len.toNat < s.blk.lat.buf.length) :=
  ⟨⟨withLat fun l => { l with cur := 0x24, nbits := 7 }, 0x48, by decide +kernel⟩,
    ⟨withLat fun l => { l with cur := 0x24, nbits := 232, len := 28 }, 0x48, by decide +kernel⟩⟩

theorem witness_CrcUpdate :
    (∃ s : State, s.blk.lat.len = 1 ∧ s.blk.lat.len ≠ 0 ∧ s.blk.lat.buf[s.blk.lat.len.toNat - 1]? = some 0) ∧
    (∃ s : State, s.blk.lat.len = 29 ∧ s.blk.lat.len ≠ 0 ∧ s.blk.lat.buf[s.blk.lat.len.toNat - 1]? = some 0) :=
  ⟨⟨withLat fun l => { l with len := 1 }, by decide +kernel⟩, ⟨withLat fun l => { l with len := 29 }, by decide +kernel⟩⟩

theorem witness_LengthCheck :
    (∃ s : State, s.blk.lat.crc = 0 ∧ s.blk.lat.len = 29) ∧
    (∃ s : State, s.blk.lat.crc ≠ 0 ∧ s.blk.lat.len = 29#5) ∧
    (∃ s : State, s.blk.lat.crc ≠ 0 ∧ s.blk.lat.len ≠ 29#5) :=
  ⟨⟨withLat fun l => { l with len := 29 }, by decide +kernel⟩,
    ⟨withLat fun l => { l with crc := 1, len := 29 }, by decide +kernel⟩,
    ⟨withLat fun l => { l with crc := 1, len := 28 }, by decide +kernel⟩⟩

theorem witness_SignalLevel : ∃ (s : State) (count : Nat) (total : F64), count = (10 + s.blk.lat.nbits) * 32 ∧
    total = (List.range count).foldl (fun acc j => f64Add acc (f64Sqrt (readM cfg s.blk.arch j))) (f64OfInt 0) ∧
    f64IsZero total = true ∧ s.blk.lat.nbits ≤ 232 :=
  ⟨State.reset, 320, 0, by decide +kernel⟩

/-- EMIT at the longest frame and at none. -/
theorem witness_EmitRecord :
    (∃ (s : State) (frame : List Byte), frame.length = s.blk.lat.len.toNat ∧ frame <+: s.blk.lat.buf ∧
      s.blk.lat.len.toNat ≤ s.blk.arch.outData.length ∧ s.blk.lat.len = 29) ∧
    (∃ (s : State) (frame : List Byte), frame.length = s.blk.lat.len.toNat ∧ frame <+: s.blk.lat.buf ∧
      s.blk.lat.len.toNat ≤ s.blk.arch.outData.length ∧ s.blk.lat.len = 0) :=
  ⟨⟨withLat fun l => { l with len := 29 }, List.replicate 29 0, by decide +kernel⟩,
    ⟨State.reset, [], by decide +kernel⟩⟩

/-- SYM.HL is a symbol and none of the operations named in the clauses. -/
theorem witness_OneWriterPerRegister : ∃ (i : Instr) (s t : State), i.format = .sym ∧ exec i s = .next t ∧
    i ≠ .lpfI ∧ i ≠ .lpfQ ∧ i ≠ .lpfD ∧ i ≠ .prev ∧ i ≠ .ringPush ∧ i ≠ .thrUpd ∧ i ≠ .skipTick ∧ i ≠ .skipSet ∧
    i ≠ .emit :=
  ⟨.symHL, State.reset, _, rfl, rfl, by decide⟩

/-- A step with a known outcome, as the pair it answers. -/
theorem pair_of_outcome {r : Block F64 × StepOutcome} {o : StepOutcome} (h : r.2 = o) : ∃ b', r = (b', o) :=
  ⟨r.1, by rw [← h]⟩

theorem witness_AbandonLeavesNothing :
    (∃ b b' : Block F64, ringStep t1 0 b = (b', .noMatch)) ∧
    (∃ b : Block F64, b.memOk t1 ∧ ∃ b', ringStep t1 0 b = (b', .desync)) ∧
    (∃ b : Block F64, b.memOk t1 ∧ ∃ b', ringStep t1 0 b = (b', .overlen)) :=
  ⟨⟨t1Block 34 [], pair_of_outcome test_step_no_match⟩,
    ⟨t1Block 34 preamble20, by decide +kernel, pair_of_outcome test_step_desync.1⟩,
    ⟨t1Block 33 (preamble20 ++ zeros4), by decide +kernel, pair_of_outcome test_step_overlen.1⟩⟩

theorem p0_frame : (ringStep cfg 0 (p0Block 544 (preamble20 ++ onesFFFF))).2 = .frame := by decide +kernel

theorem witness_FrameEmitsOneRecord : ∃ b : Block F64, b.memOk cfg ∧ ∃ b', ringStep cfg 0 b = (b', .frame) :=
  ⟨p0Block 544 (preamble20 ++ onesFFFF), by decide +kernel, pair_of_outcome p0_frame⟩

/-- One step for each clause; the outcomes SKIPPED and the silent ends, and FRAME for the front alone. -/
theorem witness_PairStepFrame :
    (pairStep t1 0 { Block.reset t1 with lat.qin := 128 }).2 = .skipped ∧
    (pairStep t1 0 { t1Block 34 [] with arch.ihold := 128, lat.qin := 128 }).2 = .noMatch ∧
    (pairStep t1 0 { t1Block 34 preamble20 with arch.ihold := 128, lat.qin := 128 }).2 = .desync ∧
    (pairStep t1 0 { t1Block 33 (preamble20 ++ zeros4) with arch.ihold := 128, lat.qin := 128 }).2 = .overlen ∧
    (pairStep t1 0 { t1Block 34 (preamble20 ++ onesFFFF) with arch.ihold := 128, lat.qin := 128 }).2 = .frame ∧
    Memory.wf t1.zero (t1Block 34 preamble20).arch.dring ∧ Memory.wf t1.zero (t1Block 34 preamble20).arch.mring ∧
    (Block.reset t1).arch.skip ≠ 0 ∧ (t1Block 34 preamble20).arch.skip = 0 := by
  decide +kernel

theorem witness_NowMattersOnlyInAFrame : (pairStep t1 0 { Block.reset t1 with lat.qin := 128 }).2 ≠ .frame := by
  decide +kernel

theorem witness_WarmUpSkipsEveryPair : State.reset.blk.arch.run = true ∧ State.reset.blk.arch.phase = false ∧
    [((228 : Byte), (128 : Byte))].length ≤ State.reset.blk.arch.skip ∧ [((228 : Byte), (128 : Byte))] ≠ [] := by
  decide +kernel

/-- A T1 block with the half-bits of FF FF at the anchor and the threshold 1/2. -/
def ffffBlock : Block F64 :=
  { arch := { Arch.reset t1 with dring := placed 0 1 (num 1) (preamble20 ++ onesFFFF), sum := num 34 },
    lat := Latch.reset t1 }

/-- Its threshold. -/
def ffffThr : F64 := t1.num.div ffffBlock.arch.sum (t1.num.ofInt t1.par.w)

theorem levels_stand : ∀ h, h < 52 → ∀ level : Bool, (airLevels t1.par [0xFF, 0xFF])[h]? = some level →
    t1.num.gt (readD t1 ffffBlock.arch (pos t1 h)) ffffThr = level ∧
    t1.num.lt (readD t1 ffffBlock.arch (pos t1 h)) ffffThr = !level := by decide +kernel

theorem ffff_stands : standsAtAnchor t1 ffffBlock.arch ffffThr (airLevels t1.par [0xFF, 0xFF]) := by
  intro h level hl
  have hlen : (airLevels t1.par [0xFF, 0xFF]).length = 52 := by decide +kernel
  have hh := (List.getElem?_eq_some_iff.mp hl).1
  exact levels_stand h (by omega) level hl

theorem ffff_zero_at_the_end : ∀ k, 0 < k → k < 2 → crcBytes t1.par.crcPoly t1.par.crcInit
    (([0xFF, 0xFF] : List Byte).take k) ≠ 0 := by
  intro k h0 hk
  obtain rfl : k = 1 := by omega
  decide +kernel

theorem witness_TransmissionIsDecoded : ∃ (b : Block F64) (bytes : List Byte), b.memOk t1 ∧
    bytes ≠ [] ∧ bytes.length ≤ t1.par.maxBytes ∧ crcBytes t1.par.crcPoly t1.par.crcInit bytes = 0 ∧
    (∀ k, 0 < k → k < bytes.length → crcBytes t1.par.crcPoly t1.par.crcInit (bytes.take k) ≠ 0) ∧
    standsAtAnchor t1 b.arch (t1.num.div b.arch.sum (t1.num.ofInt t1.par.w)) (airLevels t1.par bytes) :=
  ⟨ffffBlock, [0xFF, 0xFF], by decide +kernel, by decide, by decide, by decide +kernel,
    ffff_zero_at_the_end, ffff_stands⟩

theorem witness_PortStepsKeepSoundness : ∃ s t : State, s.blk.sound cfg ∧ s.portOnly = true ∧ step s = .next t ∧
    s.input ≠ [] :=
  ⟨{ State.reset with input := [⟨.code (.port 0x180#10), 0⟩] }, _, by decide +kernel, by decide +kernel, rfl,
    by simp⟩

theorem witness_EveryStepKeepsMemories : ∃ s t : State, s.blk.memOk cfg ∧ step s = .next t ∧ s.input ≠ [] :=
  ⟨{ State.reset with input := [⟨.push 3 16, 0⟩] }, _, by decide +kernel, rfl, by simp⟩

theorem witness_StepLocalsNeverLeak : ∃ (i : Instr) (s s' t t' : State), i.format = .port ∧
    s.blk.arch = s'.blk.arch ∧ s.now = s'.now ∧ s.blk.memOk cfg ∧ s'.blk.memOk cfg ∧ s.blk.lat ≠ s'.blk.lat ∧
    exec i s = .next t ∧ exec i s' = .next t' :=
  ⟨.byte 128, withArch fun a => { a with phase := true },
    { withArch (fun a => { a with phase := true }) with blk.lat.crc := 5 }, _, _, rfl, rfl, rfl, by decide +kernel,
    by decide +kernel, by decide +kernel, rfl, rfl⟩

theorem witness_OfIntIsExact : (2 ^ 53 - 1 : Int).natAbs < 2 ^ 53 := by decide

theorem witness_ComparisonsAreIeee : f64IsNan someNan = true ∧ f64Finite (num 1) = true ∧ f64Finite (num (-2)) = true :=
  by decide +kernel

/-- A tie that rounds down to 0 and one that rounds up to 2. -/
theorem witness_RoundingIsNearestEven :
    2 * 1 = (2 * roundShift 1 1 + 1) * 2 ^ 1 ∧ 2 * roundShift 3 1 * 2 ^ 1 = 2 * 3 + 2 ^ 1 := by decide +kernel

theorem witness_ArithmeticIsCorrectlyRounded :
    f64Finite (num 1) = true ∧ f64Finite (num 3) = true ∧ f64IsZero (num 3) = false ∧ f64Finite (num 2) = true ∧
    0 ≤ f64Value (num 2) := by decide +kernel

/-- A tie goes to the even datum: 2^53 + 1 is halfway between 2^53 and 2^53 + 2, 2^53 + 3 between 2^53 + 2 and
2^53 + 4. Half a unit past the largest finite datum is infinite, and just below it is not. -/
theorem test_rounding_ties :
    f64Add (num (2 ^ 53)) (num 1) = num (2 ^ 53) ∧ f64Add (num (2 ^ 53 + 2)) (num 1) = num (2 ^ 53 + 4) ∧
    f64OfInt (2 ^ 1024 - 2 ^ 970) = f64Inf false ∧ f64OfInt (2 ^ 1024 - 2 ^ 970 - 1) = 0x7FEFFFFFFFFFFFFF := by
  decide +kernel

end Sys2Proof.Tests
end

/-! ### The state at power-on -/

namespace Sys2Proof.Proofs

open Sys2Proof.Machine

/-- 10_state R35: at reset every slot of both rings reads `zero`, since neither ring lists a slot (log 14). -/
theorem read_reset_rings {V : Type} (C : Cfg V) (k : Nat) :
    Memory.read C.zero (Arch.reset C).dring k = C.zero ∧ Memory.read C.zero (Arch.reset C).mring k = C.zero :=
  ⟨Laws.read_nil C.zero k, Laws.read_nil C.zero k⟩

/-- Settles O12: the reset table with P0's values for `zero`, SKIP_INIT and MAX_BYTES, and rings that read zero. -/
theorem powerOnState : Obligations.PowerOnState := by
  refine ⟨?_, read_reset_rings cfg, cfg_zero⟩
  change Arch.reset cfg = _
  simp only [Arch.reset, FilterFile.const, Hist.const, cfg_zero, cfg_skipInit, cfg_maxBytes]

end Sys2Proof.Proofs

/-! ### Encodings: the command words, the symbols and the correlator's tables -/

namespace Sys2Proof.Proofs

open Sys2Proof.Machine

/-! #### The port commands -/

/-- The mask of 30_encoding R72 keeps `CW[9:8]`, the command, and clears the data byte. -/
theorem and_commandMask (cw : BitVec 10) : cw &&& 0x300#10 = cw.extractLsb' 8 2 ++ 0#8 := by
  have hsplit : cw.extractLsb' 8 2 ++ cw.extractLsb' 0 8 = cw :=
    (BitVec.extractLsb'_append_extractLsb'_eq_extractLsb' rfl).trans BitVec.extractLsb'_eq_self
  calc cw &&& 0x300#10
      = (cw.extractLsb' 8 2 ++ cw.extractLsb' 0 8) &&& (BitVec.allOnes 2 ++ 0#8) := by rw [hsplit]; rfl
    _ = cw.extractLsb' 8 2 ++ 0#8 := by rw [BitVec.and_append, BitVec.and_allOnes, BitVec.and_zero]

/-- What the port decoder reads from a command word, by the word's bits under the mask. -/
theorem decodePort_cases (cw : BitVec 10) :
    (cw &&& 0x300#10 = 0x000#10 ∧ decodePort cw = .nop (cw.setWidth 8)) ∨
    (cw &&& 0x300#10 = 0x100#10 ∧ decodePort cw = .byte (cw.setWidth 8)) ∨
    (cw &&& 0x300#10 = 0x200#10 ∧ decodePort cw = .eos (cw.setWidth 8)) ∨
    (cw &&& 0x300#10 = 0x300#10 ∧ decodePort cw = .reset (cw.setWidth 8)) := by
  have hcmd : ∀ cmd : BitVec 2, cmd = 0 ∨ cmd = 1 ∨ cmd = 2 ∨ cmd = 3 := by decide
  rw [and_commandMask, BitVec.setWidth_eq_extractLsb' (by decide), decodePort]
  rcases hcmd (cw.extractLsb' 8 2) with h | h | h | h <;> rw [h]
  · exact .inl ⟨rfl, rfl⟩
  · exact .inr (.inl ⟨rfl, rfl⟩)
  · exact .inr (.inr (.inl ⟨rfl, rfl⟩))
  · exact .inr (.inr (.inr ⟨rfl, rfl⟩))

/-- Settles O3: in each of the four cases of the command, one match and one reading hold and the others fail. -/
theorem portWordsByMatchAndMask : Obligations.PortWordsByMatchAndMask := by
  intro cw
  rcases decodePort_cases cw with ⟨hm, hd⟩ | ⟨hm, hd⟩ | ⟨hm, hd⟩ | ⟨hm, hd⟩ <;> simp [hm, hd]

/-! #### The Manchester symbols -/

variable {V : Type}

/-- A symbol without a mid-bit transition is a desync (30_encoding R76). -/
theorem opSymbol_of_eq (C : Cfg V) (b : Block V) {m1 m2 : Bool} (h : m1 = m2) :
    opSymbol C m1 m2 b = ({ b with lat.m1 := m1, lat.m2 := m2 }, some .desync) := by
  rcases Laws.decodeSymbol_cases C { b with lat.m1 := m1, lat.m2 := m2 } with ⟨-, e⟩ | ⟨hne, -⟩
  · exact e
  · exact absurd h hne

/-- A symbol with a transition is one bit, its polarity chosen by MAN_ONE_IS_HL (44 R143, R144). -/
theorem opSymbol_of_ne (C : Cfg V) (b : Block V) {m1 m2 : Bool} (h : m1 ≠ m2) :
    opSymbol C m1 m2 b =
      ({ b with
         lat.m1 := m1, lat.m2 := m2, lat.bit := if C.par.manOneIsHl = true then m1 else m2,
         lat.nbits := b.lat.nbits + 1 }, none) := by
  rcases Laws.decodeSymbol_cases C { b with lat.m1 := m1, lat.m2 := m2 } with ⟨heq, -⟩ | ⟨-, e⟩
  · exact absurd heq h
  · exact e

/-- A symbol with a transition, as an operation of profile P0, where the bit is the first half. -/
theorem mayEnd_opSymbol_of_ne (s : State) {m1 m2 : Bool} (h : m1 ≠ m2) :
    mayEnd s (opSymbol cfg m1 m2 s.blk) = .next { s with
      blk.lat.m1 := m1, blk.lat.m2 := m2, blk.lat.bit := m1, blk.lat.nbits := s.blk.lat.nbits + 1,
      label := .plain } := by
  rw [opSymbol_of_ne cfg s.blk h, cfg_manOneIsHl, if_pos rfl]
  rfl

/-- A symbol without a transition, as an operation of profile P0. -/
theorem mayEnd_opSymbol_same (s : State) (m : Bool) :
    mayEnd s (opSymbol cfg m m s.blk) = .next { s with
      blk.lat.m1 := m, blk.lat.m2 := m, label := .outcome .desync } := by
  rw [opSymbol_of_eq cfg s.blk rfl]
  rfl

/-- Settles O33: the two cases of a symbol in every configuration, and each SYM code as one of them. -/
theorem symbolsDecode : Obligations.SymbolsDecode :=
  ⟨fun _ C b _ _ => ⟨opSymbol_of_eq C b, opSymbol_of_ne C b⟩, fun s =>
    ⟨mayEnd_opSymbol_of_ne s (by decide), mayEnd_opSymbol_of_ne s (by decide), mayEnd_opSymbol_same s false,
      mayEnd_opSymbol_same s true⟩⟩

/-! #### The correlator's tables -/

theorem mem_hiPos (p : Params V) (h : Nat) : h ∈ hiPos p ↔ h < p.preSyms ∧ (preambleLevels p)[h]? = some true := by
  simp [hiPos]

theorem mem_loPos (p : Params V) (h : Nat) : h ∈ loPos p ↔ h < p.preSyms ∧ (preambleLevels p)[h]? = some false := by
  simp [loPos]

/-- Each coded bit has one half at each level. -/
theorem count_coded (o level : Bool) (bits : List Bool) : (bits.flatMap (manchester o)).count level = bits.length := by
  have hone : ∀ bit, (manchester o bit).count level = 1 := by revert o level; decide
  induction bits with
  | nil => rfl
  | cons b bs ih => rw [List.flatMap_cons, List.count_append, hone, ih, List.length_cons, Nat.add_comm]

theorem length_coded (o : Bool) (bits : List Bool) : (bits.flatMap (manchester o)).length = 2 * bits.length := by
  rw [← List.count_true_add_count_false, count_coded, count_coded, Nat.two_mul]

/-- The positions of a level in a list are as many as its occurrences. -/
theorem length_positions (levels : List Bool) (level : Bool) :
    ((List.range levels.length).filter (fun h => levels[h]? == some level)).length = levels.count level := by
  have hread : (List.range levels.length).map (fun h => levels[h]?) = levels.map some := by
    apply List.ext_getElem <;> simp
  calc ((List.range levels.length).filter (fun h => levels[h]? == some level)).length
      = ((List.range levels.length).map (fun h => levels[h]?)).count (some level) := by
        rw [List.count, List.countP_map, List.countP_eq_length_filter]; rfl
    _ = levels.count level := by rw [hread, List.count_map_of_injective _ _ (Option.some_injective _)]

theorem preambleLevels_double (p : Params V) (j : Nat) :
    (preambleLevels p)[2 * j]? = p.preamble[j]?.map (· == p.manOneIsHl) := by
  simp [preambleLevels, Laws.coded_getElem?]

theorem preambleLevels_double_succ (p : Params V) (j : Nat) :
    (preambleLevels p)[2 * j + 1]? = p.preamble[j]?.map (fun bit => !(bit == p.manOneIsHl)) := by
  have hdiv : (2 * j + 1) / 2 = j := by omega
  simp [preambleLevels, Laws.coded_getElem?, hdiv]

section TenBits

variable {p : Params V} (hsyms : p.preSyms = 20) (hbits : p.preamble.length = 10)
include hsyms hbits

theorem preSyms_eq_levels_length : p.preSyms = (preambleLevels p).length := by
  rw [preambleLevels, length_coded, hsyms, hbits]

theorem hiPos_length : (hiPos p).length = 10 := by
  rw [hiPos, preSyms_eq_levels_length hsyms hbits, length_positions, preambleLevels, count_coded, hbits]

theorem loPos_length : (loPos p).length = 10 := by
  rw [loPos, preSyms_eq_levels_length hsyms hbits, length_positions, preambleLevels, count_coded, hbits]

/-- A half-bit of the preamble has exactly one of the two levels. -/
theorem mem_hiPos_iff_not_mem_loPos {h : Nat} (hh : h < 20) : h ∈ hiPos p ↔ h ∉ loPos p := by
  have hlt : h < (preambleLevels p).length := by rwa [← preSyms_eq_levels_length hsyms hbits, hsyms]
  rw [mem_hiPos, mem_loPos, List.getElem?_eq_getElem hlt, hsyms]
  simp [hh]

/-- A preamble bit equal to MAN_ONE_IS_HL is high in its first half; any other is high in its second (R78). -/
theorem halves_of_preamble_bit {j : Nat} {bit : Bool} (hj : p.preamble[j]? = some bit) :
    if bit = p.manOneIsHl then 2 * j ∈ hiPos p ∧ 2 * j + 1 ∈ loPos p else 2 * j ∈ loPos p ∧ 2 * j + 1 ∈ hiPos p := by
  have hlt : j < 10 := hbits ▸ (List.getElem?_eq_some_iff.mp hj).1
  have hfirst : 2 * j < 20 := by omega
  have hsecond : 2 * j + 1 < 20 := by omega
  simp only [mem_hiPos, mem_loPos, hsyms, hfirst, hsecond, true_and, preambleLevels_double,
    preambleLevels_double_succ, hj, Option.map_some]
  by_cases heq : bit = p.manOneIsHl
  · simp [heq]
  · simp [heq]

end TenBits

/-- Settles O11: the levels of the coded preamble give each table its length and its members; the tables keep the
order of the range they are taken from. -/
theorem tablesPartitionThePreamble : Obligations.TablesPartitionThePreamble := by
  refine ⟨fun V p hsyms hbits => ⟨hiPos_length hsyms hbits, loPos_length hsyms hbits,
    List.pairwise_lt_range.filter _, List.pairwise_lt_range.filter _, fun h hh => ?_, fun j bit hj => ?_⟩, ?_, ?_⟩
  · exact mem_hiPos_iff_not_mem_loPos hsyms hbits hh
  · exact halves_of_preamble_bit hsyms hbits hj
  · decide
  · decide

end Sys2Proof.Proofs

/-! ### The Signal Conditioner -/

namespace Sys2Proof.Proofs

open Sys2Proof.Machine

/-! #### The centred sample -/

/-- The centred sample of 40 R100 under P0's bias. -/
@[simp] theorem centred_cfg (b : Byte) : centred cfg b = (b.toNat : Int) - 128 := by
  rw [centred, cfg_bias]
  rfl

theorem exec_center (s : State) : exec .center s = .next (s.put (opCenter cfg s.blk) .plain) := rfl

/-- Settles O19: CENTER puts the two centred bytes, and under P0's bias these are the bytes less 128. -/
theorem centerSubtractsTheBias : Obligations.CenterSubtractsTheBias := by
  intro s
  rw [exec_center, opCenter, centred_cfg, centred_cfg]
  rfl

/-! #### The filter step -/

section FilterStep

variable {V : Type} (n : Num V) (b : FwdCoef V) (a : BackCoef V) (x y : Hist V) (u : V)

/-- 40 R101: the new input is `X[0]`, the stored inputs move up by one, and the stored outputs are read unmoved. -/
theorem lpfOut_eq : lpfOut n b a ⟨x, y⟩ u =
    n.sub (n.sub (n.sub (n.sub
        (n.add (n.add (n.add (n.add (n.mul b.c0 u) (n.mul b.c1 x.h0)) (n.mul b.c2 x.h1)) (n.mul b.c3 x.h2)) (n.mul b.c4 x.h3))
        (n.mul a.c1 y.h0)) (n.mul a.c2 y.h1)) (n.mul a.c3 y.h2)) (n.mul a.c4 y.h3) := rfl

/-- 40 R101: each history drops its oldest value; the outputs take in the output of this step. -/
theorem lpfNext_eq : lpfNext n b a ⟨x, y⟩ u =
    ⟨⟨u, x.h0, x.h1, x.h2, x.h3⟩, ⟨lpfOut n b a ⟨x, y⟩ u, y.h0, y.h1, y.h2, y.h3⟩⟩ := rfl

end FilterStep

/-- Settles O20: the register file takes in the output, which is the accumulation of R101. -/
theorem filterStepOrder : Obligations.FilterStepOrder := by
  intro V n b a x y u out hout
  have hacc : lpfOut n b a ⟨x, y⟩ u = out := (lpfOut_eq n b a x y u).trans hout.symm
  exact ⟨hacc, by rw [lpfNext_eq, hacc]⟩

/-! #### The two channels -/

@[simp] theorem cfg_iqB : cfg.par.iqB = Config.iqB cfg.num := rfl
@[simp] theorem cfg_iqA : cfg.par.iqA = Config.iqA cfg.num := rfl

theorem exec_lpfI (s : State) : exec .lpfI s = .next (s.put (opLpfI cfg s.blk) .plain) := rfl

theorem exec_lpfQ (s : State) : exec .lpfQ s = .next (s.put (opLpfQ cfg s.blk) .plain) := rfl

/-- Settles O21: each channel puts its own file and result, both with P0's conditioner coefficients. -/
theorem conditionerFilters : Obligations.ConditionerFilters := by
  intro s
  constructor
  · rw [exec_lpfI, opLpfI, cfg_iqB, cfg_iqA]
    rfl
  · rw [exec_lpfQ, opLpfQ, cfg_iqB, cfg_iqA]
    rfl

end Sys2Proof.Proofs

/-! ### The Frequency Discriminator -/

namespace Sys2Proof.Proofs

open Sys2Proof.Machine

/-! #### Magnitude and deviation -/

/-- 41 R111 over the reference NUM. -/
theorem magnitude_cfg (i q : F64) : magnitude cfg.num i q = f64Add (f64Mul i i) (f64Mul q q) := by
  rw [magnitude, cfg_add, cfg_mul]

/-- 41 R112 over the reference NUM: the cross product of the pair with its change, over the padded magnitude. -/
theorem deviation_cfg (i q ip qp mag : F64) : deviation cfg i q ip qp mag =
    f64Div (f64Sub (f64Mul i (f64Sub q qp)) (f64Mul q (f64Sub i ip))) (f64Add mag cfg.par.eps) := by
  rw [deviation, cfg_div, cfg_sub, cfg_mul, cfg_add]

theorem exec_mag (s : State) : exec .mag s = .next (s.put (opMag cfg s.blk) .plain) := rfl

theorem exec_disc (s : State) : exec .disc s = .next (s.put (opDisc cfg s.blk) .plain) := rfl

/-- Settles O22: MAG puts the magnitude and DISC the deviation, each with the reference NUM's operations. -/
theorem magnitudeAndDeviation : Obligations.MagnitudeAndDeviation := by
  intro s
  constructor
  · rw [exec_mag, opMag, magnitude_cfg]
    rfl
  · rw [exec_disc, opDisc, deviation_cfg]
    rfl

/-! #### The post-filter and the previous pair -/

@[simp] theorem cfg_fmB : cfg.par.fmB = Config.fmB cfg.num := rfl
@[simp] theorem cfg_fmA : cfg.par.fmA = Config.fmA cfg.num := rfl

theorem exec_lpfD (s : State) : exec .lpfD s = .next (s.put (opLpfD cfg s.blk) .plain) := rfl

theorem exec_prev (s : State) : exec .prev s = .next (s.put (opPrev s.blk) .plain) := rfl

/-- Settles O23: LPF.D puts its file and result from the scaled deviation with P0's post-filter coefficients, and PREV
puts the pair that the channels hold. -/
theorem postFilterAndPrevious : Obligations.PostFilterAndPrevious := by
  intro s
  constructor
  · rw [exec_lpfD, opLpfD, cfg_fmB, cfg_fmA, cfg_mul]
    rfl
  · rw [exec_prev, opPrev]
    rfl

end Sys2Proof.Proofs

/-! ### The Sample Ring, the Threshold Tracker and the skip gate -/

namespace Sys2Proof.Proofs

open Sys2Proof.Machine

/-! #### The push -/

section Push

variable {V : Type} [DecidableEq V] (C : Cfg V) (b : Block V)

@[simp] theorem opRingPush_dring :
    (opRingPush C b).arch.dring = Memory.write C.zero b.arch.dring b.arch.wr b.lat.d := rfl
@[simp] theorem opRingPush_mring :
    (opRingPush C b).arch.mring = Memory.write C.zero b.arch.mring b.arch.wr b.lat.mag := rfl
@[simp] theorem opRingPush_wr : (opRingPush C b).arch.wr = (b.arch.wr + 1) % C.par.n := rfl
@[simp] theorem opRingPush_lat :
    (opRingPush C b).lat = { b.lat with old := Memory.read C.zero b.arch.dring b.arch.wr } := rfl

/-- 42 R120: of what persists, a push writes the two rings and the cursor. -/
theorem opRingPush_arch_frame : (opRingPush C b).arch =
    { b.arch with
      dring := (opRingPush C b).arch.dring
      mring := (opRingPush C b).arch.mring
      wr := (opRingPush C b).arch.wr } := rfl

/-- 20_memory R53: a slot that is not at the cursor reads in both rings as before the push. -/
theorem opRingPush_read_other {k : Nat} (hk : k ≠ b.arch.wr) :
    Memory.read C.zero (opRingPush C b).arch.dring k = Memory.read C.zero b.arch.dring k ∧
    Memory.read C.zero (opRingPush C b).arch.mring k = Memory.read C.zero b.arch.mring k := by
  rw [opRingPush_dring, opRingPush_mring]
  exact ⟨Laws.read_write_other _ _ _ _ _ hk, Laws.read_write_other _ _ _ _ _ hk⟩

variable {b}

theorem opRingPush_read_dring_same (h : Memory.wf C.zero b.arch.dring) :
    Memory.read C.zero (opRingPush C b).arch.dring b.arch.wr = b.lat.d := by
  rw [opRingPush_dring]
  exact Laws.read_write_same _ _ _ _ h.1

theorem opRingPush_read_mring_same (h : Memory.wf C.zero b.arch.mring) :
    Memory.read C.zero (opRingPush C b).arch.mring b.arch.wr = b.lat.mag := by
  rw [opRingPush_mring]
  exact Laws.read_write_same _ _ _ _ h.1

end Push

theorem exec_ringPush (s : State) : exec .ringPush s = .next (s.put (opRingPush cfg s.blk) .plain) := rfl

/-- Settles O24: the slot at the cursor reads the pair pushed, each ring being in form, and P0's rings wrap at 8192. -/
theorem ringPushWritesOneSlot : Obligations.RingPushWritesOneSlot := by
  intro s hd hm
  have hwr : (opRingPush cfg s.blk).arch.wr = (s.blk.arch.wr + 1) % 8192 := by rw [opRingPush_wr, cfg_n]
  exact ⟨_, exec_ringPush s, opRingPush_lat cfg s.blk, hwr, opRingPush_read_dring_same cfg hd,
    opRingPush_read_mring_same cfg hm, fun _ hk => opRingPush_read_other cfg s.blk hk,
    opRingPush_arch_frame cfg s.blk, Laws.put_input s _ _, Laws.put_now s _ _⟩

/-! #### The moving sum and the threshold -/

/-- 42 R122 in profile P0: the value entering the window is the one at offset W - 1 = 1087. -/
theorem opThrUpd_cfg (b : Block F64) : opThrUpd cfg b =
    { b with arch.sum := f64Add (f64Sub b.arch.sum b.lat.old) (readD cfg b.arch 1087) } := by
  rw [opThrUpd, cfg_add, cfg_sub, cfg_w]

/-- 43 R130 in profile P0. -/
theorem opThrDiv_cfg (b : Block F64) : opThrDiv cfg b =
    { b with lat.thr := f64Div b.arch.sum (f64OfInt 1088) } := by
  rw [opThrDiv, cfg_div, cfg_ofInt_w]

theorem exec_thrUpd (s : State) : exec .thrUpd s = .next (s.put (opThrUpd cfg s.blk) .plain) := rfl

theorem exec_thrDiv (s : State) : exec .thrDiv s = .next (s.put (opThrDiv cfg s.blk) .plain) := rfl

/-- Settles O26: THR.UPD and THR.DIV put these two blocks and the label of a step that goes on. -/
theorem thresholdUpdateAndDivision : Obligations.ThresholdUpdateAndDivision := by
  intro s
  constructor
  · rw [exec_thrUpd, opThrUpd_cfg]
    rfl
  · rw [exec_thrDiv, opThrDiv_cfg]
    rfl

/-! #### The skip gate -/

theorem exec_skipTick (s : State) : exec .skipTick s = mayEnd s (opSkipTick s.blk) := rfl

/-- Settles O28: SKIP is zero or it is not, and each case of SKIP.TICK is one of the two clauses. -/
theorem skipTickGates : Obligations.SkipTickGates := by
  intro s
  rw [exec_skipTick]
  rcases Laws.opSkipTick_cases s.blk with ⟨hzero, htick⟩ | ⟨hpos, htick⟩ <;> rw [htick]
  · exact ⟨fun hne => absurd hzero hne, fun _ => rfl⟩
  · exact ⟨fun _ => rfl, fun heq => absurd heq hpos⟩

end Sys2Proof.Proofs

/-! ### The Preamble Correlator -/

namespace Sys2Proof.Proofs

open Sys2Proof.Machine

/-- 43 R132 in every configuration: the preamble matches when every position of both tables passes its strict test. -/
theorem preambleMatches_iff {V : Type} (C : Cfg V) (a : Arch V) (thr : V) : preambleMatches C a thr = true ↔
    (∀ h ∈ hiPos C.par, C.num.gt (readD C a (pos C h)) thr = true) ∧
    (∀ h ∈ loPos C.par, C.num.lt (readD C a (pos C h)) thr = true) := by
  rw [preambleMatches, Bool.and_eq_true, List.all_eq_true, List.all_eq_true]
  rfl

/-- 43 R131 in profile P0: the half-bits are sampled 16 slots apart, from offset 0. -/
@[simp] theorem pos_cfg (h : Nat) : pos cfg h = h * 16 := by
  rw [pos, cfg_symOfs, cfg_sph, Nat.zero_add]

/-- 43 R132 in profile P0, with the tables of 30_encoding R78 and the offsets written out. -/
theorem preambleMatches_cfg (a : Arch F64) (thr : F64) : preambleMatches cfg a thr = true ↔
    (∀ h ∈ [0, 2, 4, 6, 9, 10, 13, 14, 17, 18], f64Gt (readD cfg a (h * 16)) thr = true) ∧
    (∀ h ∈ [1, 3, 5, 7, 8, 11, 12, 15, 16, 19], f64Lt (readD cfg a (h * 16)) thr = true) := by
  obtain ⟨-, hhi, hlo⟩ := tablesPartitionThePreamble
  simp only [preambleMatches_iff, hhi, hlo, pos_cfg, cfg_gt, cfg_lt]

theorem exec_corr (s : State) : exec .corr s = mayEnd s (opCorr cfg s.blk) := rfl

/-- Settles O29: the preamble matches or it does not, and each case of CORR is one of the two clauses. -/
theorem correlatorVerdict : Obligations.CorrelatorVerdict := by
  intro s
  rw [exec_corr, ← preambleMatches_cfg]
  rcases Laws.opCorr_cases cfg s.blk with ⟨hmatch, hcorr⟩ | ⟨hmiss, hcorr⟩ <;> rw [hcorr]
  · exact ⟨fun _ => rfl, fun hne => absurd hmatch hne⟩
  · exact ⟨fun h => absurd h (Bool.eq_false_iff.mp hmiss), fun _ => rfl⟩

end Sys2Proof.Proofs

/-! ### The Frame Decoder -/

namespace Sys2Proof.Proofs

open Sys2Proof.Machine

variable {V : Type}

/-! #### The start of a candidate frame and the span of a consumed one -/

theorem exec_decInit (s : State) : exec .decInit s = .next (s.put (opDecInit cfg s.blk) .plain) := rfl

/-- Settles O31: DEC.INIT puts the fresh candidate frame, with P0's start value for the CRC register. -/
theorem decodeInit : Obligations.DecodeInit := by
  intro s
  rw [exec_decInit, opDecInit, cfg_crcInit]
  rfl

/-- 44 R150 in profile P0: ten preamble bits before the data bits, each bit 32 samples long. -/
@[simp] theorem span_cfg (nbits : Nat) : span cfg nbits = (10 + nbits) * 32 := by
  rw [span, cfg_preBits, cfg_spb]

theorem exec_skipSet (s : State) : exec .skipSet s = .next (s.put (opSkipSet cfg s.blk) .plain) := rfl

/-- Settles O42: SKIP.SET puts P0's span of the consumed frame. -/
theorem skipSetSpan : Obligations.SkipSetSpan := by
  intro s
  rw [exec_skipSet, opSkipSet, span_cfg]
  rfl

/-! #### Two half-bits classified and decoded -/

/-- MAN.BIT decodes the symbol whose halves are the two classes it reads (44 R141, R142, R143). -/
theorem opManBit_eq_opSymbol (C : Cfg V) (b : Block V) : opManBit C b =
    opSymbol C (C.num.gt (readD C b.arch (firstHalfOfs C b.lat.nbits)) b.lat.thr)
      (C.num.gt (readD C b.arch (secondHalfOfs C b.lat.nbits)) b.lat.thr) b := rfl

/-- 44 R141 in profile P0: data bit `j` starts `2 j` half-bits behind the 20 of the preamble, 16 slots each. -/
@[simp] theorem firstHalfOfs_cfg (j : Nat) : firstHalfOfs cfg j = (20 + 2 * j) * 16 := by
  rw [firstHalfOfs, cfg_symOfs, cfg_preBits, cfg_sph, Nat.zero_add]

@[simp] theorem secondHalfOfs_cfg (j : Nat) : secondHalfOfs cfg j = (20 + 2 * j) * 16 + 16 := by
  rw [secondHalfOfs, firstHalfOfs_cfg, cfg_sph]

theorem exec_manBit (s : State) : exec .manBit s = mayEnd s (opManBit cfg s.blk) := rfl

/-- Settles O32: MAN.BIT is the symbol of the two classes, and in P0 the symbol has a transition or it has none. -/
theorem manchesterBit : Obligations.ManchesterBit := by
  refine ⟨fun V C b o1 ho => ho ▸ opManBit_eq_opSymbol C b, fun s m1 m2 h1 h2 => ?_⟩
  have hsymbol : exec .manBit s = mayEnd s (opSymbol cfg m1 m2 s.blk) := by
    rw [exec_manBit, opManBit_eq_opSymbol, firstHalfOfs_cfg, secondHalfOfs_cfg, cfg_gt, ← h1, ← h2]
  rw [hsymbol]
  refine ⟨fun heq => ?_, mayEnd_opSymbol_of_ne s⟩
  rw [← heq]
  exact mayEnd_opSymbol_same s m1

/-! #### The byte being assembled -/

/-- The rule's two conditions on the new `CUR` (44 R145) name one byte. -/
theorem eq_shiftIn {next cur : Byte} {bit : Bool} (hlow : next.getLsbD 0 = bit)
    (hmoved : ∀ k, k < 7 → next.getLsbD (k + 1) = cur.getLsbD k) : next = shiftIn cur bit := by
  apply BitVec.eq_of_getLsbD_eq
  intro i hi
  rw [Laws.shiftIn_getLsbD cur bit i hi]
  cases i with
  | zero => exact hlow
  | succ k => exact hmoved k (by omega)

theorem exec_byteAcc (s : State) : exec .byteAcc s = .next (s.put (opByteAcc s.blk) .plain) := rfl

/-- Settles O34: each case of BYTE.ACC is one of the two clauses, and at a boundary the buffer differs at LEN only. -/
theorem byteAccumulate : Obligations.ByteAccumulate := by
  intro s cur hlow hmoved
  obtain rfl : cur = shiftIn s.blk.lat.cur s.blk.lat.bit := eq_shiftIn hlow hmoved
  rw [exec_byteAcc]
  rcases Laws.opByteAcc_cases s.blk with ⟨hinside, hacc⟩ | ⟨hboundary, hacc⟩ <;> rw [hacc]
  · exact ⟨fun _ => rfl, fun heq => absurd heq hinside⟩
  · refine ⟨fun hne => absurd hboundary hne, fun _ hlen => ⟨_, rfl, List.length_set, ?_, fun k hk => ?_⟩⟩
    · exact List.getElem?_set_self hlen
    · exact List.getElem?_set_ne hk.symm

/-! #### The CRC register -/

/-- One shift as 44 R147 words it: bit 15 is the bit shifted out. -/
theorem crcShift_eq (poly : BitVec 16) :
    crcShift poly = fun r => if r.getLsbD 15 then (r <<< 1) ^^^ poly else r <<< 1 := by
  funext r
  rw [crcShift, BitVec.msb_eq_getLsbD_last]

theorem crcShifts_eq_iterate (poly : BitVec 16) (k : Nat) : crcShifts poly k = (crcShift poly)^[k] := by
  induction k with
  | zero => rfl
  | succ k ih =>
    funext r
    rw [crcShifts, ih, Function.iterate_succ_apply]

/-- The last byte stored is the one before LEN, since a LEN that is not 0 does not wrap. -/
theorem toNat_sub_one_of_ne_zero {len : BitVec 5} (h : len ≠ 0) : (len - 1).toNat = len.toNat - 1 := by
  bv_omega

theorem exec_crcUpd (s : State) : exec .crcUpd s = .next (s.put (opCrcUpd cfg s.blk) .plain) := rfl

/-- Settles O35: CRC.UPD reads the byte before LEN and performs eight shifts with P0's polynomial. -/
theorem crcUpdate : Obligations.CrcUpdate := by
  intro s byte hlen hbyte
  have hread : bufRead s.blk.lat (s.blk.lat.len - 1).toNat = byte :=
    Laws.bufRead_of_lt _ _ _ (by rw [toNat_sub_one_of_ne_zero hlen, hbyte])
  rw [exec_crcUpd, opCrcUpd, hread, crcByte, crcShifts_eq_iterate, crcShift_eq, cfg_crcPoly]
  rfl

/-! #### The verdict on a completed byte -/

theorem exec_lenChk (s : State) : exec .lenChk s = .next (s.put s.blk (opLenChk cfg s.blk).label) := rfl

/-- Settles O38: each verdict of LEN.CHK is one of the three clauses, with P0's MAX_BYTES. -/
theorem lengthCheck : Obligations.LengthCheck := by
  intro s
  have hmax : s.blk.lat.len.toNat = cfg.par.maxBytes ↔ s.blk.lat.len = 29#5 := by
    rw [cfg_maxBytes, ← BitVec.toNat_inj]
    rfl
  rw [exec_lenChk]
  rcases Laws.opLenChk_cases cfg s.blk with ⟨hzero, hchk⟩ | ⟨hcrc, hlen, hchk⟩ | ⟨hcrc, hlen, hchk⟩ <;> rw [hchk]
  · exact ⟨fun _ => rfl, fun hne => absurd hzero hne, fun hne => absurd hzero hne⟩
  · exact ⟨fun heq => absurd heq hcrc, fun _ _ => rfl, fun _ hne => absurd (hmax.mp hlen) hne⟩
  · exact ⟨fun heq => absurd heq hcrc, fun _ heq => absurd (hmax.mpr heq) hlen, fun _ _ => rfl⟩

end Sys2Proof.Proofs

/-! ### The Signal Reporter -/

namespace Sys2Proof.Proofs

open Sys2Proof.Machine

variable {V : Type}

/-! #### The data the level of a silent window runs through -/

/-- The fields of a zero of either sign. -/
theorem fields_of_f64IsZero {x : F64} (h : f64IsZero x = true) : f64Exp x = 0 ∧ f64Frac x = 0 := by
  have hbits : x.toNat % 2 ^ 63 = 0 := of_decide_eq_true h
  rw [f64Exp, f64Frac]
  omega

theorem f64Mant_of_f64IsZero {x : F64} (h : f64IsZero x = true) : f64Mant x = 0 := by
  obtain ⟨hexp, hfrac⟩ := fields_of_f64IsZero h
  rw [f64Mant, if_pos hexp, hfrac]

/-- A datum below the largest exponent is no NaN. -/
theorem f64IsNan_of_exp {x : F64} (h : f64Exp x ≠ 2047) : f64IsNan x = false := by simp [f64IsNan, h]

theorem f64IsInf_of_exp {x : F64} (h : f64Exp x ≠ 2047) : f64IsInf x = false := by simp [f64IsInf, h]

theorem f64Exp_ne_top_of_f64IsZero {x : F64} (h : f64IsZero x = true) : f64Exp x ≠ 2047 := by
  rw [(fields_of_f64IsZero h).1]
  decide

theorem f64IsZero_f64Zero (neg : Bool) : f64IsZero (f64Zero neg) = true := by revert neg; decide

theorem f64RoundQuot_zero (neg : Bool) (den : Nat) (e : Int) : f64RoundQuot neg 0 den e = f64Zero neg := by
  simp [f64RoundQuot, f64Round]

/-- Zero over a finite divisor that is not zero is a zero. -/
theorem f64IsZero_f64Div {x y : F64} (hx : f64IsZero x = true) (hfin : f64Exp y ≠ 2047) (hy : f64IsZero y = false) :
    f64IsZero (f64Div x y) = true := by
  have hxfin := f64Exp_ne_top_of_f64IsZero hx
  have hquot : f64Div x y = f64RoundQuot (f64Sign x != f64Sign y) 0 (f64Mant y) (f64Scale x - f64Scale y) := by
    simp [f64Div, f64IsNan_of_exp, f64IsInf_of_exp, hxfin, hfin, hy, f64Mant_of_f64IsZero hx]
  rw [hquot, f64RoundQuot_zero]
  exact f64IsZero_f64Zero _

theorem f64Sqrt_of_f64IsZero {x : F64} (h : f64IsZero x = true) : f64Sqrt x = x := by
  simp [f64Sqrt, f64IsNan_of_exp (f64Exp_ne_top_of_f64IsZero h), h]

/-- 45 R160 (a). -/
theorem f64Log10_of_f64IsZero {x : F64} (h : f64IsZero x = true) : f64Log10 x = f64Inf true := by
  rw [f64Log10, if_pos h]

/-- A positive integer moved up to its 53rd bit. -/
theorem normalised_bounds {n k : Nat} (hpos : n ≠ 0) (hk : Nat.log2 n + k = 52) :
    2 ^ 52 ≤ n * 2 ^ k ∧ n * 2 ^ k < 2 ^ 53 := by
  constructor
  · rw [← hk, Nat.pow_add]
    exact Nat.mul_le_mul_right _ (Nat.log2_self_le hpos)
  · rw [show 53 = Nat.log2 n + 1 + k by omega, Nat.pow_add]
    exact Nat.mul_lt_mul_of_pos_right Nat.lt_log2_self (Nat.two_pow_pos k)

/-- A positive integer below 2^53 is a normal datum: its 53 bits are filled up with zeros, and its exponent field is
its binary order over the bias. -/
theorem f64Exp_f64OfInt {n : Nat} (hpos : n ≠ 0) (hlt : n < 2 ^ 53) : f64Exp (f64OfInt n) = Nat.log2 n + 1023 := by
  have hlog : Nat.log2 n < 53 := (Nat.log2_lt hpos).mpr hlt
  obtain ⟨k, hk⟩ : ∃ k, Nat.log2 n + k = 52 := ⟨52 - Nat.log2 n, by omega⟩
  obtain ⟨hlow, hhigh⟩ := normalised_bounds hpos hk
  have hscale : max ((0 : Int) + Nat.log2 n - 52) (-1074) = -k := by omega
  have hbody : ((-(k : Int)) + 1074).toNat = Nat.log2 n + 1022 := by omega
  have hshift : ((0 : Int) - -k).toNat = k := by omega
  have hpack : f64OfInt n = f64Pack false ((Nat.log2 n + 1022) * 2 ^ 52 + n * 2 ^ k) := by
    have hneg : decide ((n : Int) < 0) = false := by simp
    have hle : -(k : Int) ≤ 0 := by omega
    rw [f64OfInt, hneg, Int.natAbs_natCast, f64Round, if_neg hpos]
    simp only [hscale, hshift, hbody, if_pos hle]
    rw [if_neg (by omega)]
  rw [hpack, Laws.f64Pack_exp _ _ (by omega)]
  omega

/-- So such a number divides as a finite datum that is not zero. -/
theorem f64IsZero_f64Div_ofInt {x : F64} {n : Nat} (hx : f64IsZero x = true) (hpos : n ≠ 0) (hlt : n < 2 ^ 53) :
    f64IsZero (f64Div x (f64OfInt n)) = true := by
  have hexp := f64Exp_f64OfInt hpos hlt
  have hlog : Nat.log2 n < 53 := (Nat.log2_lt hpos).mpr hlt
  apply f64IsZero_f64Div hx
  · omega
  · apply Bool.eq_false_iff.mpr
    intro hzero
    have := (fields_of_f64IsZero hzero).1
    omega

/-- The decibel figure of minus infinity. -/
theorem f64Mul_twenty_negInf : f64Mul (f64OfInt 20) (f64Inf true) = f64Inf true := by decide +kernel

/-! #### The signal level -/

/-- 45 R160: the sum runs over the window positions in ascending order, from the one it is started at. -/
theorem amplitudeSum_eq_foldl (C : Cfg V) (a : Arch V) (count j : Nat) (acc : V) :
    amplitudeSum C a count j acc =
      (List.range' j count).foldl (fun acc j => C.num.add acc (C.num.sqrt (readM C a (C.par.rssiOfs + j)))) acc := by
  induction count generalizing j acc with
  | zero => rfl
  | succ count ih => rw [amplitudeSum, ih, List.range'_succ, List.foldl_cons]

/-- The sum in profile P0, where the window starts at the anchor. -/
theorem amplitudeSum_cfg (a : Arch F64) (count : Nat) : amplitudeSum cfg a count 0 cfg.zero =
    (List.range count).foldl (fun acc j => f64Add acc (f64Sqrt (readM cfg a j))) (f64OfInt 0) := by
  simp only [amplitudeSum_eq_foldl, ← List.range_eq_range', cfg_rssiOfs, Nat.zero_add, cfg_add, cfg_sqrt]
  rfl

@[simp] theorem cfg_kCal : cfg.par.kCal = f64OfInt 1 := rfl

/-- The level of a window of `count` samples whose amplitudes sum to `total`, in profile P0 (45 R160). -/
def levelOf (total : F64) (count : Nat) : F64 :=
  f64Mul (f64OfInt 20) (f64Log10 (f64Div (f64Sqrt (f64Div total (f64OfInt count))) (f64OfInt 1)))

theorem signalLevel_cfg (a : Arch F64) (nbits : Nat) : signalLevel cfg a nbits =
    levelOf (amplitudeSum cfg a ((10 + nbits) * 32) 0 cfg.zero) ((10 + nbits) * 32) := by
  rw [signalLevel, levelOf, span_cfg, cfg_mul, cfg_ofInt, cfg_log10, cfg_div, cfg_sqrt, cfg_kCal]

/-- 45 R160 (a): the average of a silent window is zero, its root is, and so is the root over K_CAL. -/
theorem levelOf_of_f64IsZero {total : F64} {count : Nat} (h : f64IsZero total = true) (hpos : count ≠ 0)
    (hlt : count < 2 ^ 53) : levelOf total count = f64Inf true := by
  have havg : f64IsZero (f64Div total (f64OfInt count)) = true := f64IsZero_f64Div_ofInt h hpos hlt
  have hquot : f64IsZero (f64Div (f64Div total (f64OfInt count)) (f64OfInt 1)) = true :=
    f64IsZero_f64Div_ofInt (n := 1) havg (by decide) (by decide)
  rw [levelOf, f64Sqrt_of_f64IsZero havg, f64Log10_of_f64IsZero hquot, f64Mul_twenty_negInf]

theorem exec_rssi (s : State) : exec .rssi s = .next (s.put (opRssi cfg s.blk) .plain) := rfl

/-- Settles O39: RSSI puts the level of the window, and a window that sums to zero has the level minus infinity. -/
protected theorem signalLevel : Obligations.SignalLevel := by
  intro s count total hcount htotal
  have hlevel : signalLevel cfg s.blk.arch s.blk.lat.nbits = levelOf total count := by
    rw [signalLevel_cfg, ← hcount, amplitudeSum_cfg, ← htotal]
  rw [exec_rssi, opRssi, hlevel]
  refine ⟨rfl, fun hzero hbits => ?_⟩
  rw [levelOf_of_f64IsZero hzero (by omega) (by omega)]
  rfl

/-! #### The timestamp -/

theorem exec_tstamp (s : State) : exec .tstamp s = .next (s.put (opTstamp cfg s.now s.blk) .plain) := rfl

/-- Settles O40: the subtraction of words is the subtraction of integers modulo 2^64, with P0's latency. -/
theorem timestamp : Obligations.Timestamp := by
  intro s
  refine ⟨s.now - 5120#64, by bv_omega, ?_⟩
  rw [exec_tstamp, opTstamp, cfg_latencyUs]
  rfl

/-! #### The emission -/

/-- A prefix of BUF of LEN bytes is the candidate frame. -/
theorem bufFrame_of_prefix {l : Latch V} {frame : List Byte} (hlen : frame.length = l.len.toNat)
    (hpre : frame <+: l.buf) : bufFrame l = frame := by
  rw [Laws.bufFrame_eq_take l (hlen ▸ hpre.length_le), ← hlen]
  exact (List.prefix_iff_eq_take.mp hpre).symm

section LoadOutData

variable {old frame : List Byte} (hfits : frame.length ≤ old.length) {k : Nat}
include hfits

/-- 45 R165: the frame is loaded whole in front of what it does not overwrite. -/
theorem loadOutData_eq : loadOutData old frame = frame ++ old.drop frame.length := by
  rw [loadOutData, List.take_of_length_le hfits]

theorem loadOutData_getElem?_of_lt (hk : k < frame.length) : (loadOutData old frame)[k]? = frame[k]? := by
  rw [loadOutData_eq hfits, List.getElem?_append_left hk]

theorem loadOutData_getElem?_of_le (hk : frame.length ≤ k) : (loadOutData old frame)[k]? = old[k]? := by
  rw [loadOutData_eq hfits, List.getElem?_append_right hk, List.getElem?_drop, Nat.add_sub_cancel' hk]

end LoadOutData

theorem exec_emit (s : State) : exec .emit s = .next (s.put (opEmit s.blk) .plain) := rfl

/-- Settles O41: EMIT puts the record of the frame that BUF holds, and OUT_DATA keeps its entries past the frame. -/
theorem emitRecord : Obligations.EmitRecord := by
  intro s frame hlen hpre hfits
  rw [← hlen] at hfits ⊢
  refine ⟨loadOutData s.blk.arch.outData frame, ?_, fun k => loadOutData_getElem?_of_lt hfits,
    fun k => loadOutData_getElem?_of_le hfits⟩
  rw [exec_emit, opEmit, candidateRecord, bufFrame_of_prefix hlen hpre]
  rfl

end Sys2Proof.Proofs

/-! ### The port -/

namespace Sys2Proof.Proofs

open Sys2Proof.Machine

/-! #### The commands that take no step -/

theorem exec_nop (din : Byte) (s : State) : exec (.nop din) s = .next (s.put (clearValid s.blk) .plain) := rfl

theorem exec_eos (din : Byte) (s : State) :
    exec (.eos din) s = .next (s.put { clearValid s.blk with arch.run := false } .plain) := rfl

theorem exec_reset (din : Byte) (s : State) : exec (.reset din) s = .next (s.put (Block.reset cfg) .plain) := rfl

/-- Settles O13: RESET puts the reset block, which is the block of power-on. -/
theorem resetRestoresPowerOn : Obligations.ResetRestoresPowerOn :=
  fun din s => ⟨_, exec_reset din s, rfl, Laws.put_input s _ _, Laws.put_now s _ _⟩

/-- Settles O14: NOP puts the block with OUT_VALID cleared. -/
theorem nopOnlyClearsOutValid : Obligations.NopOnlyClearsOutValid := by
  intro din s
  rw [exec_nop, clearValid]
  rfl

/-- Settles O15: EOS puts the block with OUT_VALID and RUN cleared. -/
theorem eosStopsTheStream : Obligations.EosStopsTheStream := by
  intro din s
  rw [exec_eos, clearValid]
  rfl

/-! #### BYTE -/

section PortByte

variable {V : Type} [DecidableEq V] {C : Cfg V} {now : BitVec 64} {din : Byte} {b : Block V}

/-- 46 R171, R176: after EOS a byte is ignored. -/
theorem portByte_of_halted (hrun : b.arch.run = false) : portByte C now din b = (clearValid b, .ignored) :=
  if_pos hrun

/-- 46 R171: with PHASE = 0 the byte is an I byte. -/
theorem portByte_of_iByte (hrun : b.arch.run = true) (hphase : b.arch.phase = false) :
    portByte C now din b = ({ clearValid b with arch.ihold := din, arch.phase := true }, .latched) := by
  simp [portByte, hrun, hphase]

/-- 46 R171: with PHASE = 1 the byte is the Q byte of a step. -/
theorem portByte_of_qByte (hrun : b.arch.run = true) (hphase : b.arch.phase = true) {r : Block V × StepOutcome}
    (hr : r = pairStep C now { clearValid b with arch.phase := false, lat.qin := din }) :
    portByte C now din b = (r.1, .outcome r.2) := by
  simp [portByte, hrun, hphase, hr]

/-- 46 R172: with PHASE = 0 the first byte of SAMPLE is held and the second is the Q byte of the one step. -/
theorem portSample_of_iByte {i q : Byte} (hrun : b.arch.run = true) (hphase : b.arch.phase = false)
    {r : Block V × StepOutcome}
    (hr : r = pairStep C now { clearValid b with arch.ihold := i, arch.phase := false, lat.qin := q }) :
    portSample C now i q b = (r.1, .outcome r.2) := by
  rw [portSample, portByte_of_iByte hrun hphase]
  refine portByte_of_qByte ?_ rfl hr
  exact hrun

end PortByte

theorem exec_byte (din : Byte) (s : State) :
    exec (.byte din) s = .next (s.put (portByte cfg s.now din s.blk).1 (portByte cfg s.now din s.blk).2) := rfl

/-- Settles O16: RUN and PHASE name the case of BYTE, and each case puts its block and its label. -/
theorem byteCommandCases : Obligations.ByteCommandCases := by
  intro din s
  rw [exec_byte]
  refine ⟨fun hrun => ?_, fun hrun hphase => ?_, fun hrun hphase r hr => ?_⟩
  · rw [portByte_of_halted hrun]
    rfl
  · rw [portByte_of_iByte hrun hphase]
    rfl
  · rw [portByte_of_qByte hrun hphase hr]
    rfl

/-! #### SAMPLE -/

theorem exec_sample (i q : Byte) (s : State) :
    exec (.sample i q) s = .next (s.put (portSample cfg s.now i q s.blk).1 (portSample cfg s.now i q s.blk).2) := rfl

/-- 46 R172: SAMPLE is performed as two BYTEs under one `now`, the second command's label standing. -/
theorem exec_sample_eq_exec_byte (i q : Byte) (s : State) :
    exec (.sample i q) s = exec (.byte q) (s.put (portByte cfg s.now i s.blk).1 (portByte cfg s.now i s.blk).2) := rfl

/-- Settles O17: SAMPLE is the two bytes in every state, and with PHASE = 0 they are the I and the Q byte of one
step. -/
theorem sampleIsTwoBytes : Obligations.SampleIsTwoBytes := by
  constructor
  · intro i q s
    exact ⟨_, _, exec_byte i s, exec_byte q _, exec_sample_eq_exec_byte i q s⟩
  · intro i q s hrun hphase r hr
    rw [exec_sample, portSample_of_iByte hrun hphase hr]
    rfl

end Sys2Proof.Proofs

/-! ### The words of the opcode table -/

namespace Sys2Proof.Proofs

open Sys2Proof.Machine

/-! #### A word and its operation -/

theorem encode_fits (i : Instr) : Laws.EncodeFits.Statement i := by
  cases i <;> exact ⟨rfl, BitVec.isLt _, rfl⟩

/-- The command of a PORT word chooses the operation, and the byte below it is the operand (30_encoding R71, R72). -/
theorem decodePort_append (din : Byte) :
    decodePort (0b00#2 ++ din) = .nop din ∧ decodePort (0b01#2 ++ din) = .byte din ∧
    decodePort (0b10#2 ++ din) = .eos din ∧ decodePort (0b11#2 ++ din) = .reset din := by
  simp only [decodePort, BitVec.extractLsb'_append_eq_left, BitVec.extractLsb'_append_eq_right]
  exact ⟨rfl, rfl, rfl, rfl⟩

theorem decodePair_append (i q : Byte) : decodePair (i ++ q) = .sample i q := by
  rw [decodePair, BitVec.extractLsb'_append_eq_left, BitVec.extractLsb'_append_eq_right]

theorem decode_encode (i : Instr) : decode (encode i) = .ok i := by
  cases i
  case nop din | byte din | eos din | reset din =>
    obtain ⟨hnop, hbyte, heos, hreset⟩ := decodePort_append din
    simp only [encode, decode, hnop, hbyte, heos, hreset]
  case sample i q => exact congrArg Except.ok (decodePair_append i q)
  all_goals rfl

/-- Every command word encodes the operation the port decoder reads from it. -/
theorem encode_decodePort (cw : BitVec 10) : encode (decodePort cw) = .port cw := by
  have hcmd : ∀ cmd : BitVec 2, cmd = 0 ∨ cmd = 1 ∨ cmd = 2 ∨ cmd = 3 := by decide
  obtain ⟨cmd, din, rfl⟩ : ∃ (cmd : BitVec 2) (din : Byte), cw = cmd ++ din :=
    ⟨_, _, (BitVec.extractLsb'_append_extractLsb' (w := 2) (len := 8) (x := cw)).symm⟩
  obtain ⟨hnop, hbyte, heos, hreset⟩ := decodePort_append din
  rcases hcmd cmd with rfl | rfl | rfl | rfl
  · exact congrArg encode hnop
  · exact congrArg encode hbyte
  · exact congrArg encode heos
  · exact congrArg encode hreset

theorem encode_decodePair (p : BitVec 16) : encode (decodePair p) = .pair p :=
  congrArg Code.pair (BitVec.extractLsb'_append_extractLsb' (w := 8) (len := 8))

theorem encode_decodeSym : ∀ c : BitVec 2, encode (decodeSym c) = .sym c := by decide

/-- A stage label encodes the operation it names; one that names none is refused as itself (30_encoding R83). -/
theorem decodeStage_cases : ∀ slot : BitVec 5,
    ((Code.stage slot).wf = true ∧ ((decodeStage slot).toOption.map encode) = some (.stage slot)) ∨
    ((Code.stage slot).wf = false ∧ decodeStage slot = .error (.noSuchSlot slot)) := by decide

/-- What the decoder answers for a word: the operation it encodes, or, for a label that names none, its refusal. -/
theorem decode_cases (c : Code) :
    (c.wf = true ∧ ∃ i, decode c = .ok i ∧ encode i = c) ∨
    (c.wf = false ∧ ∃ slot, c = .stage slot ∧ decode c = .error (.noSuchSlot slot)) := by
  cases c with
  | port cw => exact .inl ⟨rfl, _, rfl, encode_decodePort cw⟩
  | pair p => exact .inl ⟨rfl, _, rfl, encode_decodePair p⟩
  | sym c => exact .inl ⟨rfl, _, rfl, encode_decodeSym c⟩
  | stage slot =>
    rcases decodeStage_cases slot with ⟨hwf, henc⟩ | ⟨hwf, herr⟩
    · refine .inl ⟨hwf, ?_⟩
      rw [decode]
      cases hdec : decodeStage slot with
      | ok i => exact ⟨i, rfl, by simpa [hdec, Except.toOption] using henc⟩
      | error e => simp [hdec, Except.toOption] at henc
    · exact .inr ⟨hwf, slot, rfl, herr⟩

/-- Settles O2: the decoder answers the encoded operation for a well-formed word and a refusal for any other. -/
theorem eachWordNamesOneOperation : Obligations.EachWordNamesOneOperation := by
  constructor
  · intro c
    rcases decode_cases c with ⟨hwf, i, hdec, -⟩ | ⟨hwf, slot, -, herr⟩
    · exact ⟨fun _ => hwf, fun _ => ⟨i, hdec⟩⟩
    · simp [hwf, herr]
  · intro c i hdec
    rcases decode_cases c with ⟨-, j, hj, henc⟩ | ⟨-, slot, -, herr⟩
    · obtain rfl : j = i := Except.ok.inj (hj.symm.trans hdec)
      exact henc
    · simp [herr] at hdec

/-- Settles O4: each word written out decodes by evaluation. -/
theorem specWordsDecode : Obligations.SpecWordsDecode := by
  unfold Obligations.SpecWordsDecode
  decide

/-! #### Words in bytes -/

theorem natToBytes_length (k w : Nat) : (natToBytes k w).length = k := by
  induction k generalizing w with
  | zero => rfl
  | succ k ih => rw [natToBytes, List.length_cons, ih]

/-- The first `k` bytes of a number stand for what it leaves modulo 256^k. -/
theorem bytesToNat_natToBytes (k w : Nat) : bytesToNat (natToBytes k w) = w % 256 ^ k := by
  induction k generalizing w with
  | zero => rw [natToBytes, bytesToNat, pow_zero, Nat.mod_one]
  | succ k ih =>
    rw [natToBytes, bytesToNat, ih, BitVec.toNat_ofNat, Nat.pow_succ' (m := 256), Nat.mod_mul]

/-- A format's container holds its words whole. -/
theorem width_le_bytes (f : Format) : 2 ^ f.width ≤ 256 ^ f.bytes := by
  cases f <;> decide

theorem codeOfNat_toNat (c : Code) : codeOfNat c.format c.toNat = .ok c := by
  have hfits : c.toNat < 2 ^ c.format.width := by cases c <;> exact BitVec.isLt _
  refine (if_pos hfits).trans ?_
  cases c <;> simp [Code.format, Code.toNat]

/-- An operation's word, laid out in bytes, is read back as that word. -/
theorem codeOfBytes_natToBytes (i : Instr) :
    codeOfBytes i.format (natToBytes i.format.bytes (encode i).toNat) = .ok (encode i) := by
  obtain ⟨hformat, hfits, -⟩ := encode_fits i
  rw [codeOfBytes, if_pos (natToBytes_length _ _), bytesToNat_natToBytes,
    Nat.mod_eq_of_lt (hfits.trans_le (width_le_bytes _)), ← hformat, codeOfNat_toNat]

theorem decodeBytes_natToBytes (i : Instr) :
    decodeBytes i.format (natToBytes i.format.bytes (encode i).toNat) = .ok i := by
  rw [decodeBytes, codeOfBytes_natToBytes]
  exact decode_encode i

/-- Settles O1: the bytes are read back as the word, and the word as its operation. -/
theorem decodeInvertsEncodeInBytes : Obligations.DecodeInvertsEncodeInBytes := decodeBytes_natToBytes

/-! #### A word placed -/

/-- The format read from a word's width: its own, or in whole bytes that of the two sharing the container whose words
lie on its side of the border (log 12). -/
theorem tableFormat_eq (f : Format) (nbits w : Nat) (hfits : w < 2 ^ f.width)
    (hbits : nbits = f.width ∨ nbits = 8 * f.bytes) (hpair : f = .pair → 2 ^ 10 ≤ w)
    (hstage : f = .stage → nbits = 8 → 2 ^ 2 ≤ w) : tableFormat nbits w = some f := by
  cases f <;> rcases hbits with rfl | rfl
  case port.inr | sym.inr => exact congrArg some (if_pos hfits)
  case pair.inl | pair.inr => exact congrArg some (if_neg (Nat.not_lt.mpr (hpair rfl)))
  case stage.inr => exact congrArg some (if_neg (Nat.not_lt.mpr (hstage rfl rfl)))
  all_goals rfl

/-- A word presented that names an operation is what the next transition runs, on the state before it was presented. -/
theorem step_present (s : State) {c : Code} {i : Instr} (h : decode c = .ok i) : step (present c s) = exec i s := by
  change perform (.code c) s = exec i s
  rw [perform, h]

/-- Settles O7: the format read is the operation's own, so the word placed is the operation's. -/
theorem placedWordRunsNext : Obligations.PlacedWordRunsNext := by
  rintro i s nbits w rfl hbits hpair hstage
  obtain ⟨-, hfits, -⟩ := encode_fits i
  have hformat := tableFormat_eq i.format nbits (encode i).toNat hfits hbits hpair hstage
  constructor
  · rw [decodeTableWord, hformat]
    exact congrArg Except.toOption (decodeBytes_natToBytes i)
  · have hcode : tableCode nbits (encode i).toNat = some (encode i) := by
      rw [tableCode, hformat]
      exact congrArg Except.toOption (codeOfBytes_natToBytes i)
    rw [State.withFetchWord, placedCode, hcode]
    exact step_present s (decode_encode i)

/-! #### The transition -/

/-- Settles O5: the oldest transaction is taken, and its word performed as the operation it decodes to. -/
theorem stepRunsDecodedOperation : Obligations.StepRunsDecodedOperation := by
  intro s c now rest i hinput hdec
  rw [step, takeNext, hinput]
  change perform (.code c) { s with input := rest, now := now } = _
  rw [perform, hdec]

/-- Settles O8: each arm of `exec` answers a next state, by definition. -/
theorem everyOperationCompletes : Obligations.EveryOperationCompletes := by
  intro i s
  cases i <;> exact ⟨_, rfl⟩

/-- Settles O9: the checks of 00_scope R7 evaluate to true; for P0 this is what the machine's configuration carries. -/
theorem profilesAreConfigurations : Obligations.ProfilesAreConfigurations :=
  ⟨cfg.legal, by decide +kernel⟩

end Sys2Proof.Proofs

/-! ### The rings by age, and the running sum -/

namespace Sys2Proof.Proofs

open Sys2Proof.Machine

variable {V : Type}

/-! #### The offsets a rule uses -/

/-- 43 R131: the preamble's last half-bit is its twentieth. -/
theorem pos_le (C : Cfg V) {h : Nat} (hh : h < 20) : pos C h ≤ C.par.symOfs + 19 * C.par.sph := by
  have : h * C.par.sph ≤ 19 * C.par.sph := Nat.mul_le_mul_right _ (by omega)
  rw [pos]
  omega

/-- 44 R141: the largest half-bit of a data bit below `8 × MAX_BYTES`. -/
theorem secondHalfOfs_le (C : Cfg V) {j : Nat} (hj : j < 8 * C.par.maxBytes) :
    secondHalfOfs C j ≤ C.par.symOfs + (2 * C.par.preBits + 16 * C.par.maxBytes - 1) * C.par.sph := by
  rw [Laws.secondHalfOfs_eq_pos, pos, C.preBits_eq]
  exact Nat.add_le_add_left (Nat.mul_le_mul_right _ (by omega)) _

/-- 20_memory R55: a half-bit before the longest frame's end is sampled inside the ring. -/
theorem pos_lt_n (C : Cfg V) {h : Nat} (hh : h < 20 + 16 * C.par.maxBytes) : pos C h < C.par.n := by
  have hlong := C.ring_holds_longest_frame
  have hstep : (h + 1) * C.par.sph ≤ (C.par.preBits + 8 * C.par.maxBytes) * C.par.spb := by
    rw [C.preBits_eq, C.spb_eq, ← Nat.mul_assoc]
    exact Nat.mul_le_mul_right _ (by omega)
  have hofs := C.symOfs_lt
  rw [Nat.succ_mul] at hstep
  rw [pos]
  omega

/-- 45 R160: the window of a frame ends inside the longest one. -/
theorem span_le (C : Cfg V) {nbits : Nat} (h : nbits ≤ 8 * C.par.maxBytes) :
    span C nbits ≤ (C.par.preBits + 8 * C.par.maxBytes) * C.par.spb :=
  Nat.mul_le_mul_right _ (by omega)

/-- Settles O10: each rule's largest offset is below the longest frame's span, which 00_scope R7 puts below N. -/
theorem offsetsStayBelowCapacity : Obligations.OffsetsStayBelowCapacity := by
  intro V C
  have hw := C.w_pos
  have hwn := C.w_le_n
  have hlong := C.ring_holds_longest_frame
  refine ⟨fun h hh => ⟨pos_le C hh, pos_lt_n C (by omega)⟩, fun j hj => ⟨rfl, secondHalfOfs_le C hj, ?_⟩, by omega,
    fun nbits hbits j hj => ?_⟩
  · rw [Laws.secondHalfOfs_eq_pos]
    exact pos_lt_n C (by omega)
  · have := span_le C hbits
    omega

/-! #### The age of an entry -/

theorem slotAt_zero (C : Cfg V) {a : Arch V} (hwr : a.wr < C.par.n) : slotAt C a 0 = a.wr :=
  Nat.mod_eq_of_lt hwr

/-- 20_memory R51: of the offsets below N only 0 names the slot at the cursor. -/
theorem slotAt_ne_wr (C : Cfg V) {a : Arch V} {off : Nat} (hwr : a.wr < C.par.n) (hpos : 0 < off)
    (hoff : off < C.par.n) : slotAt C a off ≠ a.wr := by
  rw [slotAt]
  by_cases hwrap : a.wr + off < C.par.n
  · rw [Nat.mod_eq_of_lt hwrap]
    omega
  · rw [Nat.mod_eq_sub_mod (by omega), Nat.mod_eq_of_lt (by omega)]
    omega

section Push

variable [DecidableEq V] (C : Cfg V) {b : Block V}

/-- After a push offset N - 1 is the slot just written. -/
theorem slotAt_newest (hwr : b.arch.wr < C.par.n) : slotAt C (opRingPush C b).arch (C.par.n - 1) = b.arch.wr := by
  have hn := C.n_pos
  rw [Laws.slotAt_succ C b.arch _ _ (opRingPush_wr C b), Nat.sub_add_cancel hn, slotAt, Nat.add_mod_right,
    Nat.mod_eq_of_lt hwr]

/-- A push moves every retained entry of DRING down by one offset. -/
theorem readD_opRingPush (hwr : b.arch.wr < C.par.n) {off : Nat} (hoff : off + 1 < C.par.n) :
    readD C (opRingPush C b).arch off = readD C b.arch (off + 1) := by
  rw [readD, readD, Laws.slotAt_succ C b.arch _ _ (opRingPush_wr C b)]
  exact (opRingPush_read_other C b (slotAt_ne_wr C hwr (Nat.succ_pos off) hoff)).1

theorem readM_opRingPush (hwr : b.arch.wr < C.par.n) {off : Nat} (hoff : off + 1 < C.par.n) :
    readM C (opRingPush C b).arch off = readM C b.arch (off + 1) := by
  rw [readM, readM, Laws.slotAt_succ C b.arch _ _ (opRingPush_wr C b)]
  exact (opRingPush_read_other C b (slotAt_ne_wr C hwr (Nat.succ_pos off) hoff)).2

/-- 42 R120: what a push keeps for THR.UPD is the oldest retained entry. -/
theorem opRingPush_old (hwr : b.arch.wr < C.par.n) : (opRingPush C b).lat.old = readD C b.arch 0 := by
  rw [readD, slotAt_zero C hwr, opRingPush_lat]

end Push

/-- Settles O25: the slot written is the newest entry's, and the other slots are reached one offset earlier. -/
theorem pushAgesEveryEntry : Obligations.PushAgesEveryEntry := by
  intro V _ C b hwr hd hm
  refine ⟨?_, ?_, opRingPush_old C hwr, fun off hoff => ⟨readD_opRingPush C hwr hoff, readM_opRingPush C hwr hoff⟩⟩
  · rw [readD, slotAt_newest C hwr, opRingPush_read_dring_same C hd]
  · rw [readM, slotAt_newest C hwr, opRingPush_read_mring_same C hm]

/-! #### The front end's frame -/

/-- Slots 1 to 7 touch no memory. -/
theorem frontEnd_memOk {C : Cfg V} {b : Block V} (h : b.memOk C) : (frontEnd C b).memOk C := h

theorem pairStep_eq [DecidableEq V] (C : Cfg V) (now : BitVec 64) (b : Block V) :
    pairStep C now b = ringStep C now (frontEnd C b) := rfl

/-! #### The running sum -/

/-- The window of `k + 1` entries without its oldest is the window of `k` after a push without its newest. -/
theorem windowSum_opRingPush (C : Cfg ℚ) {b : Block ℚ} (hwr : b.arch.wr < C.par.n) :
    windowSum C (opRingPush C b).arch =
      windowSum C b.arch - readD C b.arch 0 + readD C (opRingPush C b).arch (C.par.w - 1) := by
  have hw := C.w_le_n
  obtain ⟨k, hk⟩ : ∃ k, C.par.w = k + 1 := ⟨C.par.w - 1, (Nat.sub_add_cancel C.w_pos).symm⟩
  have hbefore : windowSum C b.arch =
      readD C b.arch 0 + ((List.range k).map fun off => readD C b.arch (off + 1)).sum := by
    rw [windowSum, hk, List.range_succ_eq_map, List.map_cons, List.sum_cons, List.map_map]
    rfl
  have hafter : windowSum C (opRingPush C b).arch =
      ((List.range k).map fun off => readD C b.arch (off + 1)).sum + readD C (opRingPush C b).arch k := by
    rw [windowSum, hk, List.range_succ, List.map_append, List.sum_append, List.map_singleton, List.sum_singleton]
    congr 2
    refine List.map_congr_left fun off hoff => readD_opRingPush C hwr ?_
    have := List.mem_range.mp hoff
    omega
  rw [hbefore, hafter, hk, Nat.add_sub_cancel]
  ring

/-- 42 R123: RING.PUSH with THR.UPD keeps SUM the window's sum. -/
theorem sum_ringUpdate {C : Cfg ℚ} (hnum : ExactNum C.num) {b : Block ℚ} (hwr : b.arch.wr < C.par.n)
    (hsum : b.arch.sum = windowSum C b.arch) : (ringUpdate C b).arch.sum = windowSum C (ringUpdate C b).arch := by
  have hwindow : windowSum C (ringUpdate C b).arch = windowSum C (opRingPush C b).arch := rfl
  have hupd : (ringUpdate C b).arch.sum = C.num.add (C.num.sub b.arch.sum (opRingPush C b).lat.old)
      (readD C (opRingPush C b).arch (C.par.w - 1)) := rfl
  rw [hwindow, hupd, hnum.add, hnum.sub, opRingPush_old C hwr, hsum, windowSum_opRingPush C hwr]

/-- The window's sum depends on DRING and the cursor alone. -/
theorem windowSum_congr (C : Cfg ℚ) {a a' : Arch ℚ} (hring : a.dring = a'.dring) (hwr : a.wr = a'.wr) :
    windowSum C a = windowSum C a' := by
  have hread : readD C a = readD C a' := by
    funext off
    rw [readD, readD, slotAt, slotAt, hring, hwr]
  rw [windowSum, windowSum, hread]

theorem wr_lt_of_memOk {C : Cfg V} {b : Block V} (h : b.memOk C) : b.arch.wr < C.par.n := by
  obtain ⟨-, -, -, -, hwr, -, -⟩ := h
  exact hwr

theorem reset_memOk (C : Cfg V) : (Block.reset C).memOk C :=
  ⟨⟨.nil, nofun⟩, ⟨.nil, nofun⟩, nofun, nofun, C.n_pos, List.length_replicate, List.length_replicate⟩

/-- A window of `W` zeros sums to the reset value of SUM. -/
theorem windowSum_reset {C : Cfg ℚ} (hnum : ExactNum C.num) : windowSum C (Arch.reset C) = 0 := by
  have hzero : C.zero = 0 := hnum.ofInt 0
  have hread : readD C (Arch.reset C) = fun _ => 0 := by
    funext off
    exact (read_reset_rings C _).1.trans hzero
  rw [windowSum, hread, List.map_const', List.sum_replicate, smul_zero]

/-- Settles O27: slots 8 and 9 keep the invariant, slots 1 to 7 come before them without touching it, and the rest of
the step writes neither DRING nor the cursor nor SUM. -/
theorem sumIsTheWindowSum : Obligations.SumIsTheWindowSum := by
  intro C hnum
  refine ⟨⟨reset_memOk C, (hnum.ofInt 0).trans (windowSum_reset hnum).symm⟩, fun b hb hsum =>
    ⟨⟨Laws.ringUpdate_memOk hb, sum_ringUpdate hnum (wr_lt_of_memOk hb) hsum⟩, fun now b' o hstep => ?_⟩⟩
  have hfront : (frontEnd C b).arch.sum = windowSum C (frontEnd C b).arch := hsum
  obtain ⟨hmem, hdring, -, hwr, hsum'⟩ := Laws.ringStep_memOk now (frontEnd_memOk hb) hstep
  refine ⟨hmem, ?_⟩
  rw [hsum', windowSum_congr C hdring hwr]
  exact sum_ringUpdate hnum (wr_lt_of_memOk hb) hfront

end Sys2Proof.Proofs

/-! ### The step as a whole -/

namespace Sys2Proof.Proofs

open Sys2Proof.Machine

variable {V : Type}

/-! #### What a step is made of -/

/-- Settles O45: each operation puts its block and goes on, so that the last block put is the front's. -/
theorem frontOfStepIsItsOperations : Obligations.FrontOfStepIsItsOperations := fun _ => ⟨_, rfl, rfl⟩

section Step

variable [DecidableEq V] (C : Cfg V) (now : BitVec 64) (b : Block V)

/-- 46 R177: with SKIP = 0 the step goes on to the detection. -/
theorem ringStep_of_skip_zero (h : b.arch.skip = 0) : ringStep C now b = detect C now (ringUpdate C b) := by
  have hskip : (ringUpdate C b).arch.skip = 0 := h
  rw [ringStep, Laws.opSkipTick_none hskip]

/-- 46 R177, 42 R124: with a nonzero SKIP the step counts it down and ends. -/
theorem ringStep_of_skip_pos (h : b.arch.skip ≠ 0) :
    ringStep C now b = ({ ringUpdate C b with arch.skip := b.arch.skip - 1 }, .skipped) := by
  rcases Laws.ringStep_cases C now b with ⟨-, e⟩ | ⟨h0, -⟩ | ⟨h0, -⟩ | ⟨h0, -⟩
  · exact e
  all_goals exact absurd h0 h

end Step

/-! #### What a step leaves -/

theorem decodeFrame_arch {C : Cfg V} {b c : Block V} {o : Option StepOutcome} (h : decodeFrame C b = (c, o)) :
    c.arch = b.arch := by
  have := Laws.decodeLoop_arch C (8 * C.par.maxBytes) (opDecInit C b)
  rw [decodeFrame] at h
  rw [h] at this
  exact this

/-- Two persistent states that differ in SKIP and the output side at most. -/
structure KeepsFront (a a' : Arch V) : Prop where
  fi : a'.fi = a.fi
  fq : a'.fq = a.fq
  fd : a'.fd = a.fd
  ip : a'.ip = a.ip
  qp : a'.qp = a.qp
  dring : a'.dring = a.dring
  mring : a'.mring = a.mring
  wr : a'.wr = a.wr
  sum : a'.sum = a.sum
  phase : a'.phase = a.phase
  ihold : a'.ihold = a.ihold
  run : a'.run = a.run

section Ends

variable [DecidableEq V] {C : Cfg V} {now : BitVec 64} {b b' : Block V} {o : StepOutcome}

/-- How the back half of a step ends, by what it leaves of the persistent state: SKIP counted down, the work of slots 8
and 9 alone, or the report of a successful decode. -/
theorem ringStep_ends (h : ringStep C now b = (b', o)) :
    (o = .skipped ∧ b.arch.skip ≠ 0 ∧ b'.arch = { (ringUpdate C b).arch with skip := b.arch.skip - 1 }) ∨
    ((o = .noMatch ∨ o = .desync ∨ o = .overlen) ∧ b.arch.skip = 0 ∧ b'.arch = (ringUpdate C b).arch) ∨
    (o = .frame ∧ b.arch.skip = 0 ∧ ∃ c, decodeFrame C (opThrDiv C (ringUpdate C b)) = (c, none) ∧
      c.arch = (ringUpdate C b).arch ∧ b' = report C now c) := by
  rcases Laws.ringStep_cases C now b with
    ⟨hs, e⟩ | ⟨hs, -, e⟩ | ⟨hs, -, c, r, hdec, e⟩ | ⟨hs, -, c, hdec, e⟩ <;>
    obtain ⟨rfl, rfl⟩ := Prod.mk.inj (e.symm.trans h)
  · exact .inl ⟨rfl, hs, rfl⟩
  · exact .inr (.inl ⟨.inl rfl, hs, rfl⟩)
  · exact .inr (.inl ⟨.inr (Laws.decodeLoop_some _ _ _ _ hdec), hs, (decodeFrame_arch hdec).trans (Laws.opThrDiv_arch C _)⟩)
  · exact .inr (.inr ⟨rfl, hs, c, hdec, (decodeFrame_arch hdec).trans (Laws.opThrDiv_arch C _), rfl⟩)

/-- Whatever the outcome, the back half leaves the work of slots 1 to 9: after them a step writes SKIP and the output
side alone. -/
theorem ringStep_keepsFront (h : ringStep C now b = (b', o)) : KeepsFront (ringUpdate C b).arch b'.arch := by
  rcases ringStep_ends h with ⟨-, -, e⟩ | ⟨-, -, e⟩ | ⟨-, -, c, -, hc, rfl⟩
  · rw [e]
    exact ⟨rfl, rfl, rfl, rfl, rfl, rfl, rfl, rfl, rfl, rfl, rfl, rfl⟩
  · rw [e]
    exact ⟨rfl, rfl, rfl, rfl, rfl, rfl, rfl, rfl, rfl, rfl, rfl, rfl⟩
  · rw [← hc]
    exact ⟨rfl, rfl, rfl, rfl, rfl, rfl, rfl, rfl, rfl, rfl, rfl, rfl⟩

/-- Unless the outcome is FRAME a step leaves the output side too. -/
theorem ringStep_arch_of_ne_frame (h : ringStep C now b = (b', o)) (ho : o ≠ .frame) :
    b'.arch = { (ringUpdate C b).arch with skip := b'.arch.skip } := by
  rcases ringStep_ends h with ⟨-, -, e⟩ | ⟨-, -, e⟩ | ⟨hf, -⟩
  · rw [e]
  · rw [e]
  · exact absurd hf ho

theorem ringStep_skip_of_skipped (h : ringStep C now b = (b', .skipped)) : b'.arch.skip = b.arch.skip - 1 := by
  rcases ringStep_ends h with ⟨-, -, e⟩ | ⟨ho, -⟩ | ⟨ho, -⟩
  · rw [e]
  · simp at ho
  · simp at ho

theorem ringStep_skip_of_silent (h : ringStep C now b = (b', o)) (ho : o = .noMatch ∨ o = .desync ∨ o = .overlen) :
    b'.arch.skip = b.arch.skip := by
  rcases ringStep_ends h with ⟨rfl, -⟩ | ⟨-, -, e⟩ | ⟨rfl, -⟩
  · simp at ho
  · rw [e]
    rfl
  · simp at ho

end Ends

/-- Settles O48: the frame of the back half, read off the block that the front end hands it. -/
theorem pairStepFrame : Obligations.PairStepFrame := by
  intro V _ C now b
  refine ⟨rfl, ringStep_of_skip_zero C now b, ringStep_of_skip_pos C now b, fun b' o hstep => ?_⟩
  rw [pairStep_eq] at hstep
  have hkeep := ringStep_keepsFront hstep
  have hsilent := ringStep_skip_of_silent hstep
  refine ⟨hkeep.wr, fun k hk => ?_, fun hwf => ?_, fun hwf => ?_, hkeep.phase, hkeep.ihold, hkeep.run, hkeep.fi,
    hkeep.fq, hkeep.fd, hkeep.ip, hkeep.qp, hkeep.sum, ?_, hsilent, fun ho => ?_⟩
  · rw [hkeep.dring, hkeep.mring]
    exact opRingPush_read_other C (frontEnd C b) hk
  · rw [hkeep.dring]
    exact opRingPush_read_dring_same C (b := frontEnd C b) hwf
  · rw [hkeep.mring]
    exact opRingPush_read_mring_same C (b := frontEnd C b) hwf
  · rintro rfl
    have hskipped := ringStep_skip_of_skipped hstep
    exact hskipped
  · rw [ringStep_arch_of_ne_frame hstep ho]
    exact ⟨rfl, rfl, rfl, rfl, rfl, rfl⟩

/-! #### What a step reads of `now` -/

/-- Two results with one outcome, and with one block unless that is FRAME. -/
def SameUnlessFrame (r r' : Block V × StepOutcome) : Prop := r.2 = r'.2 ∧ (r.2 ≠ .frame → r = r')

theorem SameUnlessFrame.refl (r : Block V × StepOutcome) : SameUnlessFrame r r := ⟨rfl, fun _ => rfl⟩

/-- 46 R180: `now` is read after a successful decode alone. -/
theorem attempt_now (C : Cfg V) (now now' : BitVec 64) (b : Block V) :
    SameUnlessFrame (attempt C now b) (attempt C now' b) := by
  rw [attempt, attempt]
  rcases decodeFrame C b with ⟨c, _ | o⟩
  · exact ⟨rfl, fun h => absurd rfl h⟩
  · exact .refl _

theorem ringStep_now [DecidableEq V] (C : Cfg V) (now now' : BitVec 64) (b : Block V) :
    SameUnlessFrame (ringStep C now b) (ringStep C now' b) := by
  rw [ringStep, ringStep]
  rcases opSkipTick (ringUpdate C b) with ⟨c, _ | o⟩
  · simp only [detect]
    rcases opCorr C (opThrDiv C c) with ⟨d, _ | o⟩
    · exact attempt_now C now now' d
    · exact .refl _
  · exact .refl _

/-- Settles O49: the front end does not read `now`, and the back half reads it in a FRAME step alone. -/
theorem nowMattersOnlyInAFrame : Obligations.NowMattersOnlyInAFrame :=
  fun _ _ C now now' b => ringStep_now C now now' (frontEnd C b)

/-! #### PUSH, and the transitions without an operation -/

/-- Settles O6: nothing presented, the test-bench entry and an unused label are the three cases; PUSH runs the back half,
whose frame is known. -/
theorem stepWithoutAnOperation : Obligations.StepWithoutAnOperation := by
  refine ⟨fun s hinput => ?_, fun s d g now rest b' o hinput hstep => ?_, fun s slot now rest hinput hwf => ?_⟩
  · rw [step, takeNext, hinput]
  · refine ⟨?_, ?_⟩
    · have hpush : step s = benchPush d g { s with input := rest, now := now } := by
        rw [step, takeNext, hinput]
        rfl
      rw [hpush, benchPush, pushStep, hstep]
      rfl
    · have hkeep := ringStep_keepsFront hstep
      refine ⟨hkeep.fi, hkeep.fq, hkeep.fd, hkeep.ip, hkeep.qp, hkeep.phase, hkeep.ihold, hkeep.run, fun ho => ?_⟩
      rw [ringStep_arch_of_ne_frame hstep ho]
      rfl
  · have herr : decode (.stage slot) = .error (.noSuchSlot slot) := by
      rcases decodeStage_cases slot with ⟨h, -⟩ | ⟨-, h⟩
      · simp [hwf] at h
      · exact h
    rw [step, takeNext, hinput]
    change perform (.code (.stage slot)) { s with input := rest, now := now } = _
    rw [perform, herr]
    rfl

/-! #### The stage operations and symbols -/

/-- Settles O43: BYTE.ACC and CRC.UPD put blocks with the same persistent state, and EMIT writes the output side. -/
theorem candidateOperationsAlwaysComplete : Obligations.CandidateOperationsAlwaysComplete := fun s =>
  ⟨_, _, _, exec_byteAcc s, exec_crcUpd s, exec_emit s, Laws.opByteAcc_arch s.blk, Laws.opCrcUpd_arch cfg s.blk, rfl,
    ⟨_, rfl⟩, Laws.opEmit_lat s.blk⟩

/-- The operations that write step-local registers alone. -/
def writesNoState : Instr → Bool
  | .symHL | .symLH | .symLL | .symHH | .center | .mag | .disc | .thrDiv | .corr | .decInit | .manBit | .byteAcc
  | .crcUpd | .lenChk | .rssi | .tstamp => true
  | _ => false

theorem opSymbol_arch (C : Cfg V) (m1 m2 : Bool) (b : Block V) : (opSymbol C m1 m2 b).1.arch = b.arch :=
  Laws.decodeSymbol_arch C _

/-- What is in the state beside the block and the label is the environment's, and no operation writes it. -/
theorem exec_eq_put (i : Instr) (s : State) : ∃ b l, exec i s = .next (s.put b l) := by
  cases i <;> exact ⟨_, _, rfl⟩

theorem exec_arch_of_writesNoState {i : Instr} {s t : State} (hi : writesNoState i = true) (h : exec i s = .next t) :
    t.blk.arch = s.blk.arch := by
  cases i <;> simp only [writesNoState, Bool.false_eq_true] at hi <;> obtain rfl := Host.Outcome.next.inj h
  case symHL | symLH | symLL | symHH => exact opSymbol_arch cfg _ _ s.blk
  case manBit => exact Laws.opManBit_arch cfg s.blk
  case byteAcc => exact Laws.opByteAcc_arch s.blk
  all_goals rfl

theorem opSkipTick_arch (b : Block V) : (opSkipTick b).1.arch = { b.arch with skip := b.arch.skip - 1 } := by
  rcases Laws.opSkipTick_cases b with ⟨h0, e⟩ | ⟨-, e⟩ <;> rw [e]
  rw [h0, Nat.zero_sub, ← h0]

/-- Settles O44: each of nine operations writes the registers it is named for, and the others write none. -/
theorem oneWriterPerRegister : Obligations.OneWriterPerRegister := by
  intro i s t hformat h
  obtain ⟨b, l, hput⟩ := exec_eq_put i s
  have hinput : t.input = s.input := by rw [← Host.Outcome.next.inj (hput.symm.trans h), Laws.put_input]
  have hnow : t.now = s.now := by rw [← Host.Outcome.next.inj (hput.symm.trans h), Laws.put_now]
  cases i
  case nop | byte | eos | reset | sample => simp [Instr.format] at hformat
  case lpfI | lpfQ | lpfD | prev | ringPush | thrUpd | emit | skipSet =>
    obtain rfl := Host.Outcome.next.inj h
    simp
  case skipTick =>
    obtain rfl := Host.Outcome.next.inj h
    simp [opSkipTick_arch]
  all_goals
    rw [exec_arch_of_writesNoState rfl h]
    simp [hinput, hnow]

/-! #### After EOS -/

/-- Every port command but RESET, and SAMPLE: what an ended stream ignores (46 R174, R176). -/
def IsHeardHalted (i : Instr) : Prop :=
  (∃ d, i = .nop d) ∨ (∃ d, i = .byte d) ∨ (∃ d, i = .eos d) ∨ ∃ a b, i = .sample a b

theorem clearValid_arch (b : Block V) : (clearValid b).arch = { b.arch with outValid := false } := rfl

/-- 46 R176: with RUN = 0 such a command clears OUT_VALID and does nothing else. -/
theorem exec_of_halted {i : Instr} {s : State} (hrun : s.blk.arch.run = false) (hi : IsHeardHalted i) :
    ∃ l, exec i s = .next (s.put (clearValid s.blk) l) := by
  have hbyte : ∀ (d : Byte) (b : Block F64), b.arch.run = false →
      portByte cfg s.now d b = (clearValid b, .ignored) := fun _ _ => portByte_of_halted
  rcases hi with ⟨d, rfl⟩ | ⟨d, rfl⟩ | ⟨d, rfl⟩ | ⟨a, b, rfl⟩
  · exact ⟨_, exec_nop d s⟩
  · exact ⟨.ignored, by rw [exec_byte, hbyte d _ hrun]⟩
  · refine ⟨.plain, ?_⟩
    rw [exec_eos, ← hrun]
    rfl
  · refine ⟨.ignored, ?_⟩
    rw [exec_sample, portSample, hbyte a _ hrun, hbyte b (clearValid s.blk) hrun]
    rfl

/-- Settles O18: by induction on the commands, OUT_VALID being cleared once and for all by the first. -/
theorem haltedUntilReset : Obligations.HaltedUntilReset := by
  intro is
  induction is with
  | nil => exact fun s _ _ => ⟨s, rfl, rfl, rfl, rfl⟩
  | cons i is ih =>
    intro s hrun his
    obtain ⟨hi, his⟩ := List.forall_mem_cons.mp his
    obtain ⟨l, hexec⟩ := exec_of_halted hrun hi
    obtain ⟨t, hall, hlat, hinput, harch⟩ := ih (s.put (clearValid s.blk) l) hrun his
    refine ⟨t, ?_, hlat, hinput, ?_⟩
    · rw [execAll, hexec]
      exact hall
    · rw [harch]
      simp [clearValid_arch]

/-! #### The warm-up -/

/-- The block on which SAMPLE performs its one step (46 R172). -/
def pairBlock (i q : Byte) (b : Block V) : Block V :=
  { clearValid b with arch.ihold := i, arch.phase := false, lat.qin := q }

/-- 46 R172: with PHASE = 0 a sample pair puts the block and the outcome of one step. -/
theorem exec_sample_of_iByte {i q : Byte} {s : State} {b : Block F64} {o : StepOutcome}
    (hrun : s.blk.arch.run = true) (hphase : s.blk.arch.phase = false)
    (hstep : ringStep cfg s.now (frontEnd cfg (pairBlock i q s.blk)) = (b, o)) :
    exec (.sample i q) s = .next (s.put b (.outcome o)) := by
  rw [← pairStep_eq] at hstep
  rw [exec_sample, portSample_of_iByte hrun hphase hstep.symm]

/-- 42 R124: while SKIP lasts that step is SKIPPED. -/
theorem exec_sample_of_skip_pos {s : State} (i q : Byte) (hrun : s.blk.arch.run = true)
    (hphase : s.blk.arch.phase = false) (hskip : s.blk.arch.skip ≠ 0) :
    ∃ b, exec (.sample i q) s = .next (s.put b (.outcome .skipped)) ∧ b.arch.run = true ∧ b.arch.phase = false ∧
      b.arch.skip = s.blk.arch.skip - 1 ∧ b.arch.out = s.blk.arch.out ∧
      b.arch.wr = (s.blk.arch.wr + 1) % 8192 :=
  ⟨_, exec_sample_of_iByte hrun hphase (ringStep_of_skip_pos cfg s.now (frontEnd cfg (pairBlock i q s.blk)) hskip),
    hrun, rfl, rfl, rfl, rfl⟩

/-- Settles O50: by induction on the pairs, of which the last one's step gives the label. -/
theorem warmUpSkipsEveryPair : Obligations.WarmUpSkipsEveryPair := by
  intro ps
  induction ps with
  | nil => exact fun s _ _ _ => ⟨s, rfl, rfl, fun h => absurd rfl h, rfl, rfl⟩
  | cons p ps ih =>
    intro s hrun hphase hlen
    rw [List.length_cons] at hlen
    obtain ⟨b, hexec, hrun', hphase', hskip, hout, hwr⟩ := exec_sample_of_skip_pos p.1 p.2 hrun hphase (by omega)
    obtain ⟨t, hall, hskip', hlabel, hout', hwr'⟩ := ih (s.put b (.outcome .skipped)) hrun' hphase'
      (by rw [Laws.put_blk, hskip]; omega)
    rw [Laws.put_blk] at hskip' hout' hwr'
    have hexecAll : execAll (samples (p :: ps)) s = .next t := by
      rw [samples, List.map_cons, execAll, hexec]
      exact hall
    refine ⟨t, hexecAll, ?_, fun _ => ?_, hout'.trans hout, ?_⟩
    · rw [hskip', hskip, List.length_cons]
      omega
    · cases ps with
      | nil =>
        rw [← Host.Outcome.next.inj hall, Laws.put_label]
      | cons q qs => exact hlabel (List.cons_ne_nil q qs)
    · rw [hwr', hwr, List.length_cons]
      omega

end Sys2Proof.Proofs

/-! ### The CRC register and the decode attempt -/

namespace Sys2Proof.Proofs

open Sys2Proof.Machine

/-! #### Facts about the CRC register -/

/-- A shift that moves no 1 out of bit 15 does not see the polynomial. -/
theorem crcShifts_of_lt (poly : BitVec 16) (k : Nat) {r : BitVec 16} (h : r.toNat * 2 ^ k < 2 ^ 16) :
    crcShifts poly k r = r <<< k := by
  induction k generalizing r with
  | zero => rw [crcShifts, BitVec.shiftLeft_zero]
  | succ k ih =>
    rw [Nat.pow_succ'] at h
    have hpos := Nat.two_pow_pos k
    have hle : r.toNat * 2 ≤ r.toNat * (2 * 2 ^ k) := Nat.mul_le_mul_left _ (by omega)
    have hmsb : r.msb = false := by
      rw [BitVec.msb_eq_false_iff_two_mul_lt]
      omega
    have hnat : (r <<< 1).toNat = r.toNat * 2 := by
      rw [BitVec.toNat_shiftLeft, Nat.shiftLeft_eq, pow_one, Nat.mod_eq_of_lt (by omega)]
    rw [crcShifts, crcShift, if_neg (by simp [hmsb]), ih (by rw [hnat, Nat.mul_assoc]; exact h),
      ← BitVec.shiftLeft_add, Nat.add_comm]

theorem crcShifts_zero (poly : BitVec 16) (k : Nat) : crcShifts poly k 0#16 = 0#16 := by
  rw [crcShifts_of_lt poly k (by simp), BitVec.zero_shiftLeft]

/-- A byte folded into the high half meets the register's own high byte. -/
theorem xor_high_byte (r : BitVec 16) :
    r ^^^ ((r.extractLsb' 8 8).setWidth 16 <<< 8) = (r.extractLsb' 0 8).setWidth 16 := by
  apply BitVec.eq_of_getLsbD_eq
  intro i hi
  by_cases h8 : i < 8
  · simp [h8, hi]
  · have hsub : i - 8 < 8 := by omega
    have hadd : 8 + (i - 8) = i := by omega
    simp [h8, hi, hsub, hadd]

/-- 44 R149 (e) for one step: the high byte leaves the low byte in the high half. -/
theorem crcByte_high (poly r : BitVec 16) :
    crcByte poly r (r.extractLsb' 8 8) = (r.extractLsb' 0 8).setWidth 16 <<< 8 := by
  have hlow := (r.extractLsb' 0 8).isLt
  rw [crcByte, xor_high_byte, crcShifts_of_lt]
  rw [BitVec.toNat_setWidth_of_le (by decide)]
  omega

theorem crcByte_self (poly : BitVec 16) (b : Byte) : crcByte poly (b.setWidth 16 <<< 8) b = 0 := by
  rw [crcByte, BitVec.xor_self]
  exact crcShifts_zero poly 8

/-- Settles O36: the high byte leaves the low byte in the high half, and the low byte cancels it. -/
theorem appendedRegisterGivesZero : Obligations.AppendedRegisterGivesZero := by
  intro poly r payload
  rw [Laws.crcBytes_append, Laws.crcBytes_cons, Laws.crcBytes_cons, Laws.crcBytes_nil, crcByte_high, crcByte_self]

/-- With bit 0 of the polynomial set a shift loses nothing: only 0 is shifted to 0. -/
theorem crcShift_eq_zero {poly r : BitVec 16} (hodd : poly.getLsbD 0 = true) (h : crcShift poly r = 0) : r = 0 := by
  rw [crcShift] at h
  cases hmsb : r.msb
  · rw [if_neg (by simp [hmsb])] at h
    apply BitVec.eq_of_toNat_eq
    have hnat := congrArg BitVec.toNat h
    rw [BitVec.toNat_shiftLeft, Nat.shiftLeft_eq] at hnat
    rw [BitVec.msb_eq_false_iff_two_mul_lt] at hmsb
    simp at hnat ⊢
    omega
  · rw [if_pos hmsb] at h
    have hbit : (r <<< 1 ^^^ poly).getLsbD 0 = true := by rw [BitVec.getLsbD_xor, hodd]; simp
    simp [h] at hbit

theorem crcShifts_eq_zero {poly r : BitVec 16} (hodd : poly.getLsbD 0 = true) {k : Nat}
    (h : crcShifts poly k r = 0) : r = 0 := by
  induction k generalizing r with
  | zero => exact h
  | succ k ih => exact crcShift_eq_zero hodd (ih h)

/-- A byte takes the register to 0 only from the register that holds it in the high half. -/
theorem crcByte_eq_zero {poly r : BitVec 16} (hodd : poly.getLsbD 0 = true) {b : Byte} (h : crcByte poly r b = 0) :
    r = b.setWidth 16 <<< 8 :=
  BitVec.xor_eq_zero_iff.mp (crcShifts_eq_zero hodd h)

theorem crcBytes_single_ne_zero (a : Byte) : crcBytes 0x1021#16 0xFFFF#16 [a] ≠ 0 := by
  have hlow : ∀ a : Byte, 0xFFFF#16 ≠ a.setWidth 16 <<< 8 := by decide +kernel
  exact fun h => hlow a (crcByte_eq_zero (by decide) h)

/-- Settles O37: the second byte must be the high half of the register after the first, whose low half is then 0; the
256 first bytes are tried out. -/
theorem shortestFrameIsFFFF : Obligations.ShortestFrameIsFFFF := by
  have hfirst : ∀ a : Byte, (crcByte 0x1021#16 0xFFFF#16 a).setWidth 8 = 0#8 → a = 0xFF#8 := by decide +kernel
  have hsecond : ∀ b : Byte, crcByte 0x1021#16 0xFFFF#16 0xFF#8 = b.setWidth 16 <<< 8 → b = 0xFF#8 := by
    decide +kernel
  have hlow : ∀ b : Byte, (b.setWidth 16 <<< 8).setWidth 8 = 0#8 := by decide +kernel
  refine ⟨crcBytes_single_ne_zero, fun a b => ⟨fun h => ?_, ?_⟩⟩
  · have hregister : crcByte 0x1021#16 0xFFFF#16 a = b.setWidth 16 <<< 8 := crcByte_eq_zero (by decide) h
    obtain rfl : a = 0xFF#8 := hfirst a (by rw [hregister, hlow])
    exact ⟨rfl, hsecond b hregister⟩
  · rintro ⟨rfl, rfl⟩
    decide +kernel

end Sys2Proof.Proofs

/-! ### The decode attempt -/

namespace Sys2Proof.Proofs

open Sys2Proof.Machine

variable {V : Type}

/-! #### What it means that a byte string is read -/

section Reads

variable {C : Cfg V} {a : Arch V} {thr : V} {bytes xs ys : List Byte}

/-- The half-bits of data bit `j` of a transmission: past the preamble's twenty, the first with the level of the bit, the
second with the other (30_encoding R75, R78). -/
theorem airLevels_bit (C : Cfg V) {j : Nat} {byte : Byte} (hj : bytes[j / 8]? = some byte) :
    (airLevels C.par bytes)[20 + 2 * j]? = some (byte.getLsbD (7 - j % 8) == C.par.manOneIsHl) ∧
    (airLevels C.par bytes)[21 + 2 * j]? = some !(byte.getLsbD (7 - j % 8) == C.par.manOneIsHl) := by
  have hpre := Laws.preambleLevels_length C
  have hfirst : 2 * j / 2 = j ∧ 2 * j % 2 = 0 := by omega
  have hsecond : (1 + 2 * j) / 2 = j ∧ (1 + 2 * j) % 2 = 1 := by omega
  constructor
  · rw [airLevels, List.getElem?_append_right (by omega), hpre, Nat.add_sub_cancel_left, Laws.coded_getElem?,
      hfirst.1, hfirst.2, Laws.bits_getElem?, hj]
    rfl
  · rw [airLevels, List.getElem?_append_right (by omega), hpre, show 21 + 2 * j - 20 = 1 + 2 * j by omega,
      Laws.coded_getElem?, hsecond.1, hsecond.2, Laws.bits_getElem?, hj]
    rfl

/-- A byte string that is read has each of its bits read. -/
theorem bitReadAs_of_readsAs (h : readsAs C a thr 20 (airLevels C.par bytes)) {j : Nat} {byte : Byte}
    (hj : bytes[j / 8]? = some byte) : Laws.BitReadAs C a thr j (byte.getLsbD (7 - j % 8)) := by
  obtain ⟨hfirst, hsecond⟩ := airLevels_bit C hj
  rw [Laws.BitReadAs, Laws.firstHalfOfs_eq_pos, Laws.secondHalfOfs_eq_pos]
  exact ⟨h _ _ (by omega) hfirst, h _ _ (by omega) hsecond⟩

/-- The two half-bits of a bit that is read are of different classes. -/
theorem classes_ne_of_bitReadAs {j : Nat} {bit : Bool} (h : Laws.BitReadAs C a thr j bit) :
    above C (readD C a (firstHalfOfs C j)) thr ≠ above C (readD C a (secondHalfOfs C j)) thr := by
  obtain ⟨hfirst, hsecond⟩ := h
  rw [hfirst, hsecond]
  cases (bit == C.par.manOneIsHl) <;> decide

/-- A bit is read as one value. -/
theorem bitReadAs_unique {j : Nat} {bit bit' : Bool} (h : Laws.BitReadAs C a thr j bit)
    (h' : Laws.BitReadAs C a thr j bit') : bit = bit' := by
  have heq : (bit == C.par.manOneIsHl) = (bit' == C.par.manOneIsHl) := h.1.symm.trans h'.1
  revert heq
  cases bit <;> cases bit' <;> cases C.par.manOneIsHl <;> decide

/-- Two byte strings read from one ring agree as far as both go. -/
theorem take_eq_of_readsAs (hx : readsAs C a thr 20 (airLevels C.par xs))
    (hy : readsAs C a thr 20 (airLevels C.par ys)) (hlen : xs.length ≤ ys.length) : ys.take xs.length = xs := by
  apply List.ext_getElem
  · rw [List.length_take, Nat.min_eq_left hlen]
  intro k _ hk
  rw [List.getElem_take]
  apply BitVec.eq_of_getLsbD_eq
  intro i hi
  have hdiv : (8 * k + (7 - i)) / 8 = k := by omega
  have hbit : 7 - (8 * k + (7 - i)) % 8 = i := by omega
  have hbytex : xs[(8 * k + (7 - i)) / 8]? = some xs[k] := by rw [hdiv, List.getElem?_eq_getElem hk]
  have hbytey : ys[(8 * k + (7 - i)) / 8]? = some ys[k] := by rw [hdiv, List.getElem?_eq_getElem]
  have hreadx := bitReadAs_of_readsAs hx hbytex
  have hready := bitReadAs_of_readsAs hy hbytey
  rw [hbit] at hreadx hready
  exact bitReadAs_unique hready hreadx

/-- A byte string is one that the decoder stops at: it is read, and the CRC register first reads 0 over all of it. -/
structure Stops (C : Cfg V) (a : Arch V) (thr : V) (bytes : List Byte) : Prop where
  nonempty : 0 < bytes.length
  fits : bytes.length ≤ C.par.maxBytes
  reads : readsAs C a thr 20 (airLevels C.par bytes)
  zero : crcBytes C.par.crcPoly C.par.crcInit bytes = 0
  first : noEarlyZero C bytes (bytes.length - 1)

/-- Nothing longer is read past such a string without the zero showing. -/
theorem Stops.lt_of_noEarlyZero (h : Stops C a thr xs) (hy : readsAs C a thr 20 (airLevels C.par ys))
    (hlen : xs.length ≤ ys.length) {m : Nat} (hz : noEarlyZero C ys m) : m < xs.length := by
  by_contra hle
  refine hz xs.length h.nonempty (Nat.le_of_not_lt hle) ?_
  rw [take_eq_of_readsAs h.reads hy hlen, h.zero]

/-- At most one byte string stops the decoder. -/
theorem Stops.unique (hx : Stops C a thr xs) (hy : Stops C a thr ys) : xs = ys := by
  have hx0 := hx.nonempty
  have hy0 := hy.nonempty
  have hlen : xs.length = ys.length := by
    rcases Nat.le_total xs.length ys.length with hle | hle
    · have := hx.lt_of_noEarlyZero hy.reads hle hy.first
      omega
    · have := hy.lt_of_noEarlyZero hx.reads hle hx.first
      omega
  rw [← take_eq_of_readsAs hx.reads hy.reads hlen.le, hlen, List.take_length]

end Reads

/-! #### How the attempt ends -/

/-- A candidate frame that is complete: LEN bytes in the buffer, and NBITS counting their bits. -/
structure Complete (C : Cfg V) (c : Block V) (bytes : List Byte) : Prop where
  buf : c.lat.buf.length = C.par.maxBytes
  len : c.lat.len.toNat = bytes.length
  nbits : c.lat.nbits = 8 * bytes.length
  frame : bufFrame c.lat = bytes

section Attempt

variable {C : Cfg V} {b b' c c' : Block V}

/-- The three ways the attempt can end: it stops at a byte string and holds it; or it finds a bit without a transition,
or MAX_BYTES bytes, the CRC register reading 0 over none of the bytes before. -/
theorem decodeFrame_ends {o : Option StepOutcome} (hbuf : b.lat.buf.length = C.par.maxBytes)
    (h : decodeFrame C b = (c, o)) :
    (o = none ∧ ∃ bytes, Stops C b.arch b.lat.thr bytes ∧ Complete C c bytes) ∨
    (o = some .desync ∧ ∃ (j : Nat) (bytes : List Byte), j < 8 * C.par.maxBytes ∧ bytes.length = j / 8 ∧
      readsAs C b.arch b.lat.thr 20 (airLevels C.par bytes) ∧ noEarlyZero C bytes (j / 8) ∧
      above C (readD C b.arch (firstHalfOfs C j)) b.lat.thr = above C (readD C b.arch (secondHalfOfs C j)) b.lat.thr ∧
      ∀ k, k < j → above C (readD C b.arch (firstHalfOfs C k)) b.lat.thr ≠
        above C (readD C b.arch (secondHalfOfs C k)) b.lat.thr) ∨
    (o = some .overlen ∧ ∃ bytes : List Byte, bytes.length = C.par.maxBytes ∧
      readsAs C b.arch b.lat.thr 20 (airLevels C.par bytes) ∧ noEarlyZero C bytes C.par.maxBytes) := by
  refine (Laws.decodeLoop_spec _ _ c o (Laws.candidate_init C b hbuf) (by simp [opDecInit]) h).imp_left ?_
  rintro ⟨ho, hbufc, hpos, hmax, hnbits, hzero, hfirst, hreads⟩
  have hlen : (c.lat.buf.take c.lat.len.toNat).length = c.lat.len.toNat := by
    rw [List.length_take, hbufc, Nat.min_eq_left hmax]
  refine ⟨ho, c.lat.buf.take c.lat.len.toNat, ⟨?_, ?_, hreads, hzero, ?_⟩, ⟨hbufc, hlen.symm, ?_, ?_⟩⟩
  · rwa [hlen]
  · rwa [hlen]
  · rwa [hlen]
  · rwa [hlen]
  · exact Laws.bufFrame_eq_take c.lat (hbufc ▸ hmax)

/-- Where a byte string stops the decoder, the attempt succeeds with it. -/
theorem decodeFrame_of_stops (hbuf : b.lat.buf.length = C.par.maxBytes) {bytes : List Byte}
    (hstops : Stops C b.arch b.lat.thr bytes) : ∃ c, decodeFrame C b = (c, none) ∧ Complete C c bytes := by
  rcases h : decodeFrame C b with ⟨c, o⟩
  rcases decodeFrame_ends hbuf h with ⟨rfl, ys, hys, hc⟩ | ⟨-, j, ys, -, hlen, hreads, hz, hsame, -⟩ |
    ⟨-, ys, hlen, hreads, hz⟩
  · obtain rfl := hstops.unique hys
    exact ⟨c, rfl, hc⟩
  · exfalso
    by_cases hj : j / 8 < bytes.length
    · exact classes_ne_of_bitReadAs (bitReadAs_of_readsAs hstops.reads (List.getElem?_eq_getElem hj)) hsame
    · have := hstops.lt_of_noEarlyZero hreads (by omega) hz
      omega
  · exfalso
    have hfits := hstops.fits
    have := hstops.lt_of_noEarlyZero hreads (by omega) hz
    omega

/-- A ring with MAX_BYTES bytes to read has no bit without a transition among them. -/
theorem not_desync_and_overlen (hbuf : b.lat.buf.length = C.par.maxBytes)
    (hbuf' : b'.lat.buf.length = C.par.maxBytes) (harch : b'.arch = b.arch) (hthr : b'.lat.thr = b.lat.thr)
    (h : decodeFrame C b = (c, some .desync)) (h' : decodeFrame C b' = (c', some .overlen)) : False := by
  rcases decodeFrame_ends hbuf h with ⟨ho, -⟩ | ⟨-, j, -, hj, -, -, -, hsame, -⟩ | ⟨ho, -⟩
  · cases ho
  · rcases decodeFrame_ends hbuf' h' with ⟨ho, -⟩ | ⟨ho, -⟩ | ⟨-, ys, hlen, hreads, -⟩
    · cases ho
    · cases ho
    · rw [harch, hthr] at hreads
      have hlt : j / 8 < ys.length := by omega
      exact classes_ne_of_bitReadAs (bitReadAs_of_readsAs hreads (List.getElem?_eq_getElem hlt)) hsame
  · cases ho

/-- An attempt on the same ring and threshold as one that succeeds is successful with the same frame, whatever the
step-local registers held before. -/
theorem decodeFrame_agree_of_success (hbuf : b.lat.buf.length = C.par.maxBytes)
    (hbuf' : b'.lat.buf.length = C.par.maxBytes) (harch : b'.arch = b.arch) (hthr : b'.lat.thr = b.lat.thr)
    (h : decodeFrame C b = (c, none)) :
    ∃ bytes c', decodeFrame C b' = (c', none) ∧ Complete C c bytes ∧ Complete C c' bytes := by
  rcases decodeFrame_ends hbuf h with ⟨-, bytes, hstops, hc⟩ | ⟨ho, -⟩ | ⟨ho, -⟩
  · rw [← harch, ← hthr] at hstops
    obtain ⟨c', h', hc'⟩ := decodeFrame_of_stops hbuf' hstops
    exact ⟨bytes, c', h', hc, hc'⟩
  · cases ho
  · cases ho

/-- Two attempts on one ring and threshold end alike. -/
theorem decodeFrame_agree {o o' : Option StepOutcome} (hbuf : b.lat.buf.length = C.par.maxBytes)
    (hbuf' : b'.lat.buf.length = C.par.maxBytes) (harch : b'.arch = b.arch) (hthr : b'.lat.thr = b.lat.thr)
    (h : decodeFrame C b = (c, o)) (h' : decodeFrame C b' = (c', o')) : o' = o := by
  cases o with
  | none =>
    obtain ⟨-, d, hd, -⟩ := decodeFrame_agree_of_success hbuf hbuf' harch hthr h
    exact congrArg Prod.snd (h'.symm.trans hd)
  | some o =>
    cases o' with
    | none =>
      obtain ⟨-, d, hd, -⟩ := decodeFrame_agree_of_success hbuf' hbuf harch.symm hthr.symm h'
      exact congrArg Prod.snd (hd.symm.trans h)
    | some o' =>
      rcases Laws.decodeLoop_some _ _ _ _ h with rfl | rfl <;> rcases Laws.decodeLoop_some _ _ _ _ h' with rfl | rfl
      · rfl
      · exact (not_desync_and_overlen hbuf hbuf' harch hthr h h').elim
      · exact (not_desync_and_overlen hbuf' hbuf harch.symm hthr.symm h' h).elim
      · rfl

end Attempt

/-! #### The report of a complete frame -/

/-- The record of a successful attempt (44 R151, 45 R160 to R165). -/
def reportRecord (C : Cfg V) (now : BitVec 64) (c : Block V) : Record V where
  len := c.lat.len
  data := bufFrame c.lat
  time := now - BitVec.ofNat 64 C.par.latencyUs
  rssi := signalLevel C c.arch c.lat.nbits

/-- Slots 18 to 21 append the record, present it, and set SKIP to the frame's span; they write nothing else that
persists. -/
theorem report_arch (C : Cfg V) (now : BitVec 64) (c : Block V) : (report C now c).arch =
    { c.arch with
      out := c.arch.out ++ [reportRecord C now c]
      outLen := c.lat.len
      outData := loadOutData c.arch.outData (bufFrame c.lat)
      outTime := (reportRecord C now c).time
      outRssi := (reportRecord C now c).rssi
      outValid := true
      skip := span C c.lat.nbits } := rfl

/-! #### A transmission at the anchor -/

/-- Levels standing at the anchor make the preamble match: every position of either table has its level. -/
theorem preambleMatches_of_stands {C : Cfg V} {a : Arch V} {thr : V} {bytes : List Byte}
    (h : standsAtAnchor C a thr (airLevels C.par bytes)) : preambleMatches C a thr = true := by
  have hair : ∀ {k : Nat} {level : Bool}, (preambleLevels C.par)[k]? = some level →
      (airLevels C.par bytes)[k]? = some level := by
    intro k level hk
    rw [airLevels, List.getElem?_append_left (List.getElem?_eq_some_iff.mp hk).1, hk]
  rw [preambleMatches_iff]
  refine ⟨fun k hk => ?_, fun k hk => ?_⟩
  · exact (h k true (hair ((mem_hiPos C.par k).mp hk).2)).1
  · exact (h k false (hair ((mem_loPos C.par k).mp hk).2)).2

/-- Settles O52: the preamble matches, the byte string is the one the decoder stops at, and the report is of it. -/
theorem transmissionIsDecoded : Obligations.TransmissionIsDecoded := by
  intro V C now b bytes hmem hne hfits hzero hfirst hstands
  obtain ⟨-, -, -, -, -, houtData, hbuf⟩ := hmem
  have hstops : Stops C (opThrDiv C b).arch (opThrDiv C b).lat.thr bytes :=
    ⟨List.length_pos_iff.mpr hne, hfits, fun k level _ hk => (hstands k level hk).1, hzero,
      fun k hpos hk => hfirst k hpos (by omega)⟩
  obtain ⟨c, hdec, hc⟩ := decodeFrame_of_stops (b := opThrDiv C b) hbuf hstops
  have harch : c.arch = b.arch := (decodeFrame_arch hdec).trans (Laws.opThrDiv_arch C b)
  have hdetect : detect C now b = (report C now c, .frame) := by
    have hcorr : opCorr C (opThrDiv C b) = (opThrDiv C b, none) := by
      rcases Laws.opCorr_cases C (opThrDiv C b) with ⟨-, e⟩ | ⟨hmiss, -⟩
      · exact e
      · exact absurd (preambleMatches_of_stands hstands) (Bool.eq_false_iff.mp hmiss)
    simp only [detect, hcorr, attempt, hdec]
  refine ⟨_, reportRecord C now c, hdetect, ?_, hc.frame, hc.len, ?_⟩
  · rw [report_arch, harch]
  · rw [report_arch, harch, hc.frame, hc.nbits, loadOutData_eq (houtData ▸ hfits), span]
    exact ⟨rfl, rfl, List.take_left, rfl⟩

/-! #### The outcomes of a step -/

section Outcomes

variable [DecidableEq V] {C : Cfg V} {now : BitVec 64} {b b' : Block V} {o : StepOutcome}

theorem ringStep_skipped_iff (h : ringStep C now b = (b', o)) : o = .skipped ↔ b.arch.skip ≠ 0 := by
  rcases ringStep_ends h with ⟨rfl, hs, -⟩ | ⟨ho, hs, -⟩ | ⟨rfl, hs, -⟩
  · simp [hs]
  · rcases ho with rfl | rfl | rfl <;> simp [hs]
  · simp [hs]

/-- 43 R132, 60 R191: NO_MATCH is the failure of the preamble test with SUM / W. -/
theorem ringStep_noMatch_iff (h : ringStep C now b = (b', o)) :
    o = .noMatch ↔ b.arch.skip = 0 ∧ preambleMatches C (ringUpdate C b).arch (Laws.stepThr C b) = false := by
  rcases Laws.ringStep_cases C now b with
    ⟨hs, e⟩ | ⟨hs, hp, e⟩ | ⟨hs, hp, c, r, hdec, e⟩ | ⟨hs, hp, c, hdec, e⟩ <;>
    obtain ⟨rfl, rfl⟩ := Prod.mk.inj (e.symm.trans h)
  · simp [hs]
  · simp [hs, hp]
  · rcases Laws.decodeLoop_some _ _ _ _ hdec with rfl | rfl <;> simp [hp]
  · simp [hp]

/-- A step that ends in the attempt came to it by a match. -/
theorem ringStep_attempt (h : ringStep C now b = (b', o)) (ho : o = .desync ∨ o = .overlen) :
    preambleMatches C (ringUpdate C b).arch (Laws.stepThr C b) = true ∧
    decodeFrame C (opThrDiv C (ringUpdate C b)) = (b', some o) := by
  rcases Laws.ringStep_cases C now b with
    ⟨hs, e⟩ | ⟨hs, hp, e⟩ | ⟨hs, hp, c, r, hdec, e⟩ | ⟨hs, hp, c, hdec, e⟩ <;>
    obtain ⟨rfl, rfl⟩ := Prod.mk.inj (e.symm.trans h)
  · simp at ho
  · simp at ho
  · exact ⟨hp, hdec⟩
  · simp at ho

end Outcomes

/-- Settles O46: each outcome is one end of the step, and DESYNC and OVERLEN are the two failures of the attempt. -/
theorem abandonLeavesNothing : Obligations.AbandonLeavesNothing := by
  rintro V _ C now b b' o _ _ rfl rfl h
  refine ⟨fun ho => ?_, ringStep_skipped_iff h, ringStep_noMatch_iff h, ?_, ?_⟩
  · rcases ringStep_ends h with ⟨rfl, -⟩ | ⟨-, hs, harch⟩ | ⟨rfl, -⟩
    · simp at ho
    · exact ⟨hs, harch⟩
    · simp at ho
  · rintro rfl ⟨-, -, -, -, -, -, hbuf⟩
    obtain ⟨hmatch, hdec⟩ := ringStep_attempt h (.inl rfl)
    rcases decodeFrame_ends (b := opThrDiv C (ringUpdate C b)) hbuf hdec with ⟨ho, -⟩ | ⟨-, hdesync⟩ | ⟨ho, -⟩
    · cases ho
    · exact ⟨hmatch, hdesync⟩
    · cases ho
  · rintro rfl ⟨-, -, -, -, -, -, hbuf⟩
    obtain ⟨hmatch, hdec⟩ := ringStep_attempt h (.inr rfl)
    rcases decodeFrame_ends (b := opThrDiv C (ringUpdate C b)) hbuf hdec with ⟨ho, -⟩ | ⟨ho, -⟩ | ⟨-, hover⟩
    · cases ho
    · cases ho
    · exact ⟨hmatch, hover⟩

end Sys2Proof.Proofs

/-! ### What a FRAME step emits -/

namespace Sys2Proof.Proofs

open Sys2Proof.Machine

variable {V : Type}

/-- A datum below another is not above it (00_scope R12). -/
theorem f64Gt_of_f64Lt {x y : F64} (h : f64Lt x y = true) : f64Gt x y = false := by
  simp only [f64Lt, Bool.and_eq_true, decide_eq_true_eq] at h
  simp [f64Gt, h.2.le]

/-- Where the preamble matches and the bytes are read, the whole transmission is read. -/
theorem readsAs_of_match {a : Arch F64} {thr : F64} {bytes : List Byte} (hmatch : preambleMatches cfg a thr = true)
    (hreads : readsAs cfg a thr 20 (airLevels cfg.par bytes)) : readsAs cfg a thr 0 (airLevels cfg.par bytes) := by
  obtain ⟨hhi, hlo⟩ := (preambleMatches_iff cfg a thr).mp hmatch
  intro h level _ hlevel
  by_cases h20 : 20 ≤ h
  · exact hreads h level h20 hlevel
  · have hlt : h < 20 := Nat.lt_of_not_le h20
    rw [airLevels, List.getElem?_append_left (by rwa [Laws.preambleLevels_length])] at hlevel
    cases level
    · exact f64Gt_of_f64Lt (hlo h ((mem_loPos cfg.par h).mpr ⟨hlt, hlevel⟩))
    · exact hhi h ((mem_hiPos cfg.par h).mpr ⟨hlt, hlevel⟩)

/-- 44 R149 (b): with P0's polynomial and start value no frame of one byte stops the decoder. -/
theorem Stops.two_le {a : Arch F64} {thr : F64} {bytes : List Byte} (h : Stops cfg a thr bytes) :
    2 ≤ bytes.length := by
  by_contra hlt
  have hpos := h.nonempty
  obtain ⟨x, rfl⟩ := List.length_eq_one_iff.mp (show bytes.length = 1 by omega)
  exact crcBytes_single_ne_zero x h.zero

/-- A FRAME step matched, stopped at a byte string and reported the frame that holds it. -/
theorem ringStep_frame [DecidableEq V] {C : Cfg V} {now : BitVec 64} {b b' : Block V}
    (hbuf : b.lat.buf.length = C.par.maxBytes) (h : ringStep C now b = (b', .frame)) :
    b.arch.skip = 0 ∧ preambleMatches C (ringUpdate C b).arch (Laws.stepThr C b) = true ∧
    ∃ c bytes, Stops C (ringUpdate C b).arch (Laws.stepThr C b) bytes ∧ Complete C c bytes ∧
      c.arch = (ringUpdate C b).arch ∧ b' = report C now c := by
  rcases Laws.ringStep_cases C now b with
    ⟨-, e⟩ | ⟨-, -, e⟩ | ⟨-, -, c, r, hdec, e⟩ | ⟨hs, hmatch, c, hdec, e⟩ <;>
    obtain ⟨rfl, ho⟩ := Prod.mk.inj (e.symm.trans h)
  · cases ho
  · cases ho
  · rcases Laws.decodeLoop_some _ _ _ _ hdec with rfl | rfl <;> cases ho
  · rcases decodeFrame_ends (b := opThrDiv C (ringUpdate C b)) hbuf hdec with ⟨-, bytes, hstops, hc⟩ | ⟨hn, -⟩ |
      ⟨hn, -⟩
    · exact ⟨hs, hmatch, c, bytes, hstops, hc, (decodeFrame_arch hdec).trans (Laws.opThrDiv_arch C _), rfl⟩
    · cases hn
    · cases hn

/-- 43 R130 in profile P0: the threshold of a step. -/
theorem stepThr_cfg (b : Block F64) :
    Laws.stepThr cfg b = f64Div (ringUpdate cfg b).arch.sum (f64OfInt 1088) := by
  rw [Laws.stepThr, cfg_div, cfg_ofInt_w]

/-- Settles O47: the attempt stopped at a byte string, and the report is of it. -/
theorem frameEmitsOneRecord : Obligations.FrameEmitsOneRecord := by
  rintro now b b' a _ rfl rfl ⟨-, -, -, -, -, houtData, hbuf⟩ h
  obtain ⟨hs, hmatch, c, bytes, hstops, hc, harch, rfl⟩ := ringStep_frame hbuf h
  rw [stepThr_cfg] at hmatch hstops
  have hfits : bytes.length ≤ (ringUpdate cfg b).arch.outData.length := hstops.fits.trans_eq houtData.symm
  refine ⟨hs, hmatch, reportRecord cfg now c, bytes ++ b.arch.outData.drop bytes.length, ⟨?_, ?_, ?_, ?_⟩, ?_, ?_, rfl,
    ?_, ?_, ?_⟩
  all_goals simp only [reportRecord, hc.frame, hc.len, hc.nbits, harch]
  · exact hstops.two_le
  · exact hstops.fits
  · exact hstops.zero
  · exact readsAs_of_match hmatch hstops.reads
  · exact hstops.first
  · rw [report_arch, harch, hc.frame, hc.nbits, span_cfg, loadOutData_eq hfits, reportRecord, hc.frame, hc.nbits, harch]
    rfl

end Sys2Proof.Proofs

/-! ### What every transition keeps -/

namespace Sys2Proof.Proofs

open Sys2Proof.Machine

variable {V : Type}

/-! #### One transition -/

/-- A transition that answers a state held it, ran the test-bench entry, or ran the operation of the word presented. -/
theorem step_cases {s t : State} (h : step s = .next t) :
    (s.input = [] ∧ t = s) ∨
    ∃ x rest, s.input = x :: rest ∧
      ((∃ d g, x.item = .push d g ∧ benchPush d g { s with input := rest, now := x.now } = .next t) ∨
       ∃ c i, x.item = .code c ∧ decode c = .ok i ∧ exec i { s with input := rest, now := x.now } = .next t) := by
  cases hinput : s.input with
  | nil =>
    rw [step, takeNext, hinput] at h
    exact .inl ⟨rfl, (Host.Outcome.next.inj h).symm⟩
  | cons x rest =>
    rw [step, takeNext, hinput] at h
    change perform x.item { s with input := rest, now := x.now } = .next t at h
    refine .inr ⟨x, rest, rfl, ?_⟩
    cases hitem : x.item with
    | push d g =>
      rw [hitem, perform] at h
      exact .inl ⟨d, g, rfl, h⟩
    | code c =>
      rw [hitem, perform] at h
      rcases decode_cases c with ⟨-, i, hdec, -⟩ | ⟨-, slot, -, herr⟩
      · rw [hdec] at h
        exact .inr ⟨c, i, rfl, hdec, h⟩
      · rw [herr] at h
        cases h

/-! #### The memories in form -/

section MemOk

variable {C : Cfg V} {b b' : Block V}

/-- The form of the memories is a matter of the persistent state and the length of the byte buffer. -/
theorem memOk_congr (harch : b'.arch = b.arch) (hbuf : b'.lat.buf.length = b.lat.buf.length) (h : b.memOk C) :
    b'.memOk C := by
  rw [Block.memOk, harch, hbuf]
  exact h

theorem opRingPush_keeps_memOk [DecidableEq V] (h : b.memOk C) : (opRingPush C b).memOk C := by
  obtain ⟨hd, hm, wd, wm, hwr, houtData, hbuf⟩ := h
  obtain ⟨hd', hm', wd', wm', hwr'⟩ := Laws.opRingPush_memOk C b hwr hd hm wd wm
  exact ⟨hd', hm', wd', wm', hwr', houtData, hbuf⟩

theorem opEmit_keeps_memOk (h : b.memOk C) : (opEmit b).memOk C := by
  obtain ⟨hd, hm, wd, wm, hwr, houtData, hbuf⟩ := h
  exact ⟨hd, hm, wd, wm, hwr, (Laws.loadOutData_length _ _).trans houtData, hbuf⟩

theorem opSkipTick_keeps_memOk (h : b.memOk C) : (opSkipTick b).1.memOk C := by
  rcases Laws.opSkipTick_cases b with ⟨-, e⟩ | ⟨-, e⟩ <;> rw [e] <;> exact h

theorem decodeSymbol_keeps_memOk (h : b.memOk C) : (decodeSymbol C b).1.memOk C := by
  rcases Laws.decodeSymbol_cases C b with ⟨-, e⟩ | ⟨-, e⟩ <;> rw [e] <;> exact h

variable [DecidableEq V]

theorem ringStep_keeps_memOk (now : BitVec 64) (h : b.memOk C) : (ringStep C now b).1.memOk C :=
  (Laws.ringStep_memOk now h rfl).1

theorem portByte_keeps_memOk (now : BitVec 64) (din : Byte) (h : b.memOk C) : (portByte C now din b).1.memOk C := by
  cases hrun : b.arch.run
  · rw [portByte_of_halted hrun]
    exact h
  · cases hphase : b.arch.phase
    · rw [portByte_of_iByte hrun hphase]
      exact h
    · rw [portByte_of_qByte hrun hphase rfl]
      exact ringStep_keeps_memOk now (frontEnd_memOk (b := { clearValid b with arch.phase := false, lat.qin := din }) h)

end MemOk

/-- Every operation of the table keeps the memories in form. -/
theorem exec_keeps_memOk {i : Instr} {s t : State} (hmem : s.blk.memOk cfg) (h : exec i s = .next t) :
    t.blk.memOk cfg := by
  cases i <;> obtain rfl := Host.Outcome.next.inj h
  case reset => exact reset_memOk cfg
  case byte din => exact portByte_keeps_memOk s.now din hmem
  case sample i q => exact portByte_keeps_memOk s.now q (portByte_keeps_memOk s.now i hmem)
  case symHL | symLH | symLL | symHH | manBit => exact decodeSymbol_keeps_memOk hmem
  case ringPush => exact opRingPush_keeps_memOk hmem
  case skipTick => exact opSkipTick_keeps_memOk hmem
  case byteAcc => exact memOk_congr (Laws.opByteAcc_arch _) (Laws.opByteAcc_buf_length _) hmem
  case emit => exact opEmit_keeps_memOk hmem
  all_goals exact hmem

/-- Settles O55: a transition holds the state, runs the back half of a step, or runs an operation. -/
theorem everyStepKeepsMemories : Obligations.EveryStepKeepsMemories := by
  intro s t hmem h
  rcases step_cases h with ⟨-, rfl⟩ | ⟨x, rest, -, ⟨d, g, -, hpush⟩ | ⟨c, i, -, -, hexec⟩⟩
  · exact hmem
  · obtain rfl := Host.Outcome.next.inj hpush
    exact ringStep_keeps_memOk (b := { s.blk with lat.d := d, lat.mag := g }) x.now hmem
  · exact exec_keeps_memOk (s := { s with input := rest, now := x.now }) hmem hexec

/-! #### Soundness -/

/-- Settles O53: SKIP starts at SKIP_INIT, OUT_LEN at 0 and OUT without a record. -/
theorem resetIsSound : Obligations.ResetIsSound :=
  ⟨reset_memOk cfg, cfg.n_pos, Nat.le_max_left _ _, .inl rfl, nofun⟩

/-- 10_state R36: a step keeps the ranges and emits none but sound records. -/
theorem ringStep_keeps_sound {now : BitVec 64} {b b' : Block F64} {o : StepOutcome} (h : b.sound cfg)
    (hstep : ringStep cfg now b = (b', o)) : b'.sound cfg := by
  obtain ⟨hmem, -, hskip, houtLen, hout⟩ := h
  have hmem' := (Laws.ringStep_memOk now hmem hstep).1
  refine ⟨hmem', wr_lt_of_memOk hmem', ?_⟩
  rcases ringStep_ends hstep with ⟨-, -, e⟩ | ⟨-, -, e⟩ | ⟨rfl, -⟩
  · rw [e]
    exact ⟨(Nat.sub_le _ _).trans hskip, houtLen, hout⟩
  · rw [e]
    exact ⟨hskip, houtLen, hout⟩
  · obtain ⟨-, -, r, data, hsound, -, -, -, -, -, e⟩ := frameEmitsOneRecord now b b' _ _ rfl rfl hmem hstep
    obtain ⟨hmin, hmax, hlen, hzero⟩ := hsound
    rw [e]
    refine ⟨?_, .inr ⟨hmin, hmax⟩, ?_⟩
    · rw [cfg_maxBytes] at hmax
      rw [cfg_skipInit, span_cfg, cfg_maxBytes]
      exact (Nat.mul_le_mul_right 32 (by omega)).trans (Nat.le_max_right _ _)
    · exact List.forall_mem_append.mpr ⟨hout, List.forall_mem_singleton.mpr ⟨hmin, hmax, hlen, hzero⟩⟩

theorem portByte_keeps_sound (now : BitVec 64) (din : Byte) {b : Block F64} (h : b.sound cfg) :
    (portByte cfg now din b).1.sound cfg := by
  cases hrun : b.arch.run
  · rw [portByte_of_halted hrun]
    exact h
  · cases hphase : b.arch.phase
    · rw [portByte_of_iByte hrun hphase]
      exact h
    · rw [portByte_of_qByte hrun hphase rfl]
      exact ringStep_keeps_sound (b := frontEnd cfg { clearValid b with arch.phase := false, lat.qin := din }) h rfl

/-- Every port command keeps soundness. -/
theorem exec_port_keeps_sound {i : Instr} {s t : State} (hi : i.format = .port) (hsound : s.blk.sound cfg)
    (h : exec i s = .next t) : t.blk.sound cfg := by
  cases i <;> simp only [Instr.format, reduceCtorEq] at hi <;> obtain rfl := Host.Outcome.next.inj h
  case nop => exact hsound
  case byte din => exact portByte_keeps_sound s.now din hsound
  case eos => exact hsound
  case reset => exact resetIsSound

theorem decodePort_format (cw : BitVec 10) : (decodePort cw).format = .port := by
  rw [← (encode_fits (decodePort cw)).1, encode_decodePort]
  rfl

/-- Settles O54: a word presented is a command word, and its operation leaves the transactions behind it. -/
theorem portStepsKeepSoundness : Obligations.PortStepsKeepSoundness := by
  intro s t hsound hport h
  rcases step_cases h with ⟨-, rfl⟩ | ⟨x, rest, hinput, hcase⟩
  · exact ⟨hsound, hport⟩
  · rw [State.portOnly, hinput, List.all_cons, Bool.and_eq_true] at hport
    obtain ⟨hx, hrest⟩ := hport
    rcases hcase with ⟨d, g, hitem, -⟩ | ⟨c, i, hitem, hdec, hexec⟩
    · rw [hitem] at hx
      cases hx
    · rw [hitem] at hx
      obtain ⟨b, l, hput⟩ := exec_eq_put i { s with input := rest, now := x.now }
      have htinput : t.input = rest := by rw [← Host.Outcome.next.inj (hput.symm.trans hexec), Laws.put_input]
      cases c with
      | port cw =>
        obtain rfl := Except.ok.inj hdec
        refine ⟨exec_port_keeps_sound (s := { s with input := rest, now := x.now }) (decodePort_format cw) hsound hexec,
          ?_⟩
        rw [State.portOnly, htinput]
        exact hrest
      | pair | sym | stage => cases hx

end Sys2Proof.Proofs

/-! ### Step-local registers -/

namespace Sys2Proof.Proofs

open Sys2Proof.Machine

variable {V : Type}

/-- Two results with the same persistent state and the same outcome or label, the step-local registers aside. -/
def Alike {β : Type} (r r' : Block V × β) : Prop := r.1.arch = r'.1.arch ∧ r.2 = r'.2

/-! #### The back half of a step -/

section RingStep

variable {C : Cfg V} {b b' : Block V}

/-- The report is of the frame held, not of what else the registers hold. -/
theorem report_arch_congr (now : BitVec 64) {bytes : List Byte} (harch : b.arch = b'.arch) (h : Complete C b bytes)
    (h' : Complete C b' bytes) : (report C now b).arch = (report C now b').arch := by
  have hlen : b.lat.len = b'.lat.len := BitVec.eq_of_toNat_eq (h.len.trans h'.len.symm)
  simp only [report_arch, reportRecord, harch, hlen, h.frame, h'.frame, h.nbits, h'.nbits]

/-- DEC.INIT starts the candidate frame afresh, so an attempt follows from the ring and the threshold. -/
theorem attempt_alike (now : BitVec 64) (hbuf : b.lat.buf.length = C.par.maxBytes)
    (hbuf' : b'.lat.buf.length = C.par.maxBytes) (harch : b.arch = b'.arch) (hthr : b.lat.thr = b'.lat.thr) :
    Alike (attempt C now b) (attempt C now b') := by
  rcases h : decodeFrame C b with ⟨c, o⟩
  rcases h' : decodeFrame C b' with ⟨c', o'⟩
  obtain rfl := decodeFrame_agree hbuf hbuf' harch.symm hthr.symm h h'
  have harchc : c.arch = c'.arch := (decodeFrame_arch h).trans (harch.trans (decodeFrame_arch h').symm)
  rw [attempt, attempt, h, h']
  cases o' with
  | none =>
    obtain ⟨bytes, d, hd, hc, hc'⟩ := decodeFrame_agree_of_success hbuf hbuf' harch.symm hthr.symm h
    obtain rfl : c' = d := congrArg Prod.fst (h'.symm.trans hd)
    exact ⟨report_arch_congr now harchc hc hc', rfl⟩
  | some o => exact ⟨harchc, rfl⟩

/-- THR.DIV writes the threshold before CORR and the attempt read it. -/
theorem detect_alike (now : BitVec 64) (hbuf : b.lat.buf.length = C.par.maxBytes)
    (hbuf' : b'.lat.buf.length = C.par.maxBytes) (harch : b.arch = b'.arch) :
    Alike (detect C now b) (detect C now b') := by
  have hthr : (opThrDiv C b).lat.thr = (opThrDiv C b').lat.thr := by simp only [opThrDiv, harch]
  have hverdict : preambleMatches C (opThrDiv C b).arch (opThrDiv C b).lat.thr =
      preambleMatches C (opThrDiv C b').arch (opThrDiv C b').lat.thr := by
    rw [hthr, Laws.opThrDiv_arch, Laws.opThrDiv_arch, harch]
  rcases Laws.opCorr_cases C (opThrDiv C b) with ⟨h, e⟩ | ⟨h, e⟩ <;>
    rcases Laws.opCorr_cases C (opThrDiv C b') with ⟨h', e'⟩ | ⟨h', e'⟩
  · simp only [detect, e, e']
    exact attempt_alike now hbuf hbuf' harch hthr
  · exact absurd (h.symm.trans (hverdict.trans h')) (by decide)
  · exact absurd (h.symm.trans (hverdict.trans h')) (by decide)
  · simp only [detect, e, e']
    exact ⟨harch, rfl⟩

variable [DecidableEq V]

/-- Slots 8 and 9 read `d` and `mag` alone of the step-local registers. -/
theorem ringUpdate_arch_congr (harch : b.arch = b'.arch) (hd : b.lat.d = b'.lat.d) (hmag : b.lat.mag = b'.lat.mag) :
    (ringUpdate C b).arch = (ringUpdate C b').arch := by
  simp only [ringUpdate, opThrUpd, opRingPush, harch, hd, hmag]

theorem ringStep_alike (now : BitVec 64) (hbuf : b.lat.buf.length = C.par.maxBytes)
    (hbuf' : b'.lat.buf.length = C.par.maxBytes) (harch : b.arch = b'.arch) (hd : b.lat.d = b'.lat.d)
    (hmag : b.lat.mag = b'.lat.mag) : Alike (ringStep C now b) (ringStep C now b') := by
  have hupdate : (ringUpdate C b).arch = (ringUpdate C b').arch := ringUpdate_arch_congr harch hd hmag
  by_cases hskip : b.arch.skip = 0
  · rw [ringStep_of_skip_zero C now b hskip, ringStep_of_skip_zero C now b' (harch ▸ hskip)]
    exact detect_alike now hbuf hbuf' hupdate
  · rw [ringStep_of_skip_pos C now b hskip, ringStep_of_skip_pos C now b' (harch ▸ hskip)]
    exact ⟨by simp only [hupdate, harch], rfl⟩

end RingStep

/-! #### The port -/

/-- The front end writes each step-local register before it reads it, but for the Q byte handed to it. -/
theorem frontEnd_congr {C : Cfg V} {b b' : Block V} (harch : b.arch = b'.arch) (hqin : b.lat.qin = b'.lat.qin) :
    (frontEnd C b).arch = (frontEnd C b').arch ∧ (frontEnd C b).lat.d = (frontEnd C b').lat.d ∧
    (frontEnd C b).lat.mag = (frontEnd C b').lat.mag := by
  simp only [frontEnd, opPrev, opLpfD, opDisc, opMag, opLpfQ, opLpfI, opCenter, harch, hqin, and_self]

theorem portByte_alike [DecidableEq V] {C : Cfg V} (now : BitVec 64) (din : Byte) {b b' : Block V}
    (hbuf : b.lat.buf.length = C.par.maxBytes) (hbuf' : b'.lat.buf.length = C.par.maxBytes)
    (harch : b.arch = b'.arch) : Alike (portByte C now din b) (portByte C now din b') := by
  cases hrun : b.arch.run
  · rw [portByte_of_halted hrun, portByte_of_halted (harch ▸ hrun)]
    exact ⟨by simp only [clearValid, harch], rfl⟩
  · cases hphase : b.arch.phase
    · rw [portByte_of_iByte hrun hphase, portByte_of_iByte (harch ▸ hrun) (harch ▸ hphase)]
      exact ⟨by simp only [clearValid, harch], rfl⟩
    · rw [portByte_of_qByte hrun hphase rfl, portByte_of_qByte (harch ▸ hrun) (harch ▸ hphase) rfl]
      obtain ⟨hfront, hd, hmag⟩ := frontEnd_congr (C := C)
        (b := { clearValid b with arch.phase := false, lat.qin := din })
        (b' := { clearValid b' with arch.phase := false, lat.qin := din }) (by simp only [clearValid, harch]) rfl
      obtain ⟨hstep, ho⟩ := ringStep_alike now (b := frontEnd C { clearValid b with arch.phase := false, lat.qin := din })
        (b' := frontEnd C { clearValid b' with arch.phase := false, lat.qin := din }) hbuf hbuf' hfront hd hmag
      exact ⟨hstep, congrArg Label.outcome ho⟩

theorem buf_length_of_memOk {C : Cfg V} {b : Block V} (h : b.memOk C) : b.lat.buf.length = C.par.maxBytes := by
  obtain ⟨-, -, -, -, -, -, hbuf⟩ := h
  exact hbuf

/-- Settles O56: BYTE goes on alike, SAMPLE is two BYTEs, and the other commands read no step-local register. -/
theorem stepLocalsNeverLeak : Obligations.StepLocalsNeverLeak := by
  intro i s s' t t' hformat harch hnow hmem hmem' h h'
  have hbuf := buf_length_of_memOk hmem
  have hbuf' := buf_length_of_memOk hmem'
  cases i <;> simp only [Instr.format, reduceCtorEq, or_self] at hformat <;>
    obtain rfl := Host.Outcome.next.inj h <;> obtain rfl := Host.Outcome.next.inj h'
  case nop => exact ⟨by simp only [portNop, Laws.put_blk, clearValid, harch], rfl⟩
  case eos => exact ⟨by simp only [portEos, Laws.put_blk, clearValid, harch], rfl⟩
  case reset => exact ⟨rfl, rfl⟩
  case byte din =>
    rw [← hnow]
    exact portByte_alike s.now din hbuf hbuf' harch
  case sample i q =>
    rw [← hnow]
    exact portByte_alike s.now q (buf_length_of_memOk (portByte_keeps_memOk s.now i hmem))
      (buf_length_of_memOk (portByte_keeps_memOk s.now i hmem')) (portByte_alike s.now i hbuf hbuf' harch).1

end Sys2Proof.Proofs

/-! ### The reference number system: integers and comparisons -/

namespace Sys2Proof.Proofs

open Sys2Proof.Machine

/-! #### Rounding an integer quotient -/

/-- The quotient `roundShift` answers is the one below, or the next one from half a unit on. -/
theorem roundShift_cases (m k : Nat) : ∃ q r, m = q * 2 ^ k + r ∧ r < 2 ^ k ∧
    ((roundShift m k = q + 1 ∧ (2 ^ k < 2 * r ∨ (2 * r = 2 ^ k ∧ q % 2 = 1))) ∨
     (roundShift m k = q ∧ ¬ (2 ^ k < 2 * r ∨ (2 * r = 2 ^ k ∧ q % 2 = 1)))) := by
  refine ⟨m / 2 ^ k, m % 2 ^ k, (Nat.div_add_mod' m _).symm, Nat.mod_lt _ (Nat.two_pow_pos k), ?_⟩
  by_cases h : 2 ^ k < 2 * (m % 2 ^ k) ∨ (2 * (m % 2 ^ k) = 2 ^ k ∧ m / 2 ^ k % 2 = 1)
  · exact .inl ⟨if_pos h, h⟩
  · exact .inr ⟨if_neg h, h⟩

/-- Settles O59: the part past the quotient below is under, at or over half a unit. -/
theorem roundingIsNearestEven : Obligations.RoundingIsNearestEven := by
  intro m k
  obtain ⟨q, r, hm, hr, hcase⟩ := roundShift_cases m k
  generalize 2 ^ k = p at *
  rcases hcase with ⟨e, hup⟩ | ⟨e, hdown⟩
  · have h1 : (2 * (q + 1) + 1) * p = 2 * (q * p) + 3 * p := by ring
    have h2 : 2 * (q + 1) * p = 2 * (q * p) + 2 * p := by ring
    rw [e, h1, h2]
    omega
  · have h1 : (2 * q + 1) * p = 2 * (q * p) + p := by ring
    have h2 : 2 * q * p = 2 * (q * p) := by ring
    rw [e, h1, h2]
    omega

/-! #### Integers -/

/-- A positive integer below 2^53 is rounded without loss: its 53 bits are filled up with zeros. -/
theorem f64Round_of_lt (neg : Bool) {n k : Nat} (hpos : n ≠ 0) (hk : Nat.log2 n + k = 52) :
    f64Round neg n 0 = f64Pack neg ((Nat.log2 n + 1022) * 2 ^ 52 + n * 2 ^ k) := by
  obtain ⟨-, hhigh⟩ := normalised_bounds hpos hk
  have hscale : max ((0 : Int) + Nat.log2 n - 52) (-1074) = -k := by omega
  have hbody : ((-(k : Int)) + 1074).toNat = Nat.log2 n + 1022 := by omega
  have hshift : ((0 : Int) - -k).toNat = k := by omega
  have hle : -(k : Int) ≤ 0 := by omega
  rw [f64Round, if_neg hpos]
  simp only [hscale, hshift, hbody, if_pos hle]
  rw [if_neg (by omega)]

theorem f64Round_exact (neg : Bool) {n : Nat} (hlt : n < 2 ^ 53) : f64Finite (f64Round neg n 0) = true ∧
    f64Value (f64Round neg n 0) = (if neg then -1 else 1) * (n : ℚ) := by
  by_cases hpos : n = 0
  · subst hpos
    cases neg <;> decide +kernel
  · have hlog : Nat.log2 n < 53 := (Nat.log2_lt hpos).mpr hlt
    obtain ⟨k, hk⟩ : ∃ k, Nat.log2 n + k = 52 := ⟨52 - Nat.log2 n, by omega⟩
    obtain ⟨hlow, hhigh⟩ := normalised_bounds hpos hk
    obtain ⟨hfin, hval⟩ := Laws.f64Pack_value neg (Nat.log2 n + 1022) (n * 2 ^ k) hhigh.le (.inr hlow) (by omega)
    have hexp : ((Nat.log2 n + 1022 : ℕ) : ℤ) - 1074 = -k := by omega
    rw [f64Round_of_lt neg hpos hk, hval, hexp]
    refine ⟨hfin, ?_⟩
    rw [Nat.cast_mul, Nat.cast_pow, Nat.cast_ofNat, zpow_neg, zpow_natCast, mul_assoc, mul_inv_cancel₀ (by positivity),
      mul_one]

/-- Settles O57: the magnitude is rounded without loss, under the integer's sign. -/
theorem ofIntIsExact : Obligations.OfIntIsExact := by
  intro z hz
  obtain ⟨hfin, hval⟩ := f64Round_exact (decide (z < 0)) hz
  refine ⟨hfin, hval.trans ?_⟩
  rw [Nat.cast_natAbs]
  by_cases hneg : z < 0
  · simp [hneg, abs_of_neg hneg]
  · simp [hneg, abs_of_nonneg (Int.not_lt.mp hneg)]

/-! #### Comparisons -/

/-- The magnitude of a datum in units of 2^-1074, from its 63 lower bits. -/
def magUnits (body : Nat) : Nat :=
  if body / 2 ^ 52 = 0 then body else (body % 2 ^ 52 + 2 ^ 52) * 2 ^ (body / 2 ^ 52 - 1)

theorem magUnits_strictMono : StrictMono magUnits := by
  refine strictMono_nat_of_lt_succ fun n => ?_
  unfold magUnits
  by_cases hwrap : (n + 1) % 2 ^ 52 = 0
  · -- the exponent field goes up by one, and the significand back to 2^52
    have hdiv : (n + 1) / 2 ^ 52 = n / 2 ^ 52 + 1 := by omega
    rw [if_neg (by omega : ¬ (n + 1) / 2 ^ 52 = 0), hwrap, hdiv, Nat.add_sub_cancel, Nat.zero_add]
    rcases hexp : n / 2 ^ 52 with _ | e
    · rw [if_pos rfl, pow_zero]
      omega
    · have hsig : n % 2 ^ 52 + 2 ^ 52 < 2 ^ 52 * 2 := by omega
      rw [if_neg (Nat.succ_ne_zero e), Nat.add_sub_cancel, Nat.pow_succ' (n := e), ← Nat.mul_assoc]
      exact Nat.mul_lt_mul_of_pos_right hsig (Nat.two_pow_pos e)
  · -- the exponent field stays
    have hdiv : (n + 1) / 2 ^ 52 = n / 2 ^ 52 := by omega
    rw [hdiv]
    split
    · omega
    · exact Nat.mul_lt_mul_of_pos_right (by omega) (Nat.two_pow_pos _)

/-- A datum's value in units of 2^-1074, from its key. -/
def keyUnits : ℤ → ℤ
  | .ofNat n => magUnits n
  | .negSucc n => -magUnits (n + 1)

theorem keyUnits_natCast (n : ℕ) : keyUnits n = magUnits n := rfl

theorem keyUnits_neg (n : ℕ) : keyUnits (-n) = -magUnits n := by
  cases n with
  | zero => decide
  | succ n => rfl

theorem keyUnits_strictMono : StrictMono keyUnits := by
  refine strictMono_int_of_lt_succ fun key => ?_
  rcases key with n | n | n
  · exact Int.ofNat_lt.mpr (magUnits_strictMono (Nat.lt_succ_self n))
  · decide
  · exact Int.neg_lt_neg (Int.ofNat_lt.mpr (magUnits_strictMono (Nat.lt_succ_self (n + 1))))

/-- A datum's significand at its scale is its magnitude in units. -/
theorem mant_mul_scale (x : F64) :
    (f64Mant x : ℚ) * 2 ^ f64Scale x = magUnits (x.toNat % 2 ^ 63) * (2 : ℚ) ^ (-1074 : ℤ) := by
  have hexp : f64Exp x = x.toNat % 2 ^ 63 / 2 ^ 52 := by rw [f64Exp]; omega
  have hfrac : f64Frac x = x.toNat % 2 ^ 63 % 2 ^ 52 := by rw [f64Frac]; omega
  rw [f64Mant, f64Scale, magUnits, hexp, hfrac]
  generalize x.toNat % 2 ^ 63 = body
  rcases hbody : body / 2 ^ 52 with _ | e
  · have hmod : body % 2 ^ 52 = body := by omega
    have hscale : ((max 0 1 : ℕ) : ℤ) - 1075 = -1074 := by norm_num
    rw [if_pos rfl, if_pos rfl, hmod, hscale]
  · have hscale : ((max (e + 1) 1 : ℕ) : ℤ) - 1075 = e + -1074 := by omega
    rw [if_neg (Nat.succ_ne_zero e), if_neg (Nat.succ_ne_zero e), hscale, zpow_add₀ (by norm_num), zpow_natCast,
      Nat.add_sub_cancel, Nat.cast_mul, Nat.cast_pow, Nat.cast_ofNat, mul_assoc]

/-- The key orders the data as their values do. -/
theorem f64Value_eq_keyUnits (x : F64) : f64Value x = keyUnits (f64Key x) * (2 : ℚ) ^ (-1074 : ℤ) := by
  rw [f64Value, mul_assoc, mant_mul_scale, f64Key]
  cases f64Sign x
  · rw [if_neg (by decide), if_neg (by decide), keyUnits_natCast, one_mul]
    rfl
  · rw [if_pos rfl, if_pos rfl, keyUnits_neg, Int.cast_neg, neg_one_mul, ← neg_mul]
    rfl

theorem f64Value_lt_iff (x y : F64) : f64Value x < f64Value y ↔ f64Key x < f64Key y := by
  rw [f64Value_eq_keyUnits, f64Value_eq_keyUnits, mul_lt_mul_iff_left₀ (by positivity), Int.cast_lt,
    keyUnits_strictMono.lt_iff_lt]

theorem f64IsNan_of_f64Finite {x : F64} (h : f64Finite x = true) : f64IsNan x = false :=
  f64IsNan_of_exp (of_decide_eq_true h)

/-- Settles O58: a NaN fails the guard of both comparisons, and on other data they compare the keys. -/
theorem comparisonsAreIeee : Obligations.ComparisonsAreIeee := by
  refine ⟨fun x y hnan => ?_, fun x y hx hy => ?_⟩
  · rcases hnan with h | h <;> simp [f64Gt, f64Lt, h]
  · rw [f64Value_lt_iff, f64Value_lt_iff]
    simp [f64Gt, f64Lt, f64IsNan_of_f64Finite hx, f64IsNan_of_f64Finite hy]

/-! #### A flat signal, or a NaN -/

/-- 43 R132 (a): one value cannot be above the threshold at a high position and below it at a low one. -/
theorem preambleMatches_flat {a : Arch F64} {thr v : F64} (hflat : ∀ h, h < 20 → readD cfg a (pos cfg h) = v) :
    preambleMatches cfg a thr = false := by
  refine Bool.eq_false_iff.mpr fun hmatch => ?_
  obtain ⟨hhi, hlo⟩ := (preambleMatches_iff cfg a thr).mp hmatch
  obtain ⟨-, hhiPos, hloPos⟩ := tablesPartitionThePreamble
  have habove := hhi 0 (by rw [hhiPos]; decide)
  have hbelow := hlo 1 (by rw [hloPos]; decide)
  rw [hflat 0 (by decide), cfg_gt] at habove
  rw [hflat 1 (by decide), cfg_lt] at hbelow
  exact absurd (habove.symm.trans (f64Gt_of_f64Lt hbelow)) (by decide)

/-- 43 R132 (b): a test with a NaN operand fails, and each of the twenty positions is tested. -/
theorem preambleMatches_nan {a : Arch F64} {thr : F64} {h : Nat} (hh : h < 20)
    (hnan : f64IsNan (readD cfg a (pos cfg h)) = true ∨ f64IsNan thr = true) : preambleMatches cfg a thr = false := by
  refine Bool.eq_false_iff.mpr fun hmatch => ?_
  obtain ⟨hhi, hlo⟩ := (preambleMatches_iff cfg a thr).mp hmatch
  obtain ⟨hgt, hlt⟩ := comparisonsAreIeee.1 _ _ hnan
  by_cases hmem : h ∈ hiPos cfg.par
  · exact absurd ((hhi h hmem).symm.trans hgt) (by decide)
  · have hmem' : h ∈ loPos cfg.par := by
      rw [mem_hiPos_iff_not_mem_loPos cfg_preSyms cfg.preamble_length hh] at hmem
      exact not_not.mp hmem
    exact absurd ((hlo h hmem').symm.trans hlt) (by decide)

/-- Settles O30: in each of the three cases the preamble does not match. -/
theorem flatOrNanNeverMatches : Obligations.FlatOrNanNeverMatches := by
  intro s hcase
  have hmiss : preambleMatches cfg s.blk.arch s.blk.lat.thr = false := by
    rcases hcase with ⟨v, hflat⟩ | hthr | ⟨h, hh, hval⟩
    · exact preambleMatches_flat hflat
    · exact preambleMatches_nan (h := 0) (by decide) (.inr hthr)
    · exact preambleMatches_nan hh (.inl hval)
  rw [exec_corr]
  rcases Laws.opCorr_cases cfg s.blk with ⟨hmatch, -⟩ | ⟨-, e⟩
  · exact absurd (hmatch.symm.trans hmiss) (by decide)
  · rw [e]
    rfl

end Sys2Proof.Proofs

/-! ### Silence -/

namespace Sys2Proof.Proofs

open Sys2Proof.Machine

/-! #### Zero through the reference NUM -/

/-- A filter at rest stays at rest: its output on zero is zero, whichever of P0's coefficients it has. -/
theorem lpfOut_zero :
    lpfOut cfg.num cfg.par.iqB cfg.par.iqA (FilterFile.const cfg.zero) cfg.zero = cfg.zero ∧
    lpfOut cfg.num cfg.par.fmB cfg.par.fmA (FilterFile.const cfg.zero) cfg.zero = cfg.zero := by decide +kernel

theorem lpfNext_zero :
    lpfNext cfg.num cfg.par.iqB cfg.par.iqA (FilterFile.const cfg.zero) cfg.zero = FilterFile.const cfg.zero ∧
    lpfNext cfg.num cfg.par.fmB cfg.par.fmA (FilterFile.const cfg.zero) cfg.zero = FilterFile.const cfg.zero := by
  rw [lpfNext, lpfNext, lpfOut_zero.1, lpfOut_zero.2]
  exact ⟨rfl, rfl⟩

/-- The discriminator of a still signal: no magnitude, no deviation, and nothing for the post-filter. -/
theorem discriminator_zero : magnitude cfg.num cfg.zero cfg.zero = cfg.zero ∧
    deviation cfg cfg.zero cfg.zero cfg.zero cfg.zero cfg.zero = cfg.zero ∧
    cfg.num.mul cfg.par.discGain cfg.zero = cfg.zero := by decide +kernel

/-- A zero leaving the window and one entering it leave a zero sum. -/
theorem sum_zero : cfg.num.add (cfg.num.sub cfg.zero cfg.zero) cfg.zero = cfg.zero := by decide +kernel

theorem centred_bias : cfg.num.ofInt (centred cfg (BitVec.ofNat 8 cfg.par.bias)) = cfg.zero := by
  rw [cfg_bias, centred_cfg]
  rfl

/-! #### A silent step -/

/-- The persistent state after `k` pairs of silence from reset: but for the cursor, SKIP and the held byte it is the
reset state. -/
def quietArch (k : Nat) (held : Byte) : Arch F64 :=
  { Arch.reset cfg with wr := k % 8192, skip := 8192 - k, ihold := held }

section Quiet

variable {b : Block F64} {k : Nat} {held : Byte}

/-- The front end on a silent pair hands on zeros and leaves the filters at rest. -/
theorem frontEnd_quiet (harch : b.arch = quietArch k (BitVec.ofNat 8 cfg.par.bias))
    (hqin : b.lat.qin = BitVec.ofNat 8 cfg.par.bias) : (frontEnd cfg b).arch = b.arch ∧
    (frontEnd cfg b).lat.d = cfg.zero ∧ (frontEnd cfg b).lat.mag = cfg.zero := by
  obtain ⟨hiq, hfm⟩ := lpfOut_zero
  obtain ⟨hiq', hfm'⟩ := lpfNext_zero
  obtain ⟨hmag, hdev, hgain⟩ := discriminator_zero
  simp only [frontEnd, opPrev, opLpfD, opDisc, opMag, opLpfQ, opLpfI, opCenter, harch, hqin, quietArch, Arch.reset,
    centred_bias, hiq, hfm, hiq', hfm', hmag, hdev, hgain, and_self]

/-- Slots 8 and 9 on zeros move the cursor and nothing else. -/
theorem ringUpdate_quiet (harch : b.arch = quietArch k held) (hd : b.lat.d = cfg.zero) (hmag : b.lat.mag = cfg.zero) :
    (ringUpdate cfg b).arch = { quietArch k held with wr := (k + 1) % 8192 } := by
  have hread : ∀ a : Arch F64, a.dring = [] → readD cfg a (cfg.par.w - 1) = cfg.zero := by
    intro a ha
    rw [readD, ha, Laws.read_nil]
  have hwrite : Memory.write cfg.zero [] (k % 8192) cfg.zero = [] := by rw [Laws.write_nil, if_pos rfl]
  have hwr : (k % 8192 + 1) % cfg.par.n = (k + 1) % 8192 := by rw [cfg_n, Nat.mod_add_mod]
  simp only [ringUpdate, opThrUpd, opRingPush, ringWrite, harch, hd, hmag, quietArch, Arch.reset, hwrite,
    Laws.read_nil, hwr, hread, sum_zero]

/-- With the ring at zero everywhere the preamble does not match, whatever the threshold. -/
theorem preambleMatches_quiet (a : Arch F64) (ha : a.dring = []) (thr : F64) : preambleMatches cfg a thr = false :=
  preambleMatches_flat (v := cfg.zero) fun _ _ => by rw [readD, ha, Laws.read_nil]

/-- So a silent step counts SKIP down, or ends as NO_MATCH when nothing is left to skip. -/
theorem ringStep_quiet (now : BitVec 64) (harch : b.arch = quietArch k held) (hd : b.lat.d = cfg.zero)
    (hmag : b.lat.mag = cfg.zero) : (ringStep cfg now b).1.arch = quietArch (k + 1) held := by
  have hupdate := ringUpdate_quiet harch hd hmag
  have hskip : b.arch.skip = 8192 - k := by rw [harch]; rfl
  rcases Laws.ringStep_cases cfg now b with ⟨-, e⟩ | ⟨h0, -, e⟩ | ⟨-, hmatch, -⟩ | ⟨-, hmatch, -⟩
  · rw [e]
    simp only [hupdate, hskip, quietArch, Nat.sub_sub]
  · rw [hskip] at h0
    have h0' : 8192 - (k + 1) = 8192 - k := by omega
    rw [e, Laws.opThrDiv_arch, hupdate, quietArch, quietArch, h0']
  all_goals
    rw [hupdate, preambleMatches_quiet _ rfl] at hmatch
    cases hmatch

end Quiet

/-- A silent pair is one more. -/
theorem exec_silent_pair {s : State} {k : Nat} {held : Byte} (harch : s.blk.arch = quietArch k held) :
    ∃ t, exec (.sample (BitVec.ofNat 8 cfg.par.bias) (BitVec.ofNat 8 cfg.par.bias)) s = .next t ∧
      t.blk.arch = quietArch (k + 1) (BitVec.ofNat 8 cfg.par.bias) := by
  have hpair : (pairBlock (BitVec.ofNat 8 cfg.par.bias) (BitVec.ofNat 8 cfg.par.bias) s.blk).arch =
      quietArch k (BitVec.ofNat 8 cfg.par.bias) := by
    simp only [pairBlock, clearValid, harch, quietArch, Arch.reset]
  obtain ⟨hfront, hd, hmag⟩ := frontEnd_quiet hpair rfl
  refine ⟨_, exec_sample_of_iByte (by rw [harch]; rfl) (by rw [harch]; rfl) rfl, ?_⟩
  exact ringStep_quiet s.now (hfront.trans hpair) hd hmag

theorem execAll_silence (n : Nat) {s : State} {k : Nat} {held : Byte} (harch : s.blk.arch = quietArch k held) :
    ∃ t held', execAll (silence cfg n) s = .next t ∧ t.blk.arch = quietArch (k + n) held' := by
  induction n generalizing s k held with
  | zero => exact ⟨s, held, rfl, harch⟩
  | succ n ih =>
    obtain ⟨u, hexec, hu⟩ := exec_silent_pair harch
    obtain ⟨t, held', hall, ht⟩ := ih hu
    refine ⟨t, held', ?_, ?_⟩
    · rw [silence, List.replicate_succ, execAll, hexec]
      exact hall
    · rw [ht, Nat.add_assoc, Nat.add_comm 1 n]

/-- Settles O51: the reset state is the quiet one after no pair, and each pair is one more. -/
theorem silenceNeverProducesOutput : Obligations.SilenceNeverProducesOutput := by
  intro n
  obtain ⟨t, held, hall, harch⟩ := execAll_silence n (s := State.reset) (k := 0) (held := 0) rfl
  rw [Nat.zero_add] at harch
  refine ⟨t, hall, ?_⟩
  rw [harch]
  exact ⟨rfl, rfl, rfl, cfg_zero, rfl, rfl, rfl, rfl, rfl⟩

end Sys2Proof.Proofs

/-! ### The reference number system: correct rounding -/

namespace Sys2Proof.Proofs

open Sys2Proof.Machine

/-! #### A datum's parts -/

/-- The factor a sign bit stands for. -/
def signFactor (neg : Bool) : ℝ := if neg then -1 else 1

theorem signFactor_not (neg : Bool) : signFactor (!neg) = -signFactor neg := by cases neg <;> simp [signFactor]

theorem signFactor_bne (s t : Bool) : signFactor (s != t) = signFactor s * signFactor t := by
  cases s <;> cases t <;> simp [signFactor]

theorem signFactor_mul_self (s : Bool) : signFactor s * signFactor s = 1 := by cases s <;> simp [signFactor]

theorem signFactor_ne_zero (s : Bool) : signFactor s ≠ 0 := by cases s <;> simp [signFactor]

/-- The sign and the magnitude of an integer. -/
theorem signFactor_mul_natAbs (z : ℤ) : signFactor (decide (z < 0)) * (z.natAbs : ℝ) = z := by
  rw [Nat.cast_natAbs]
  by_cases hneg : z < 0
  · simp [signFactor, hneg, abs_of_neg hneg]
  · simp [signFactor, hneg, abs_of_nonneg (Int.not_lt.mp hneg)]

theorem f64Value_real (x : F64) : (f64Value x : ℝ) = signFactor (f64Sign x) * (f64Mant x * 2 ^ f64Scale x) := by
  rw [Laws.f64Value_eq, mul_assoc]
  rfl

theorem f64Exp_of_f64Finite {x : F64} (h : f64Finite x = true) : f64Exp x ≠ 2047 := of_decide_eq_true h

theorem f64Mant_eq_zero_iff (x : F64) : f64Mant x = 0 ↔ f64IsZero x = true := by
  refine ⟨fun h => ?_, f64Mant_of_f64IsZero⟩
  unfold f64Mant at h
  split at h
  · rename_i hexp
    unfold f64Exp at hexp
    unfold f64Frac at h
    refine decide_eq_true ?_
    omega
  · omega

/-- Negation changes the sign bit and nothing below it. -/
theorem f64Neg_fields (x : F64) : f64Sign (f64Neg x) = !f64Sign x ∧ (f64Neg x).toNat % 2 ^ 63 = x.toNat % 2 ^ 63 := by
  have hsign : ∀ y : F64, f64Sign y = y.msb := fun y => (BitVec.msb_eq_decide y).symm
  have hlow : (f64Neg x).setWidth 63 = x.setWidth 63 := by
    rw [f64Neg, BitVec.setWidth_xor]
    exact BitVec.xor_zero
  constructor
  · rw [hsign, hsign, f64Neg, BitVec.msb_xor, show (1#64 <<< 63).msb = true by decide, Bool.xor_true]
  · rw [← BitVec.toNat_setWidth, ← BitVec.toNat_setWidth, hlow]

theorem f64Exp_eq (x : F64) : f64Exp x = x.toNat % 2 ^ 63 / 2 ^ 52 := by
  rw [f64Exp]
  omega

theorem f64Frac_eq (x : F64) : f64Frac x = x.toNat % 2 ^ 63 % 2 ^ 52 := by
  rw [f64Frac]
  omega

theorem f64Exp_f64Neg (x : F64) : f64Exp (f64Neg x) = f64Exp x := by
  rw [f64Exp_eq, f64Exp_eq, (f64Neg_fields x).2]

theorem f64Value_f64Neg (x : F64) : (f64Value (f64Neg x) : ℝ) = -f64Value x := by
  have hfrac : f64Frac (f64Neg x) = f64Frac x := by rw [f64Frac_eq, f64Frac_eq, (f64Neg_fields x).2]
  rw [f64Value_real, f64Value_real, (f64Neg_fields x).1, signFactor_not, f64Mant, f64Mant, f64Scale, f64Scale,
    f64Exp_f64Neg, hfrac, neg_mul]

/-! #### Rounding once, with a sign -/

theorem f64Round_zero (neg : Bool) (e : ℤ) : f64Round neg 0 e = f64Zero neg := if_pos rfl

theorem signFactor_mul (neg : Bool) (v : ℝ) : signFactor neg * v = if neg then -v else v := by
  cases neg <;> simp [signFactor]

theorem f64Round_rounds_signed (neg : Bool) (m : Nat) (e : ℤ) :
    f64Rounds (signFactor neg * (m * 2 ^ e)) (f64Round neg m e) := by
  by_cases hm : m = 0
  · subst hm
    rw [f64Round_zero, Nat.cast_zero, zero_mul, mul_zero]
    exact Laws.f64Rounds_zero neg
  · rw [signFactor_mul]
    exact Laws.f64Round_rounds neg _ m e hm (.inl rfl)

theorem f64RoundQuot_rounds_signed (neg : Bool) (num : Nat) {den : Nat} (e : ℤ) (hden : den ≠ 0) :
    f64Rounds (signFactor neg * ((num : ℝ) / den * 2 ^ e)) (f64RoundQuot neg num den e) := by
  by_cases hnum : num = 0
  · subst hnum
    rw [f64RoundQuot_zero, Nat.cast_zero, zero_div, zero_mul, mul_zero]
    exact Laws.f64Rounds_zero neg
  · rw [signFactor_mul]
    exact Laws.f64RoundQuot_rounds neg num den e hnum hden

/-! #### The operations on finite data -/

/-- The significands are added at the smaller of the two scales, where both are integers. -/
theorem f64AddFinite_rounds (x y : F64) : f64Rounds (f64Value x + f64Value y) (f64AddFinite x y) := by
  have hsum : (f64Value x + f64Value y : ℝ) =
      ((f64IntAt x (min (f64Scale x) (f64Scale y)) + f64IntAt y (min (f64Scale x) (f64Scale y)) : ℤ) : ℝ) *
        2 ^ min (f64Scale x) (f64Scale y) := by
    rw [Int.cast_add, add_mul, Laws.f64IntAt_value x _ (min_le_left _ _), Laws.f64IntAt_value y _ (min_le_right _ _)]
  rw [hsum, f64AddFinite]
  generalize f64IntAt x _ + f64IntAt y _ = z
  split
  · rename_i hz
    rw [hz, Int.cast_zero, zero_mul]
    exact Laws.f64Rounds_zero _
  · rw [← signFactor_mul_natAbs z, mul_assoc]
    exact f64Round_rounds_signed _ _ _

section Finite

variable {x y : F64} (hx : f64Finite x = true) (hy : f64Finite y = true)
include hx hy

theorem f64AddNum_eq (nan : F64) : f64AddNum x y nan = f64AddFinite x y := by
  simp [f64AddNum, f64IsInf_of_exp, f64Exp_of_f64Finite hx, f64Exp_of_f64Finite hy]

theorem f64Add_rounds : f64Rounds (f64Value x + f64Value y) (f64Add x y) := by
  have hadd : f64Add x y = f64AddFinite x y := by
    simp [f64Add, f64IsNan_of_f64Finite hx, f64IsNan_of_f64Finite hy, f64AddNum_eq hx hy]
  rw [hadd]
  exact f64AddFinite_rounds x y

/-- A difference is the sum with the negated datum. -/
theorem f64Sub_rounds : f64Rounds (f64Value x - f64Value y) (f64Sub x y) := by
  have hneg : f64Finite (f64Neg y) = true := by rw [f64Finite, f64Exp_f64Neg]; exact hy
  have hsub : f64Sub x y = f64AddFinite x (f64Neg y) := by
    simp [f64Sub, f64IsNan_of_f64Finite hx, f64IsNan_of_f64Finite hy, f64AddNum_eq hx hneg]
  rw [hsub, sub_eq_add_neg, ← f64Value_f64Neg]
  exact f64AddFinite_rounds x (f64Neg y)

theorem f64Mul_rounds : f64Rounds (f64Value x * f64Value y) (f64Mul x y) := by
  have hmul : f64Mul x y =
      f64Round (f64Sign x != f64Sign y) (f64Mant x * f64Mant y) (f64Scale x + f64Scale y) := by
    simp [f64Mul, f64IsNan_of_f64Finite hx, f64IsNan_of_f64Finite hy, f64IsInf_of_exp, f64Exp_of_f64Finite hx,
      f64Exp_of_f64Finite hy]
  have hval : (f64Value x * f64Value y : ℝ) = signFactor (f64Sign x != f64Sign y) *
      (((f64Mant x * f64Mant y : ℕ) : ℝ) * 2 ^ (f64Scale x + f64Scale y)) := by
    rw [f64Value_real, f64Value_real, signFactor_bne, Nat.cast_mul, zpow_add₀ two_ne_zero]
    ring
  rw [hmul, hval]
  exact f64Round_rounds_signed _ _ _

theorem f64Div_rounds (hy0 : f64IsZero y = false) : f64Rounds (f64Value x / f64Value y) (f64Div x y) := by
  have hmant : f64Mant y ≠ 0 := fun h => absurd ((f64Mant_eq_zero_iff y).mp h) (Bool.eq_false_iff.mp hy0)
  have hdiv : f64Div x y =
      f64RoundQuot (f64Sign x != f64Sign y) (f64Mant x) (f64Mant y) (f64Scale x - f64Scale y) := by
    simp [f64Div, f64IsNan_of_f64Finite hx, f64IsNan_of_f64Finite hy, f64IsInf_of_exp, f64Exp_of_f64Finite hx,
      f64Exp_of_f64Finite hy, hy0]
  have hval : (f64Value x / f64Value y : ℝ) = signFactor (f64Sign x != f64Sign y) *
      ((f64Mant x : ℝ) / f64Mant y * 2 ^ (f64Scale x - f64Scale y)) := by
    have hsign : signFactor (f64Sign x) / signFactor (f64Sign y) = signFactor (f64Sign x != f64Sign y) := by
      rw [signFactor_bne, div_eq_iff (signFactor_ne_zero _), mul_assoc, signFactor_mul_self, mul_one]
    rw [f64Value_real, f64Value_real, mul_div_mul_comm, hsign, mul_div_mul_comm, zpow_sub₀ two_ne_zero]
  rw [hdiv, hval]
  exact f64RoundQuot_rounds_signed _ _ _ hmant

end Finite

/-- A literal is the quotient of its digits by a power of ten. -/
theorem f64Lit_rounds (m : ℤ) (k : ℕ) : f64Rounds ((m : ℝ) / 10 ^ k) (f64Lit m k) := by
  have hval : (m : ℝ) / 10 ^ k = signFactor (decide (m < 0)) * ((m.natAbs : ℝ) / ((10 ^ k : ℕ) : ℝ) * 2 ^ (0 : ℤ)) := by
    rw [zpow_zero, mul_one, ← mul_div_assoc, signFactor_mul_natAbs, Nat.cast_pow, Nat.cast_ofNat]
  rw [hval]
  exact f64RoundQuot_rounds_signed _ _ _ (pow_ne_zero k (by norm_num))

/-! #### The square root -/

theorem eq_f64Zero_of_f64IsZero {x : F64} (h : f64IsZero x = true) : x = f64Zero (f64Sign x) := by
  have hbits : x.toNat % 2 ^ 63 = 0 := of_decide_eq_true h
  have hlt := x.isLt
  apply BitVec.eq_of_toNat_eq
  rw [f64Zero, Laws.f64Pack_toNat _ _ (by norm_num), f64Sign]
  by_cases hsign : 2 ^ 63 ≤ x.toNat
  · simp only [hsign, decide_true, if_true]
    omega
  · simp only [hsign, decide_false, Bool.false_eq_true, if_false]
    omega

/-- The root of `n` in half units: exact where `n` is a square, else strictly between the halves around it, its odd last
digit standing for the remainder. -/
theorem sqrt_half_units (n : ℕ) {u : ℝ} (hu : 0 < u) :
    (Nat.sqrt n * Nat.sqrt n = n ∧ Real.sqrt n * (2 * u) = ((2 * Nat.sqrt n : ℕ) : ℝ) * u) ∨
    (Nat.sqrt n * Nat.sqrt n ≠ n ∧ (((2 * Nat.sqrt n + 1 : ℕ) : ℝ) - 1) * u < Real.sqrt n * (2 * u) ∧
      Real.sqrt n * (2 * u) < (((2 * Nat.sqrt n + 1 : ℕ) : ℝ) + 1) * u) := by
  have hlow : Nat.sqrt n * Nat.sqrt n ≤ n := Nat.sqrt_le n
  have hhigh : n < (Nat.sqrt n + 1) * (Nat.sqrt n + 1) := Nat.lt_succ_sqrt n
  generalize Nat.sqrt n = r at *
  by_cases hsq : r * r = n
  · have hroot : Real.sqrt n = r := by rw [← hsq, Nat.cast_mul, Real.sqrt_mul_self r.cast_nonneg]
    refine .inl ⟨hsq, ?_⟩
    rw [hroot]
    push_cast
    ring
  · have hr : (r : ℝ) < Real.sqrt n := by
      rw [Real.lt_sqrt r.cast_nonneg, sq]
      exact_mod_cast lt_of_le_of_ne hlow hsq
    have hr' : Real.sqrt n < r + 1 := by
      rw [Real.sqrt_lt' (by positivity), sq]
      exact_mod_cast hhigh
    refine .inr ⟨hsq, ?_, ?_⟩ <;> push_cast <;> nlinarith

/-- Scaled to an even power of two, a positive datum's root is the root of its significand at half that power. -/
theorem sqrt_value_eq (m : ℕ) (e h : ℤ) (k : ℕ) (hk : e - k = 2 * h) :
    Real.sqrt (m * 2 ^ e) = Real.sqrt ((m * 2 ^ k : ℕ) : ℝ) * (2 * 2 ^ (h - 1)) := by
  have hscale : (m : ℝ) * 2 ^ e = ((m * 2 ^ k : ℕ) : ℝ) * (2 ^ h * 2 ^ h) := by
    have he : e = k + (h + h) := by omega
    rw [he, zpow_add₀ two_ne_zero, zpow_add₀ two_ne_zero, zpow_natCast, Nat.cast_mul, Nat.cast_pow, Nat.cast_ofNat,
      mul_assoc]
  have hhalf : (2 : ℝ) * 2 ^ (h - 1) = 2 ^ h := by
    rw [← zpow_one_add₀ two_ne_zero]
    congr 1
    omega
  rw [hscale, Real.sqrt_mul (Nat.cast_nonneg _), Real.sqrt_mul_self (by positivity), hhalf]

/-- The root is taken of a significand of at least 120 bits, at an even power of two. -/
theorem f64Sqrt_eq {x : F64} (hx : f64Finite x = true) (hzero : f64IsZero x = false) (hsign : f64Sign x = false) :
    ∃ (k : ℕ) (h : ℤ), 120 ≤ k ∧ f64Scale x - k = 2 * h ∧ f64Sqrt x = f64Round false
      (2 * Nat.sqrt (f64Mant x * 2 ^ k) +
        if Nat.sqrt (f64Mant x * 2 ^ k) * Nat.sqrt (f64Mant x * 2 ^ k) = f64Mant x * 2 ^ k then 0 else 1) (h - 1) := by
  refine ⟨120 + (f64Scale x % 2).toNat, (f64Scale x - (120 + (f64Scale x % 2).toNat : ℕ)) / 2, by omega, by omega, ?_⟩
  simp [f64Sqrt, f64IsNan_of_f64Finite hx, hzero, hsign, f64IsInf_of_exp (f64Exp_of_f64Finite hx), Laws.isqrt_eq]

/-- A finite datum that is neither negative nor zero has its sign bit clear. -/
theorem f64Sign_of_nonneg {x : F64} (hmant : f64Mant x ≠ 0) (h0 : 0 ≤ f64Value x) : f64Sign x = false := by
  by_contra hsign
  have hpos : (0 : ℝ) < f64Mant x * 2 ^ f64Scale x := by
    have : (0 : ℝ) < f64Mant x := Nat.cast_pos.mpr (Nat.pos_of_ne_zero hmant)
    positivity
  have hval : (0 : ℝ) ≤ f64Value x := by exact_mod_cast h0
  rw [f64Value_real, Bool.eq_true_of_not_eq_false hsign, signFactor_mul, if_pos rfl] at hval
  linarith

theorem f64Sqrt_rounds {x : F64} (hx : f64Finite x = true) (h0 : 0 ≤ f64Value x) :
    f64Rounds (Real.sqrt (f64Value x)) (f64Sqrt x) := by
  cases hzero : f64IsZero x
  · have hmant : f64Mant x ≠ 0 := fun h => absurd ((f64Mant_eq_zero_iff x).mp h) (Bool.eq_false_iff.mp hzero)
    have hsign := f64Sign_of_nonneg hmant h0
    obtain ⟨k, h, hk, hscale, heq⟩ := f64Sqrt_eq hx hzero hsign
    have hlarge : 2 ^ 60 ≤ Nat.sqrt (f64Mant x * 2 ^ k) := by
      rw [Nat.le_sqrt, ← Nat.pow_add]
      calc 2 ^ (60 + 60) ≤ 2 ^ k := Nat.pow_le_pow_right (by norm_num) hk
        _ ≤ f64Mant x * 2 ^ k := Nat.le_mul_of_pos_left _ (Nat.pos_of_ne_zero hmant)
    rw [f64Value_real, hsign, signFactor_mul, if_neg (by decide), sqrt_value_eq _ _ h k hscale, heq]
    have hu : (0 : ℝ) < 2 ^ (h - 1) := by positivity
    rcases sqrt_half_units (f64Mant x * 2 ^ k) hu with ⟨hsq, hval⟩ | ⟨hsq, hlow, hhigh⟩
    · rw [if_pos hsq, Nat.add_zero]
      exact Laws.f64Round_rounds false _ _ _ (by omega) (.inl hval)
    · rw [if_neg hsq]
      exact Laws.f64Round_rounds false _ _ _ (by omega) (.inr ⟨by omega, by omega, hlow, hhigh⟩)
  · have hval : (f64Value x : ℝ) = 0 := by
      rw [f64Value_real, f64Mant_of_f64IsZero hzero, Nat.cast_zero, zero_mul, mul_zero]
    rw [f64Sqrt_of_f64IsZero hzero, hval, Real.sqrt_zero, eq_f64Zero_of_f64IsZero hzero]
    exact Laws.f64Rounds_zero _

/-- Settles O60: each operation rounds its exact result once. -/
theorem arithmeticIsCorrectlyRounded : Obligations.ArithmeticIsCorrectlyRounded :=
  ⟨fun _ _ hx hy => ⟨f64Add_rounds hx hy, f64Sub_rounds hx hy, f64Mul_rounds hx hy, f64Div_rounds hx hy⟩,
    fun _ => f64Sqrt_rounds, f64Lit_rounds⟩

end Sys2Proof.Proofs
